-- ==== Sys2Proof/Word.lean ====
section
/-! DEFINITION. The words the core's rules speak of: bytes, 32-bit command words and registers (00_scope.md R7). -/

namespace Sys2Proof

/-- One byte: a source byte, a ring byte, a byte READ returns (20_memory.md R63). -/
abbrev Byte := BitVec 8

/-- A 32-bit word of the command port, and the width of `cursor`, the histories and the accumulators (D4, D22). -/
abbrev Word := BitVec 32

end Sys2Proof
end

