-- ==== Sys2Proof/Machine/Memory.lean ====
section
/-! DEFINITION. Byte storage as plain data: a list of (address, byte) cells in one canonical form, used for the source
space (20_memory.md R60) and for the ring's storage (10_state.md R33). -/

namespace Sys2Proof.Machine

/-- Bytes by address. Canonical form (`Memory.wf`): addresses strictly rise, and no cell holds what an unlisted address
reads as, so equal contents are equal lists. -/
abbrev Memory := List Host.Cell

/-- What an address that is not listed reads as. DESIGN CHOICE (log 4), unsafe: the spec leaves SRC open. -/
def unlistedByte : Byte := 0x00#8

/-- The canonical form. -/
def Memory.wf : Memory → Bool
  | [] => true
  | (a, v) :: m => v != unlistedByte && m.all (fun cell => decide (a < cell.1)) && Memory.wf m

/-- The byte at an address. -/
def Memory.read : Memory → Nat → Byte
  | [], _ => unlistedByte
  | (b, w) :: m, a => if a = b then w else Memory.read m a

/-- The storage after writing one byte, still in canonical form. -/
def Memory.write : Memory → Nat → Byte → Memory
  | [], a, v => if v = unlistedByte then [] else [(a, v)]
  | (b, w) :: m, a, v =>
    if a < b then (if v = unlistedByte then (b, w) :: m else (a, v) :: (b, w) :: m)
    else if a = b then (if v = unlistedByte then m else (a, v) :: m)
    else (b, w) :: Memory.write m a v

/-- The storage after writing bytes at consecutive addresses from `a` up: how a host lays out the source region. -/
def Memory.writeBytes (m : Memory) (a : Nat) : List Byte → Memory
  | [] => m
  | b :: bs => Memory.writeBytes (Memory.write m a b) (a + 1) bs

end Sys2Proof.Machine
end

