-- ==== Sys2Proof/Config.lean ====
section
/-! DEFINITION. The implementation parameters of 00_scope.md R6 as plain data. A machine holds one `Config`, and no
command changes it (10_state.md R34). The defaults are in Machine/Tables.lean, the legality check in Machine/Params.lean. -/

namespace Sys2Proof

/-- One entry of the probability state machine (41_arith_decoder.md R110). -/
structure EvolutionEntry where
  /-- 8 bits; a legal table keeps it in [1, 0x7e]. -/
  probability : BitVec 8
  /-- Next state index after an LPS; a legal table keeps it at most 52. -/
  nextOnLPS : Nat
  /-- Next state index after an MPS that renormalized; a legal table keeps it at most 52. -/
  nextOnMPS : Nat
  /-- Whether an LPS in this state toggles the context's `invert`. -/
  toggleInvertOnLPS : Bool
  deriving DecidableEq, Repr

/-- The parameters of 00_scope.md R6 apart from the source contents SRC, which are `State.src`. -/
structure Config where
  /-- `IMAGE_SIZE`, from which the usable size U is derived (20_memory.md R67). -/
  imageSize : Nat
  /-- `BASE_OFFSET`: the physical offset of logical source offset 0 (20_memory.md R67). -/
  baseOffset : Nat
  /-- `RING_CAPACITY` (42_ring_buffer.md R133). -/
  ringCapacity : Nat
  /-- `REFILL_THRESHOLD` (47_commands.md R207). -/
  refillThreshold : Nat
  /-- `SENTINEL`: the byte READ returns in the Invalid state (47_commands.md R208). -/
  sentinel : Byte
  /-- `EVOLUTION_TABLE`: 53 entries (41_arith_decoder.md R110). -/
  evolutionTable : Vector EvolutionEntry 53
  /-- `MODE2_CONTEXT_TABLE`: for each context the next one on bit 0 and on bit 1 (45_mode2.md R175). -/
  mode2ContextTable : Vector (Nat × Nat) 32
  /-- `MODE0_MPS_TAP`: the bit of the 32-bit `out` that predicts mode 0's next bit (43_mode0.md R143, log 12). -/
  mode0MpsTap : Fin 32
  deriving DecidableEq, Repr

end Sys2Proof
end

