-- ==== Sys2Proof/Machine/Tables.lean ====
section
/-! DEFINITION. The default parameters of 00_scope.md R6: the tables of 41_arith_decoder.md R111 and 45_mode2.md R175
and the defaults beside them. The spec itself supplies these values from general knowledge (93_implementation_defined.md
section 2, UNVERIFIED, log 14) and makes them parameters, so they are data in `Config`. -/

namespace Sys2Proof.Machine

/-- 41_arith_decoder.md R111, entries 0 to 26. -/
def evolutionRowsA : List EvolutionEntry :=
  [⟨0x5a#8, 1, 1, true⟩, ⟨0x25#8, 6, 2, false⟩, ⟨0x11#8, 8, 3, false⟩, ⟨0x08#8, 10, 4, false⟩,
   ⟨0x03#8, 12, 5, false⟩, ⟨0x01#8, 15, 5, false⟩, ⟨0x5a#8, 7, 7, true⟩, ⟨0x3f#8, 19, 8, false⟩,
   ⟨0x2c#8, 21, 9, false⟩, ⟨0x20#8, 22, 10, false⟩, ⟨0x17#8, 23, 11, false⟩, ⟨0x11#8, 25, 12, false⟩,
   ⟨0x0c#8, 26, 13, false⟩, ⟨0x09#8, 28, 14, false⟩, ⟨0x07#8, 29, 15, false⟩, ⟨0x05#8, 31, 16, false⟩,
   ⟨0x04#8, 32, 17, false⟩, ⟨0x03#8, 34, 18, false⟩, ⟨0x02#8, 35, 5, false⟩, ⟨0x5a#8, 20, 20, true⟩,
   ⟨0x48#8, 39, 21, false⟩, ⟨0x3a#8, 40, 22, false⟩, ⟨0x2e#8, 42, 23, false⟩, ⟨0x26#8, 44, 24, false⟩,
   ⟨0x1f#8, 45, 25, false⟩, ⟨0x19#8, 46, 26, false⟩, ⟨0x15#8, 25, 27, false⟩]

/-- 41_arith_decoder.md R111, entries 27 to 52. -/
def evolutionRowsB : List EvolutionEntry :=
  [⟨0x11#8, 26, 28, false⟩, ⟨0x0e#8, 26, 29, false⟩, ⟨0x0b#8, 27, 30, false⟩, ⟨0x09#8, 28, 31, false⟩,
   ⟨0x08#8, 29, 32, false⟩, ⟨0x07#8, 30, 33, false⟩, ⟨0x05#8, 31, 34, false⟩, ⟨0x04#8, 33, 35, false⟩,
   ⟨0x04#8, 33, 36, false⟩, ⟨0x03#8, 34, 37, false⟩, ⟨0x02#8, 35, 38, false⟩, ⟨0x02#8, 36, 5, false⟩,
   ⟨0x58#8, 39, 40, true⟩, ⟨0x4d#8, 47, 41, false⟩, ⟨0x43#8, 48, 42, false⟩, ⟨0x3b#8, 49, 43, false⟩,
   ⟨0x34#8, 50, 44, false⟩, ⟨0x2e#8, 51, 45, false⟩, ⟨0x29#8, 44, 46, false⟩, ⟨0x25#8, 45, 24, false⟩,
   ⟨0x56#8, 47, 48, true⟩, ⟨0x4f#8, 47, 49, false⟩, ⟨0x47#8, 48, 50, false⟩, ⟨0x41#8, 49, 51, false⟩,
   ⟨0x3c#8, 50, 52, false⟩, ⟨0x37#8, 51, 43, false⟩]

/-- The default `EVOLUTION_TABLE` (41_arith_decoder.md R111). -/
def defaultEvolutionTable : Vector EvolutionEntry 53 :=
  ⟨(evolutionRowsA ++ evolutionRowsB).toArray, rfl⟩

/-- 45_mode2.md R175, contexts 0 to 15. -/
def mode2RowsA : List (Nat × Nat) :=
  [(1, 2), (3, 8), (13, 14), (15, 16),
   (17, 18), (19, 20), (21, 22), (23, 24),
   (25, 26), (25, 26), (25, 26), (25, 26),
   (25, 26), (27, 28), (29, 30), (31, 31)]

/-- 45_mode2.md R175, contexts 16 to 31. -/
def mode2RowsB : List (Nat × Nat) :=
  [(31, 31), (31, 31), (31, 31), (31, 31),
   (31, 31), (31, 31), (31, 31), (31, 31),
   (31, 31), (31, 31), (31, 31), (31, 31),
   (31, 31), (31, 31), (31, 31), (31, 31)]

/-- The default `MODE2_CONTEXT_TABLE` (45_mode2.md R175). -/
def defaultMode2ContextTable : Vector (Nat × Nat) 32 :=
  ⟨(mode2RowsA ++ mode2RowsB).toArray, rfl⟩

/-- The parameters at reset: every default of 00_scope.md R6. `imageSize` and `baseOffset` are OPEN there; the values
here are a DESIGN CHOICE (log 3), unsafe, and are data of the state that a host sets before construction. -/
def defaultConfig : Config where
  imageSize := 0x500000
  baseOffset := 0
  ringCapacity := 64
  refillThreshold := 32
  sentinel := 0x00#8
  evolutionTable := defaultEvolutionTable
  mode2ContextTable := defaultMode2ContextTable
  mode0MpsTap := 15

end Sys2Proof.Machine
end

