-- ==== Sys2Proof/Machine/State.lean ====
section
/-! DEFINITION. Every piece of state the spec gives the core (10_state.md R20 to R35), the reasons a command can stop,
and the state after construction. Plain data throughout. -/

namespace Sys2Proof.Machine

/-- The control register selecting the active decoder (10_state.md R20). Not readable by the host. -/
inductive Mode where
  | mode0
  | mode1
  | mode2
  | invalid
  deriving DecidableEq, Repr

/-- One context of the probability model (10_state.md R26). -/
structure Context where
  /-- Index into `evolutionTable`, 6 bits, at most 52. -/
  stateIndex : BitVec 6
  /-- Which decoded bit counts as the most probable one. -/
  invert : Bool
  deriving DecidableEq, Repr

/-- Why a command stops without completing. -/
inductive Fault where
  /-- `RingWrite` with a full ring (42_ring_buffer.md R130, 60_exceptions.md R222). Safe: the run has no later step. -/
  | ringOverflow
  /-- `RingRead` with an empty ring (42_ring_buffer.md R131, 60_exceptions.md R222). Safe. -/
  | ringUnderflow
  /-- A symbol decode against a context number above 31 (41_arith_decoder.md R116, 60_exceptions.md R222). Safe. -/
  | contextRange
  /-- A move to front of a value the list does not hold (44_mode1.md R153, 60_exceptions.md R222). Safe. -/
  | orderMissing
  /-- Stuck: a `Fetch` with usable size 0 has no completing step (60_exceptions.md R223). Not recorded in `State.fault`
  (log 8). Safe. -/
  | sourceEmpty
  /-- The model's own guard, raised by the evolution lookup of a context whose `stateIndex` is above 52 (10_state.md R26
  excludes it; log 11). Safe. -/
  | stateRange
  /-- The model's own guard, raised by a mode 2 unit that would write the side buffer above byte 15 (10_state.md R32
  excludes it; log 11). Safe. -/
  | sideRange
  deriving DecidableEq, Repr

/-- Why the model gives a command, or the whole run, no meaning (60_exceptions.md R224). -/
inductive Refusal where
  /-- An instruction that has no meaning yet, by its mnemonic. Raised by no arm of this model. Safe. -/
  | notModelled (mnemonic : String)
  /-- Bits [31:8] of word 0 are not 0 (30_encoding.md R89). Raised by the command port. Safe. -/
  | reservedField
  /-- Command code 0x03 to 0xff (30_encoding.md R89). Raised by the command port. Safe. -/
  | reservedCode
  /-- The command words end inside an INIT (30_encoding.md R89). Raised by the command port. Safe. -/
  | truncatedInit
  /-- `ringCapacity < refillThreshold + 17` (42_ring_buffer.md R135). Raised by the parameter check. Safe. -/
  | ringCapacityTooSmall
  /-- `refillThreshold < 1` (42_ring_buffer.md R135). Raised by the parameter check. Safe. -/
  | refillThresholdZero
  /-- `imageSize < 0x100000` (20_memory.md R67). Raised by the parameter check. Safe. -/
  | imageTooSmall
  /-- A supplied evolution table fails 41_arith_decoder.md R110. Raised by the parameter check. Safe. -/
  | evolutionTableIllegal
  /-- A supplied mode 2 context table fails 45_mode2.md R175. Raised by the parameter check. Safe. -/
  | mode2TableIllegal
  /-- The source changed since the last INIT with no RESET between (20_memory.md R66). Raised by the command port. Safe. -/
  | sourceChanged
  deriving DecidableEq, Repr

/-- The core's whole state. -/
structure State where
  /-- The parameters and the constant tables (00_scope.md R6, 10_state.md R34). Written by no command. -/
  cfg : Config
  /-- The source bytes SRC by physical offset (40_source_fetch.md R100). Written by no command. -/
  src : Memory
  /-- 10_state.md R20. -/
  mode : Mode
  /-- The logical offset of the next source byte (10_state.md R21). -/
  cursor : Word
  /-- The coding interval's width (10_state.md R22). -/
  span : BitVec 8
  /-- The code value (10_state.md R23). -/
  val : BitVec 8
  /-- The bits of the last fetched byte not yet used, from bit 7 (10_state.md R24). -/
  inputByte : BitVec 8
  /-- How many bits of `inputByte` are left (10_state.md R25). -/
  inputBitsRemaining : BitVec 4
  /-- The 32 contexts (10_state.md R26). -/
  ctx : Vector Context 32
  /-- LPS flags of the symbols decoded, the newest in bit 0 (10_state.md R27). -/
  lpsHistory : Word
  /-- `invert` bits the decodes used, the newest in bit 0 (10_state.md R27). -/
  invertHistory : Word
  /-- Output accumulator of modes 0 and 1 (10_state.md R28). -/
  out : Word
  /-- Mode 2's newest eight pixels (10_state.md R29). -/
  out0 : Word
  /-- The nibbles shifted out of `out0` (10_state.md R29). -/
  out1 : Word
  /-- The MRU pixel order; mode 1 uses entries 0 to 3 (10_state.md R30). -/
  pixelOrder : Vector (BitVec 4) 16
  /-- Mode 2's held-back low planes (10_state.md R32). -/
  sideBuffer : Vector Byte 16
  /-- How many bytes `sideBuffer` holds (10_state.md R32). -/
  sideIndex : BitVec 5
  /-- The ring's bytes by index, an index not listed holding 0 (10_state.md R33, log 17). -/
  ringData : Memory
  /-- 10_state.md R33. -/
  readOffset : Nat
  /-- 10_state.md R33. -/
  writeOffset : Nat
  /-- Bytes held in the ring (10_state.md R33). -/
  length : Nat
  /-- The fault record (10_state.md R35). No command clears it. -/
  fault : Option Fault
  /-- The model's own: the bytes READs returned, in order, which is all the host sees (00_scope.md R12, log 6). -/
  observed : List Byte
  /-- The model's own: command words issued and not yet taken, the next one first (30_encoding.md R80, log 1). -/
  port : List Word
  /-- The model's own: the source as it was at the last INIT, none after a RESET (20_memory.md R66, log 10). -/
  srcAtInit : Option Memory
  deriving DecidableEq, Repr

/-- Every context as INIT leaves it (47_commands.md R202). -/
def freshContexts : Vector Context 32 := Vector.replicate 32 ⟨0#6, false⟩

/-- The identity pixel order (10_state.md R30). -/
def identityOrder : Vector (BitVec 4) 16 :=
  #v[0#4, 1#4, 2#4, 3#4, 4#4, 5#4, 6#4, 7#4, 8#4, 9#4, 10#4, 11#4, 12#4, 13#4, 14#4, 15#4]

/-- The state after construction (70_reset_and_hazards.md R240): Invalid, the ring empty with offsets 0, no fault.
Registers R39 calls unspecified hold the values of log 5; `cfg` and `src` those of log 3 and log 4. -/
def State.reset : State where
  cfg := defaultConfig
  src := []
  mode := .invalid
  cursor := 0#32
  span := 0#8
  val := 0#8
  inputByte := 0#8
  inputBitsRemaining := 0#4
  ctx := freshContexts
  lpsHistory := 0#32
  invertHistory := 0#32
  out := 0#32
  out0 := 0#32
  out1 := 0#32
  pixelOrder := identityOrder
  sideBuffer := Vector.replicate 16 0#8
  sideIndex := 0#5
  ringData := []
  readOffset := 0
  writeOffset := 0
  length := 0
  fault := none
  observed := []
  port := []
  srcAtInit := none

end Sys2Proof.Machine
end

