-- ==== Sys2Proof/Machine/Params.lean ====
section
/-! DEFINITION. The legality of the parameters (60_exceptions.md R224) and the usable size derived from them. -/

namespace Sys2Proof.Machine

/-- The usable size U of the source region (20_memory.md R67). Below 0x100000 the spec gives U no value and the image is
refused (`parameterRefusal`); natural subtraction then gives 0. -/
def usableSize (cfg : Config) : Nat :=
  if 0x500000 < cfg.imageSize then cfg.imageSize - 0x200000 else cfg.imageSize - 0x100000

/-- One entry's check of 41_arith_decoder.md R110. -/
def evolutionEntryLegal (e : EvolutionEntry) : Bool :=
  decide (e.nextOnLPS ≤ 52) && decide (e.nextOnMPS ≤ 52) &&
    decide (1 ≤ e.probability.toNat) && decide (e.probability.toNat ≤ 0x7e)

/-- The evolution table's check (41_arith_decoder.md R110). -/
def evolutionTableLegal (t : Vector EvolutionEntry 53) : Bool :=
  t.toList.all evolutionEntryLegal

/-- The mode 2 context table's check (45_mode2.md R175): every entry is at most 31, entry 1's plus 4 (the largest
`refcon`) too. -/
def mode2TableLegal (t : Vector (Nat × Nat) 32) : Bool :=
  t.toList.all (fun p => decide (p.1 ≤ 31) && decide (p.2 ≤ 31)) &&
    decide (t[1].1 + 4 ≤ 31) && decide (t[1].2 + 4 ≤ 31)

/-- The refusal of parameters outside their ranges, none when all are legal (60_exceptions.md R224). -/
def parameterRefusal (cfg : Config) : Option Refusal :=
  if cfg.refillThreshold < 1 then some .refillThresholdZero
  else if cfg.ringCapacity < cfg.refillThreshold + 17 then some .ringCapacityTooSmall
  else if cfg.imageSize < 0x100000 then some .imageTooSmall
  else if !evolutionTableLegal cfg.evolutionTable then some .evolutionTableIllegal
  else if !mode2TableLegal cfg.mode2ContextTable then some .mode2TableIllegal
  else none

end Sys2Proof.Machine
end

