-- ==== Sys2Proof/Machine/Ops.lean ====
section
/-! DEFINITION. The named operations every command is built from: how an operation ends, raising a fault, the source
fetch and the ring buffer. -/

namespace Sys2Proof.Machine

/-- How an internal operation ends: with a result and the state after it, or stopped, with the state just before the
stopping primitive's first write (60_exceptions.md R226). -/
inductive Res (α : Type) where
  | done (a : α) (s : State)
  | stop (r : Fault) (s : State)
  deriving DecidableEq, Repr

/-- Run the next operation on the result of this one; a stop ends the command at once (60_exceptions.md R225). -/
def Res.bind {α β : Type} (x : Res α) (f : α → State → Res β) : Res β :=
  match x with
  | .done a s => f a s
  | .stop r s => .stop r s

/-- `body` run `n` times in order, the value `a` passed along (`for i in 0..n-1`, 00_scope.md R8). -/
def loop {α : Type} (body : α → State → Res α) : Nat → α → State → Res α
  | 0, a, s => .done a s
  | n + 1, a, s => (body a s).bind fun a' s' => loop body n a' s'

/-- `raise Fault(r)`: the one way into the faulted state. The reason is recorded and nothing else is written
(60_exceptions.md R222, R226). The core has no way back from it, so there is no return operation (R226). -/
def raise {α : Type} (r : Fault) (s : State) : Res α :=
  .stop r { s with fault := some r }

/-- `stuck(r)`: the command has no completing step (60_exceptions.md R223). Nothing is recorded (log 8). -/
def stuck {α : Type} (r : Fault) (s : State) : Res α :=
  .stop r s

/-- A command's end as the host's outcome of a step. -/
def Res.outcome (x : Res Unit) : Host.Outcome State Fault Refusal :=
  match x with
  | .done _ s => .next s
  | .stop r _ => .fault r

/-- The state an operation leaves, stopped or not (60_exceptions.md R226). -/
def Res.final {α : Type} (x : Res α) : State :=
  match x with
  | .done _ s => s
  | .stop _ s => s

/-- `SrcRead(p)`: the source byte at a physical offset (40_source_fetch.md R100). No side effect. -/
def srcRead (p : Nat) (s : State) : Byte :=
  s.src.read p

/-- `Fetch()`: the next source byte; the cursor wraps by U and advances (40_source_fetch.md R101). -/
def fetch (s : State) : Res Byte :=
  if usableSize s.cfg = 0 then stuck .sourceEmpty s
  else
    .done (srcRead (s.cfg.baseOffset + s.cursor.toNat % usableSize s.cfg) s)
      { s with cursor := BitVec.ofNat 32 (s.cursor.toNat % usableSize s.cfg + 1) }

/-- `RingWrite(b)`: append one byte (42_ring_buffer.md R130). -/
def ringWrite (b : Byte) (s : State) : Res Unit :=
  if s.length = s.cfg.ringCapacity then raise .ringOverflow s
  else
    .done () { s with
      ringData := s.ringData.write s.writeOffset b
      writeOffset := (s.writeOffset + 1) % s.cfg.ringCapacity
      length := s.length + 1 }

/-- `RingWrite` of each byte in list order. -/
def ringWriteAll : List Byte → State → Res Unit
  | [], s => .done () s
  | b :: bs, s => (ringWrite b s).bind fun _ s' => ringWriteAll bs s'

/-- `RingRead()`: remove and return the oldest byte (42_ring_buffer.md R131). -/
def ringRead (s : State) : Res Byte :=
  if s.length = 0 then raise .ringUnderflow s
  else
    .done (s.ringData.read s.readOffset) { s with
      readOffset := (s.readOffset + 1) % s.cfg.ringCapacity
      length := s.length - 1 }

/-- `RingClear()`: empty the ring; `ringData` is not changed (42_ring_buffer.md R132). -/
def ringClear (s : State) : State :=
  { s with readOffset := 0, writeOffset := 0, length := 0 }

end Sys2Proof.Machine
end

