-- ==== Sys2Proof/Machine/Operands.lean ====
section
/-! DEFINITION. Operand forms: INIT's mode operand, and the context numbers and reference pixels assembled from
internal state (30_encoding.md R83, R87, R88). -/

namespace Sys2Proof.Machine

/-- The decoder an INIT mode operand selects; every value but 0, 1 and 2 selects Invalid (30_encoding.md R83). -/
def modeOfOperand (m : Word) : Mode :=
  if m = 0#32 then .mode0
  else if m = 1#32 then .mode1
  else if m = 2#32 then .mode2
  else .invalid

/-- The 2-bit code of the mode register (10_state.md R20). -/
def modeCode : Mode → BitVec 2
  | .mode0 => 0#2
  | .mode1 => 1#2
  | .mode2 => 2#2
  | .invalid => 3#2

/-- The three reference pixels of one pixel. -/
structure RefPixels where
  a : BitVec 4
  b : BitVec 4
  c : BitVec 4
  deriving DecidableEq, Repr

/-- Mode 1's reference pixels: `out[3:2]`, `out[15:14]`, `out[17:16]` (30_encoding.md R88). -/
def mode1Pixels (s : State) : RefPixels where
  a := (s.out.extractLsb' 2 2).setWidth 4
  b := (s.out.extractLsb' 14 2).setWidth 4
  c := (s.out.extractLsb' 16 2).setWidth 4

/-- Mode 2's reference pixels: `out0[3:0]`, `out0[31:28]`, `out1[3:0]` (45_mode2.md R172). -/
def mode2Pixels (s : State) : RefPixels where
  a := s.out0.extractLsb' 0 4
  b := s.out0.extractLsb' 28 4
  c := s.out1.extractLsb' 0 4

/-- The equality class of three pixel values (44_mode1.md R152). -/
def refcon (a b c : BitVec 4) : Nat :=
  if a = b then (if b ≠ c then 1 else 0)
  else if b = c then 2
  else 4 - (if a = c then 1 else 0)

/-- `lpsHistory ^ invertHistory`: bit j is `flag ^ invertUsed` of the symbol j before the newest (43_mode0.md R142). -/
def historyXor (s : State) : Word :=
  s.lpsHistory ^^^ s.invertHistory

/-- The context of bit `bitIdx` of a mode 0 byte (43_mode0.md R142). -/
def mode0Context (bitIdx : Nat) (s : State) : Nat :=
  let mask : Word := (1#32 <<< (bitIdx % 4)) - 1#32
  let con := mask.toNat + ((s.invertHistory &&& mask) ^^^ (s.lpsHistory &&& mask)).toNat
  if 3 < bitIdx then con + 15 else con

/-- The context after one mode 1 symbol, from the histories after it (44_mode1.md R155). -/
def mode1NextContext (con : Nat) (s : State) : Nat :=
  5 + 2 * con + ((historyXor s) &&& 1#32).toNat

/-- The context after one mode 2 symbol decoded against `con` (45_mode2.md R176); `bit` is `flag ^ invertUsed`. -/
def mode2NextContext (cfg : Config) (con : Fin 32) (bit : Bool) (rc : Nat) : Nat :=
  let targets := cfg.mode2ContextTable[con]
  (if bit then targets.2 else targets.1) + (if con.val = 1 then rc else 0)

end Sys2Proof.Machine
end

