-- ==== Sys2Proof/Machine/Flags.lean ====
section
/-! DEFINITION. The per-symbol flags and the flag-like state they update (10_state.md R37): the LPS flag, the predicted
and decoded bit, a context's next state, the histories. -/

namespace Sys2Proof.Machine

/-- What one symbol decode returns (41_arith_decoder.md R116). -/
structure Symbol where
  /-- True for an LPS. -/
  flag : Bool
  /-- The context's `invert` before the decode. -/
  invertUsed : Bool
  /-- Renormalization iterations. -/
  shift : Nat
  deriving DecidableEq, Repr

/-- The symbol is an LPS: `val > span - prob`, compared on integers (41_arith_decoder.md R113). -/
def isLPS (prob span val : BitVec 8) : Bool :=
  !decide (val.toNat + prob.toNat ≤ span.toNat)

/-- Mode 0's predicted bit, from the accumulator's tap and the context's `invert` (43_mode0.md R143). -/
def predictedBit (cfg : Config) (out : Word) (invert : Bool) : Bool :=
  out.getLsbD cfg.mode0MpsTap ^^ invert

/-- The decoded bit: the predicted one on an MPS, its opposite on an LPS (41_arith_decoder.md R115). -/
def decodedBit (mps flag : Bool) : Bool :=
  mps ^^ flag

/-- A context after one symbol, from the entry looked up before it (41_arith_decoder.md R117). -/
def contextAfter (e : EvolutionEntry) (flag : Bool) (shift : Nat) (c : Context) : Context where
  stateIndex :=
    if flag then BitVec.ofNat 6 e.nextOnLPS
    else if 0 < shift then BitVec.ofNat 6 e.nextOnMPS
    else c.stateIndex
  invert := if flag && e.toggleInvertOnLPS then !c.invert else c.invert

/-- Shift a 32-bit register left by one with `b` entering at bit 0 (10_state.md R27). -/
def shiftIn (h : Word) (b : Bool) : Word :=
  h * 2#32 + (BitVec.ofBool b).setWidth 32

/-- The history update after a symbol (10_state.md R27, 44_mode1.md R156, 45_mode2.md R177). -/
def recordSymbol (sym : Symbol) (s : State) : State :=
  { s with
    lpsHistory := shiftIn s.lpsHistory sym.flag
    invertHistory := shiftIn s.invertHistory sym.invertUsed }

end Sys2Proof.Machine
end

