-- ==== Sys2Proof/Machine/Arith.lean ====
section
/-! DEFINITION. The adaptive binary arithmetic decoder (41_arith_decoder.md). -/

namespace Sys2Proof.Machine

/-- The evolution lookups of context `con`: the context and the table entry its state selects
(41_arith_decoder.md R112). Nothing is written. -/
def lookupContext (con : Nat) (s : State) : Res (Context × EvolutionEntry) :=
  if hc : con < 32 then
    if he : s.ctx[con].stateIndex.toNat < 53 then
      .done (s.ctx[con], s.cfg.evolutionTable[s.ctx[con].stateIndex.toNat]) s
    else raise .stateRange s
  else raise .contextRange s

/-- The interval split (41_arith_decoder.md R113): the LPS flag and the state with `span` and `val` narrowed. -/
def intervalSplit (prob : BitVec 8) (s : State) : Bool × State :=
  if isLPS prob s.span s.val then
    (true, { s with span := prob - 1#8, val := s.val - (s.span - (prob - 1#8)) })
  else (false, { s with span := s.span - prob })

/-- One renormalization iteration (41_arith_decoder.md R114): a stream bit enters `val`, and a used-up `inputByte` is
reloaded in the same iteration. -/
def renormStep (s : State) : Res Unit :=
  let s1 := { s with
    span := s.span * 2#8 + 1#8
    val := s.val * 2#8 + (BitVec.ofBool s.inputByte.msb).setWidth 8
    inputByte := s.inputByte <<< 1
    inputBitsRemaining := s.inputBitsRemaining - 1#4 }
  if s1.inputBitsRemaining = 0#4 then
    (fetch s1).bind fun b s2 => .done () { s2 with inputByte := b, inputBitsRemaining := 8#4 }
  else .done () s1

/-- Iterate while `span < 0x7f`, at most `fuel` times more, counting from `shift` (41_arith_decoder.md R114). -/
def renormLoop : Nat → Nat → State → Res Nat
  | 0, shift, s => .done shift s
  | fuel + 1, shift, s =>
    if s.span.toNat < 0x7f then (renormStep s).bind fun _ s' => renormLoop fuel (shift + 1) s'
    else .done shift s

/-- Renormalization (41_arith_decoder.md R114). Seven iterations bring every 8-bit `span` to 0x7f or more, so the fuel
is never the reason it ends (log 15). -/
def renormalize (s : State) : Res Nat :=
  renormLoop 7 0 s

/-- The context update (41_arith_decoder.md R117). -/
def updateContext (con : Nat) (e : EvolutionEntry) (flag : Bool) (shift : Nat) (c : Context) (s : State) : State :=
  { s with ctx := s.ctx.setIfInBounds con (contextAfter e flag shift c) }

/-- `DecodeSymbol(con)` (41_arith_decoder.md R116). -/
def decodeSymbol (con : Nat) (s : State) : Res Symbol :=
  (lookupContext con s).bind fun ce s0 =>
    let split := intervalSplit ce.2.probability s0
    (renormalize split.2).bind fun shift s2 =>
      .done ⟨split.1, ce.1.invert, shift⟩ (updateContext con ce.2 split.1 shift ce.1 s2)

/-- Stream priming (41_arith_decoder.md R118): `val` takes the first byte, `inputByte` the second (D12). -/
def prime (s : State) : Res Unit :=
  (fetch { s with span := 0xff#8 }).bind fun b1 s1 =>
    (fetch { s1 with val := b1 }).bind fun b2 s2 =>
      .done () { s2 with inputByte := b2, inputBitsRemaining := 8#4 }

end Sys2Proof.Machine
end

