-- ==== Sys2Proof/Machine/Mode0.lean ====
section
/-! DEFINITION. Mode 0, a plain byte stream (43_mode0.md). -/

namespace Sys2Proof.Machine

/-- One bit of a mode 0 byte (43_mode0.md R141, R143); the result is the next bit's index. The predicted bit uses the
context's `invert` before the decode, which the decode returns as `invertUsed`. -/
def mode0Bit (bitIdx : Nat) (s : State) : Res Nat :=
  (decodeSymbol (mode0Context bitIdx s) s).bind fun sym s1 =>
    let mps := predictedBit s1.cfg s1.out sym.invertUsed
    .done (bitIdx + 1) (recordSymbol sym { s1 with out := shiftIn s1.out (decodedBit mps sym.flag) })

/-- `Mode0Unit()`: eight bits, most significant first, and one byte into the ring (43_mode0.md R141, R144). -/
def mode0Unit (s : State) : Res Unit :=
  (loop mode0Bit 8 0 s).bind fun _ s1 => ringWrite (s1.out.extractLsb' 0 8) s1

end Sys2Proof.Machine
end

