-- ==== Sys2Proof/Machine/Morton.lean ====
section
/-! DEFINITION. The Morton de-interleave tables, a pure function of the index (46_morton.md R190 to R195). They are
constant, so they are definitions and not state (10_state.md R34). -/

namespace Sys2Proof.Machine

/-- `M2[h][i]` (46_morton.md R190): bit k of `i` goes to bit 8·(k mod 2) + 4·h + floor(k / 2). -/
def m2 (h : Nat) (i : BitVec 8) : BitVec 16 :=
  (List.range 8).foldl
    (fun acc k => acc + ((BitVec.ofBool (i.getLsbD k)).setWidth 16 <<< (8 * (k % 2) + 4 * h + k / 2))) 0#16

/-- `M4[h][i]` (46_morton.md R191): bit k of `i` goes to bit 8·(k mod 4) + 2·h + floor(k / 4). -/
def m4 (h : Nat) (i : BitVec 8) : BitVec 32 :=
  (List.range 8).foldl
    (fun acc k => acc + ((BitVec.ofBool (i.getLsbD k)).setWidth 32 <<< (8 * (k % 4) + 2 * h + k / 4))) 0#32

/-- `Morton2(x)` (46_morton.md R192). -/
def morton2 (x : BitVec 16) : BitVec 16 :=
  m2 0 (x.extractLsb' 0 8) + m2 1 (x.extractLsb' 8 8)

/-- `Morton4(x)` (46_morton.md R193). -/
def morton4 (x : BitVec 32) : BitVec 32 :=
  m4 0 (x.extractLsb' 0 8) + m4 1 (x.extractLsb' 8 8) + m4 2 (x.extractLsb' 16 8) + m4 3 (x.extractLsb' 24 8)

end Sys2Proof.Machine
end

