-- ==== Sys2Proof/Machine/PixelOrder.lean ====
section
/-! DEFINITION. Move-to-front and the per-pixel ranking, shared by modes 1 and 2 (44_mode1.md R153, R154). -/

namespace Sys2Proof.Machine

/-- `MTF(list, v)`: the entries before the first `v` move right by one and `v` comes to the front; none when the list
does not hold `v` (44_mode1.md R153). -/
def mtf {n : Nat} (order : Vector (BitVec 4) n) (v : BitVec 4) : Option (Vector (BitVec 4) n) :=
  if h : v ∈ order.toList then
    some ⟨(v :: order.toList.erase v).toArray, by
      have hpos : 0 < order.toList.length := List.length_pos_of_mem h
      simp only [List.size_toArray, List.length_cons, List.length_erase_of_mem h]
      simp only [Vector.length_toList] at hpos ⊢
      omega⟩
  else none

/-- `MTF` as an operation: a missing value raises `OrderMissing` (44_mode1.md R153). -/
def moveToFront {n : Nat} (order : Vector (BitVec 4) n) (v : BitVec 4) (s : State) : Res (Vector (BitVec 4) n) :=
  match mtf order v with
  | some r => .done r s
  | none => raise .orderMissing s

/-- `RealOrder(order, a, b, c)`: `c`, then `b`, then `a` moved to the front (44_mode1.md R154). -/
def realOrder {n : Nat} (order : Vector (BitVec 4) n) (r : RefPixels) (s : State) : Res (Vector (BitVec 4) n) :=
  (moveToFront order r.c s).bind fun o1 s1 =>
    (moveToFront o1 r.b s1).bind fun o2 s2 => moveToFront o2 r.a s2

/-- Entries 0 to 3, mode 1's order (10_state.md R30). -/
def firstFour (order : Vector (BitVec 4) 16) : Vector (BitVec 4) 4 :=
  #v[order[0], order[1], order[2], order[3]]

/-- The order with entries 0 to 3 replaced; mode 1 leaves 4 to 15 alone (10_state.md R30). -/
def withFirstFour (order : Vector (BitVec 4) 16) (f : Vector (BitVec 4) 4) : Vector (BitVec 4) 16 :=
  (((order.set 0 f[0]).set 1 f[1]).set 2 f[2]).set 3 f[3]

end Sys2Proof.Machine
end

