-- ==== Sys2Proof/Machine/Mode1.lean ====
section
/-! DEFINITION. Mode 1, 2 bits per pixel (44_mode1.md). -/

namespace Sys2Proof.Machine

/-- One symbol of a mode 1 pixel (44_mode1.md R151, R156); the result is the next symbol's context (R155). -/
def mode1Symbol (con : Nat) (s : State) : Res Nat :=
  (decodeSymbol con s).bind fun sym s1 =>
    let s2 := recordSymbol sym s1
    .done (mode1NextContext con s2) s2

/-- The pixel value two symbols select from a ranking (44_mode1.md R157). -/
def mode1Value (ranking : Vector (BitVec 4) 4) (s : State) : BitVec 4 :=
  let idx := (historyXor s).extractLsb' 0 2
  ranking[idx.toNat]'(idx.isLt)

/-- One mode 1 pixel (44_mode1.md R151). -/
def mode1Pixel (_ : Unit) (s : State) : Res Unit :=
  let r := mode1Pixels s
  (moveToFront (firstFour s.pixelOrder) r.a s).bind fun order s0 =>
    let s1 := { s0 with pixelOrder := withFirstFour s0.pixelOrder order }
    (realOrder order r s1).bind fun ranking s2 =>
      (loop mode1Symbol 2 (refcon r.a r.b r.c) s2).bind fun _ s3 =>
        .done () { s3 with out := s3.out * 4#32 + (mode1Value ranking s3).setWidth 32 }

/-- `Mode1Unit()`: eight pixels, then the plane of pixel bit 1 and the plane of pixel bit 0 (44_mode1.md R151, R158). -/
def mode1Unit (s : State) : Res Unit :=
  (loop mode1Pixel 8 () s).bind fun _ s1 =>
    let d := morton2 (s1.out.extractLsb' 0 16)
    ringWriteAll [d.extractLsb' 8 8, d.extractLsb' 0 8] s1

end Sys2Proof.Machine
end

