-- ==== Sys2Proof/Machine/Mode2.lean ====
section
/-! DEFINITION. Mode 2, 4 bits per pixel (45_mode2.md). -/

namespace Sys2Proof.Machine

/-- One symbol of a mode 2 pixel (45_mode2.md R171, R177); the result is the next symbol's context (R176). -/
def mode2Symbol (rc : Nat) (con : Nat) (s : State) : Res Nat :=
  if h : con < 32 then
    (decodeSymbol con s).bind fun sym s1 =>
      .done (mode2NextContext s1.cfg ⟨con, h⟩ (sym.flag ^^ sym.invertUsed) rc) (recordSymbol sym s1)
  else raise .contextRange s

/-- The pixel value four symbols select from a ranking (45_mode2.md R178). -/
def mode2Value (ranking : Vector (BitVec 4) 16) (s : State) : BitVec 4 :=
  let idx := (historyXor s).extractLsb' 0 4
  ranking[idx.toNat]'(idx.isLt)

/-- One mode 2 pixel (45_mode2.md R171). `out1` takes the nibble that leaves `out0` (R178). -/
def mode2Pixel (_ : Unit) (s : State) : Res Unit :=
  let r := mode2Pixels s
  (moveToFront s.pixelOrder r.a s).bind fun order s0 =>
    let s1 := { s0 with pixelOrder := order }
    (realOrder order r s1).bind fun ranking s2 =>
      (loop (mode2Symbol (refcon r.a r.b r.c)) 4 0 s2).bind fun _ s3 =>
        .done () { s3 with
          out1 := s3.out1 * 16#32 + (s3.out0.extractLsb' 28 4).setWidth 32
          out0 := s3.out0 * 16#32 + (mode2Value ranking s3).setWidth 32 }

/-- Append two bytes to the side buffer (45_mode2.md R179). -/
def sideAppend (hi lo : Byte) (s : State) : Res Unit :=
  if s.sideIndex.toNat + 1 < 16 then
    .done () { s with
      sideBuffer := (s.sideBuffer.setIfInBounds s.sideIndex.toNat hi).setIfInBounds (s.sideIndex.toNat + 1) lo
      sideIndex := s.sideIndex + 2#5 }
  else raise .sideRange s

/-- A full side buffer is written to the ring in index order (45_mode2.md R179). -/
def sideFlush (s : State) : Res Unit :=
  if s.sideIndex = 16#5 then
    (ringWriteAll s.sideBuffer.toList s).bind fun _ s1 => .done () { s1 with sideIndex := 0#5 }
  else .done () s

/-- `Mode2Unit()`: eight pixels; the planes of pixel bits 3 and 2 at once, those of bits 1 and 0 through the side
buffer (45_mode2.md R171, R179). -/
def mode2Unit (s : State) : Res Unit :=
  (loop mode2Pixel 8 () s).bind fun _ s1 =>
    let d := morton4 s1.out0
    (ringWriteAll [d.extractLsb' 24 8, d.extractLsb' 16 8] s1).bind fun _ s2 =>
      (sideAppend (d.extractLsb' 8 8) (d.extractLsb' 0 8) s2).bind fun _ s3 => sideFlush s3

end Sys2Proof.Machine
end

