-- ==== Sys2Proof/Machine/Commands.lean ====
section
/-! DEFINITION. The host commands RESET, INIT and READ (47_commands.md). Each runs to completion as one step (R200). -/

namespace Sys2Proof.Machine

/-- One unit of the active decoder (47_commands.md R207). -/
def modeUnit (s : State) : Res Unit :=
  match s.mode with
  | .mode0 => mode0Unit s
  | .mode1 => mode1Unit s
  | .mode2 => mode2Unit s
  | .invalid => .done () s

/-- Units while the ring holds fewer than `refillThreshold` bytes, at most `fuel` more (47_commands.md R207). -/
def refillLoop : Nat → State → Res Unit
  | 0, s => .done () s
  | fuel + 1, s =>
    if s.length < s.cfg.refillThreshold then (modeUnit s).bind fun _ s' => refillLoop fuel s'
    else .done () s

/-- `RefillPass()` (47_commands.md R207). Every unit adds at least one byte, so `refillThreshold` units always suffice
and the fuel is never the reason it ends (log 15). -/
def refillPass (s : State) : Res Unit :=
  refillLoop s.cfg.refillThreshold s

/-- `READ()` and the byte it returns (47_commands.md R206, R208). -/
def readByte (s : State) : Res Byte :=
  match s.mode with
  | .invalid => .done s.cfg.sentinel s
  | _ => if s.length = 0 then (refillPass s).bind fun _ s' => ringRead s' else ringRead s

/-- The READ command: its byte goes to the host (47_commands.md R206). -/
def readCommand (s : State) : Res Unit :=
  (readByte s).bind fun b s' => .done () { s' with observed := s'.observed ++ [b] }

/-- The RESET command (47_commands.md R201). `srcAtInit` is the model's own record (log 10). -/
def resetCommand (s : State) : Res Unit :=
  .done () (ringClear { s with mode := .invalid, srcAtInit := none })

/-- The registers INIT writes for a valid mode before priming (47_commands.md R202). -/
def clearModeRegisters (s : State) : State :=
  { s with
    out := 0#32, out0 := 0#32, out1 := 0#32
    lpsHistory := 0#32, invertHistory := 0#32
    pixelOrder := identityOrder, sideIndex := 0#5 }

/-- The part of INIT every mode operand shares (47_commands.md R202, R203). `srcAtInit` is the model's own record
(log 10). -/
def initCommon (m off : Word) (s : State) : State :=
  { ringClear { s with mode := modeOfOperand m, cursor := off } with ctx := freshContexts, srcAtInit := some s.src }

/-- The stream INIT starts, before its skip reads: registers and priming for a valid mode, nothing for the Invalid
state (47_commands.md R202, R203). -/
def startStream (m off : Word) (s : State) : Res Unit :=
  match modeOfOperand m with
  | .invalid => .done () (initCommon m off s)
  | _ => prime (clearModeRegisters (initCommon m off s))

/-- One skip read: a READ whose byte is discarded (47_commands.md R205). -/
def skipRead (_ : Unit) (s : State) : Res Unit :=
  (readByte s).bind fun _ s' => .done () s'

/-- The INIT command (47_commands.md R202 to R205). -/
def initCommand (m off k : Word) (s : State) : Res Unit :=
  (startStream m off s).bind fun _ s' => loop skipRead k.toNat () s'

/-- RESET (47_commands.md R201). -/
def execReset (s : State) : Host.Outcome State Fault Refusal :=
  (resetCommand s).outcome

/-- INIT (47_commands.md R202). -/
def execInit (m off k : Word) (s : State) : Host.Outcome State Fault Refusal :=
  (initCommand m off k s).outcome

/-- READ (47_commands.md R206). -/
def execRead (s : State) : Host.Outcome State Fault Refusal :=
  (readCommand s).outcome

end Sys2Proof.Machine
end

