-- ==== Sys2Proof/Syntax.lean ====
section
/-! DEFINITION. The host commands (30_encoding.md R80, spec/opcode_table.json): the core executes no other instruction. -/

namespace Sys2Proof

/-- One constructor per row of spec/opcode_table.json. -/
inductive Instr where
  /-- `RESET` (47_commands.md R201). -/
  | reset
  /-- `INIT mode, sourceOffset, outputSkipCount` (47_commands.md R202), each operand a whole 32-bit word (30_encoding.md R81). -/
  | init (mode sourceOffset outputSkipCount : Word)
  /-- `READ` (47_commands.md R206). -/
  | read
  deriving DecidableEq, Repr

end Sys2Proof
end

