-- ==== Sys2Proof/Machine/Dispatch.lean ====
section
/-! DEFINITION. Which meaning each command has. -/

namespace Sys2Proof.Machine

/-- The meaning of a command: its effect from start to end as one step (47_commands.md R200). -/
def exec (i : Instr) (s : State) : Host.Outcome State Fault Refusal :=
  match i with
  | .reset => Sys2Proof.Machine.execReset s
  | .init m off k => Sys2Proof.Machine.execInit m off k s
  | .read => Sys2Proof.Machine.execRead s

end Sys2Proof.Machine
end

