-- ==== Sys2Proof/WellFormed.lean ====
section
/-! DEFINITION. Well-formedness of a command and of the port words that spell one. -/

namespace Sys2Proof

/-- Every command is well-formed: each INIT operand may take every 32-bit value (20_memory.md R64 for the offset,
30_encoding.md R83 for the mode, 47_commands.md R205 for the skip count), and the other two commands have no operand. -/
def Instr.wellFormed : Instr → Bool
  | .reset => true
  | .init _ _ _ => true
  | .read => true

/-- Whether a word list begins with a whole legal command (30_encoding.md R80, R81, R89): bits [31:8] of word 0 are 0,
its code is 0x00, 0x01 or 0x02, and three operand words follow an INIT. -/
def portWordsWellFormed : List Word → Bool
  | [] => false
  | w :: operands =>
    w == 0x00000000#32 || w == 0x00000002#32 || (w == 0x00000001#32 && decide (3 ≤ operands.length))

end Sys2Proof
end

