-- ==== Sys2Proof/Decode.lean ====
section
/-! DEFINITION. The command port's decoder and encoder (30_encoding.md R80, R81, R89). Total on every word list; what
is no command is rejected by name. -/

namespace Sys2Proof

/-- Why a word list does not begin with a command. -/
inductive DecodeError where
  /-- No word is waiting. -/
  | noCommand
  /-- Bits [31:8] of word 0 are not 0 (30_encoding.md R89). -/
  | reservedField
  /-- The command code is 0x03 to 0xff (30_encoding.md R89). -/
  | reservedCode
  /-- Fewer than three operand words follow an INIT (30_encoding.md R89). -/
  | truncatedInit
  deriving DecidableEq, Repr

/-- Field `rsv` of word 0 (30_encoding.md R80). -/
def wordRsv (w : Word) : BitVec 24 := w.extractLsb' 8 24

/-- Field `op` of word 0 (30_encoding.md R80). -/
def wordOp (w : Word) : BitVec 8 := w.extractLsb' 0 8

/-- How many words the command with this word 0 has, told from `op` alone (30_encoding.md R81). -/
def commandLength (w : Word) : Nat :=
  if wordOp w = 0x01#8 then 4 else 1

/-- The command at the front of a word list and the words after it (30_encoding.md R80, R89). -/
def decode : List Word → Except DecodeError (Instr × List Word)
  | [] => .error .noCommand
  | w :: rest =>
    if wordRsv w ≠ 0#24 then .error .reservedField
    else if wordOp w = 0x00#8 then .ok (.reset, rest)
    else if wordOp w = 0x01#8 then
      match rest with
      | mode :: sourceOffset :: outputSkipCount :: rest' => .ok (.init mode sourceOffset outputSkipCount, rest')
      | _ => .error .truncatedInit
    else if wordOp w = 0x02#8 then .ok (.read, rest)
    else .error .reservedCode

/-- The words of a command (30_encoding.md R80). -/
def encode : Instr → List Word
  | .reset => [0x00000000#32]
  | .init mode sourceOffset outputSkipCount => [0x00000001#32, mode, sourceOffset, outputSkipCount]
  | .read => [0x00000002#32]

/-- The words of the one command whose bits are `w`, numbered as spec/opcode_table.json numbers them: word 0 is bits
31..0, word 1 bits 63..32, and so on; bits from `nbits` up are 0, and only the words that word 0 asks for are laid out. -/
def tableWords (nbits w : Nat) : List Word :=
  let bits : BitVec 128 := BitVec.ofNat 128 (w % 2 ^ nbits)
  let word0 : Word := bits.extractLsb' 0 32
  List.take (commandLength word0) [word0, bits.extractLsb' 32 32, bits.extractLsb' 64 32, bits.extractLsb' 96 32]

/-- The instruction the decoder reads from a table word (the host's question about one row of the opcode table). -/
def decodeTableWord (nbits w : Nat) : Option Instr :=
  match decode (tableWords nbits w) with
  | .ok (i, _) => some i
  | .error _ => none

end Sys2Proof
end

