-- ==== Sys2Proof/Machine/Port.lean ====
section
/-! DEFINITION. The command port: what the core does with the words the host has issued, before a command runs
(30_encoding.md R80, R89, 60_exceptions.md R222, R224, R225). -/

namespace Sys2Proof.Machine

/-- What the port answers at the start of a step. -/
inductive Admission where
  /-- No command is waiting. -/
  | idle
  /-- A fault is recorded, and the run has no later step (60_exceptions.md R222). -/
  | faulted (r : Fault)
  /-- The run or the command is refused (60_exceptions.md R224). -/
  | refused (r : Refusal)
  /-- The command to run and the words left on the port. -/
  | run (i : Instr) (rest : List Word)
  deriving DecidableEq, Repr

/-- The refusal of words that are no command (30_encoding.md R89); none where no word is waiting. -/
def decodeRefusal : DecodeError → Option Refusal
  | .noCommand => none
  | .reservedField => some .reservedField
  | .reservedCode => some .reservedCode
  | .truncatedInit => some .truncatedInit

/-- The command at the front of the port, or why there is none (30_encoding.md R89). -/
def admissionOfWords (words : List Word) : Admission :=
  match decode words with
  | .ok (i, rest) => .run i rest
  | .error e =>
    match decodeRefusal e with
    | some r => .refused r
    | none => .idle

/-- The source is still what it was at the last INIT, or no INIT has run since the last RESET (20_memory.md R66). -/
def sourceUnchanged (s : State) : Bool :=
  match s.srcAtInit with
  | none => true
  | some m => decide (s.src = m)

/-- What a step does with the port. Parameters are checked first, then the fault record, then whether a command is
waiting at all, then the source, then the command's encoding (60_exceptions.md R225; log 18). -/
def admission (s : State) : Admission :=
  match parameterRefusal s.cfg with
  | some r => .refused r
  | none =>
    match s.fault with
    | some r => .faulted r
    | none =>
      if s.port.isEmpty then .idle
      else if !sourceUnchanged s then .refused .sourceChanged
      else admissionOfWords s.port

/-- The state with the port's words replaced. -/
def withPort (s : State) (words : List Word) : State :=
  { s with port := words }

/-- The state with one command's words, given as the opcode table numbers their bits, put at the front of the port. -/
def placeTableWord (s : State) (nbits w : Nat) : State :=
  withPort s (tableWords nbits w ++ s.port)

end Sys2Proof.Machine
end

