-- ==== Sys2Proof/Machine/Step.lean ====
section
/-! DEFINITION. One step of the machine: the next command of the port, run whole (47_commands.md R200). -/

namespace Sys2Proof.Machine

/-- Take the command at the front of the port and run it to completion. With no command waiting nothing happens. -/
def step (s : State) : Host.Outcome State Fault Refusal :=
  match admission s with
  | .idle => .next s
  | .faulted r => .fault r
  | .refused r => .refused r
  | .run i rest => exec i (withPort s rest)

/-- The state whose next step runs exactly the table word's command: its words at the front of the port (log 2). -/
def State.withFetchWord (s : State) (nbits w : Nat) : State :=
  placeTableWord s nbits w

end Sys2Proof.Machine
end

