-- ==== Sys2Proof/Safety.lean ====
section
/-! DEFINITION. What claims about the core are stated in: legal parameters, the invariants of the decoder, the contexts,
the pixel order and the ring, the bytes a ring holds, and runs of READs. -/

namespace Sys2Proof.Machine

/-- Every parameter is in its range (60_exceptions.md R224). -/
abbrev ParamsLegal (cfg : Config) : Prop := parameterRefusal cfg = none

/-- The source region is not empty, so no fetch is stuck (20_memory.md R67, 60_exceptions.md R223). -/
abbrev SourceUsable (cfg : Config) : Prop := usableSize cfg ≠ 0

/-- The arithmetic decoder's invariant between symbols (41_arith_decoder.md R119, 10_state.md R22, R23, R25). -/
structure ArithOk (s : State) : Prop where
  span_ge : 0x7f ≤ s.span.toNat
  val_le : s.val.toNat ≤ s.span.toNat
  bits_pos : 1 ≤ s.inputBitsRemaining.toNat
  bits_le : s.inputBitsRemaining.toNat ≤ 8

/-- Every context's state index is an entry of the evolution table (10_state.md R26). -/
def ContextsOk (s : State) : Prop :=
  ∀ (j : Nat) (h : j < 32), s.ctx[j].stateIndex.toNat ≤ 52

/-- The pixel order of the active mode is a permutation (10_state.md R30). -/
structure OrderOk (s : State) : Prop where
  mode1 : s.mode = .mode1 → (firstFour s.pixelOrder).toList.Perm [0#4, 1#4, 2#4, 3#4]
  mode2 : s.mode = .mode2 → s.pixelOrder.toList.Perm identityOrder.toList

/-- The side buffer's index in mode 2 between units: even and below 16 (10_state.md R32). -/
structure SideOk (s : State) : Prop where
  even : s.mode = .mode2 → s.sideIndex.toNat % 2 = 0
  lt : s.mode = .mode2 → s.sideIndex.toNat < 16

/-- The ring's invariant (42_ring_buffer.md R134). -/
structure RingOk (s : State) : Prop where
  length_le : s.length ≤ s.cfg.ringCapacity
  read_lt : s.readOffset < s.cfg.ringCapacity
  write_lt : s.writeOffset < s.cfg.ringCapacity
  write_eq : s.writeOffset = (s.readOffset + s.length) % s.cfg.ringCapacity

/-- The canonical form of every byte storage the state holds. -/
structure MemoryOk (s : State) : Prop where
  src : s.src.wf = true
  ring : s.ringData.wf = true
  kept : ∀ m, s.srcAtInit = some m → m.wf = true

/-- The invariant of the whole core between commands. -/
structure State.Inv (s : State) : Prop where
  params : ParamsLegal s.cfg
  memory : MemoryOk s
  ring : RingOk s
  /-- The ring holds no more than a refill pass can leave (42_ring_buffer.md R135). -/
  bound : s.length ≤ s.cfg.refillThreshold + 17
  /-- The ring is empty in the Invalid state (47_commands.md R208). -/
  idle : s.mode = .invalid → s.length = 0
  contexts : ContextsOk s
  arith : s.mode ≠ .invalid → ArithOk s
  order : OrderOk s
  side : SideOk s

/-- The bytes the ring holds, oldest first (42_ring_buffer.md R134). -/
def ringContents (s : State) : List Byte :=
  (List.range s.length).map fun i => s.ringData.read ((s.readOffset + i) % s.cfg.ringCapacity)

/-- `n` READ commands, stopping at the first that does not complete. -/
def readMany : Nat → State → Host.Outcome State Fault Refusal
  | 0, s => .next s
  | n + 1, s =>
    match exec .read s with
    | .next t => readMany n t
    | .fault r => .fault r
    | .refused r => .refused r

/-- A state without the record of what the host has read. -/
def forgetObserved (s : State) : State :=
  { s with observed := [] }

/-- An outcome without the record of what the host has read. -/
def forgetOutcome : Host.Outcome State Fault Refusal → Host.Outcome State Fault Refusal
  | .next s => .next (forgetObserved s)
  | .fault r => .fault r
  | .refused r => .refused r

end Sys2Proof.Machine
end

