-- ==== Sys2Proof/Certificates/Slice0/Obligations.lean ====
section
/-! DEFINITION. The statements for the provers. `Res.done`, `raise`, `readMany`, `ringContents` and the invariants are the
model's own words (Machine/Ops.lean, Safety.lean). -/

open Sys2Proof Sys2Proof.Machine

/-! ### The command port -/

/-- Decoding answers a command and a rest exactly on that command's words followed by that rest (30_encoding.md R80,
R81, R89): no bit of an encoding is dropped and no other word list is accepted. -/
def Obligations.DecodeInvertsEncode : Prop :=
  ∀ (ws : List Word) (i : Instr) (rest : List Word), decode ws = .ok (i, rest) ↔ ws = encode i ++ rest

/-- Words written out from the table of 30_encoding.md R80 decode to the commands they stand for. -/
def Obligations.WrittenOutWordsDecode : Prop :=
  decode [0x00000000#32] = .ok (.reset, []) ∧
  decode [0x00000001#32, 0x00000002#32, 0x00001234#32, 0x00000005#32] = .ok (.init 2#32 0x1234#32 5#32, []) ∧
  decode [0x00000002#32, 0x00000000#32] = .ok (.read, [0x00000000#32])

/-- 30_encoding.md R89: a nonzero reserved field, a code 0x03 to 0xff and a stream that ends inside an INIT are refused;
an INIT with its three operand words is run, whatever its mode operand is. -/
def Obligations.ReservedWordsAreRefused : Prop :=
  ∀ (s : State) (w : Word) (rest : List Word),
    ParamsLegal s.cfg → s.fault = none → sourceUnchanged s = true → s.port = w :: rest →
      (256 ≤ w.toNat → step s = .refused .reservedField) ∧
      (3 ≤ w.toNat → w.toNat < 256 → step s = .refused .reservedCode) ∧
      (w.toNat = 1 → rest.length < 3 → step s = .refused .truncatedInit) ∧
      (∀ mode off k rest', w.toNat = 1 → rest = mode :: off :: k :: rest' →
        step s = exec (.init mode off k) { s with port := rest' })

/-- A step runs the command at the front of the port, with its words taken off (47_commands.md R200). -/
def Obligations.StepRunsTheDecodedCommand : Prop :=
  ∀ (s : State) (i : Instr) (rest : List Word),
    ParamsLegal s.cfg → s.fault = none → sourceUnchanged s = true → i.wellFormed = true →
      decode s.port = .ok (i, rest) → step s = exec i { s with port := rest }

/-- A legal, unfaulted core with no command waiting does nothing: the model's choice (log 1). -/
def Obligations.StepWithoutCommandIsIdle : Prop :=
  ∀ s : State, ParamsLegal s.cfg → s.fault = none → s.port = [] → step s = .next s

/-- 60_exceptions.md R224, 41_arith_decoder.md R110, 42_ring_buffer.md R135, 20_memory.md R67, 45_mode2.md R175: exactly
which parameters are legal, and that a core with any others takes no step. -/
def Obligations.IllegalParametersAreRefused : Prop :=
  (∀ cfg : Config, ParamsLegal cfg ↔
    (1 ≤ cfg.refillThreshold ∧ cfg.refillThreshold + 17 ≤ cfg.ringCapacity ∧ 0x100000 ≤ cfg.imageSize ∧
      (∀ (i : Nat) (h : i < 53), cfg.evolutionTable[i].nextOnLPS ≤ 52 ∧ cfg.evolutionTable[i].nextOnMPS ≤ 52 ∧
        1 ≤ cfg.evolutionTable[i].probability.toNat ∧ cfg.evolutionTable[i].probability.toNat ≤ 0x7e) ∧
      (∀ (i : Nat) (h : i < 32), cfg.mode2ContextTable[i].1 ≤ 31 ∧ cfg.mode2ContextTable[i].2 ≤ 31) ∧
      cfg.mode2ContextTable[1].1 + 4 ≤ 31 ∧ cfg.mode2ContextTable[1].2 + 4 ≤ 31)) ∧
  (∀ s : State, ¬ParamsLegal s.cfg → ∃ r, step s = .refused r)

/-- 60_exceptions.md R222: a recorded fault is final. -/
def Obligations.RecordedFaultIsFinal : Prop :=
  ∀ (s : State) (r : Fault), ParamsLegal s.cfg → s.fault = some r → step s = .fault r

/-- 20_memory.md R66, 70_reset_and_hazards.md R246 (log 10): after an INIT and any READs, a source that is no longer the
one of the INIT makes the next command refused, whichever words it has. -/
def Obligations.ChangedSourceIsRefused : Prop :=
  ∀ (s t u : State) (m off k : Word) (n : Nat) (src' : Memory) (words : List Word),
    ParamsLegal s.cfg → s.fault = none → exec (.init m off k) s = .next t → readMany n t = .next u → src' ≠ s.src →
      words ≠ [] → step { u with src := src', port := words } = .refused .sourceChanged

/-! ### Construction and RESET -/

/-- What the spec gives the state after construction (70_reset_and_hazards.md R240, 10_state.md R39). -/
def Obligations.ConstructionLeavesInvalid : Prop :=
  State.reset.mode = .invalid ∧ State.reset.readOffset = 0 ∧ State.reset.writeOffset = 0 ∧ State.reset.length = 0 ∧
    State.reset.fault = none

/-- The state after construction meets the core's invariant; that its parameters are legal and its storages canonical
rests on the model's choices of logs 3, 4 and 5. -/
def Obligations.ConstructionMeetsInvariant : Prop :=
  State.reset.Inv

/-- 47_commands.md R201, 42_ring_buffer.md R132: RESET always completes; it writes the mode, the ring's offsets and
length, and the model's own record `srcAtInit`, and nothing else. -/
def Obligations.ResetEmptiesTheRing : Prop :=
  ∀ s : State, exec .reset s = .next { s with
    mode := .invalid, readOffset := 0, writeOffset := 0, length := 0, srcAtInit := none }

/-! ### INIT -/

/-- 47_commands.md R203: an INIT whose mode operand is not 0, 1 or 2 completes with any skip count; it fetches nothing
and writes no mode register, and every later READ returns the sentinel. `srcAtInit` is the model's own record (log 10). -/
def Obligations.InitOfInvalidMode : Prop :=
  ∀ (s : State) (m off k : Word), 3 ≤ m.toNat →
    let t : State := { s with
      mode := .invalid, cursor := off, readOffset := 0, writeOffset := 0, length := 0
      ctx := Vector.replicate 32 ⟨0#6, false⟩, srcAtInit := some s.src }
    exec (.init m off k) s = .next t ∧
      ∀ n, readMany n t = .next { t with observed := s.observed ++ List.replicate n s.cfg.sentinel }

/-- 47_commands.md R202, 41_arith_decoder.md R118: an INIT of a valid mode with no skip completes in every state with a
source region, and this is the state it leaves. `srcAtInit` is the model's own record (log 10). -/
def Obligations.InitOfValidMode : Prop :=
  ∀ (s : State) (m off : Word), m.toNat < 3 → SourceUsable s.cfg →
    let c1 : Word := BitVec.ofNat 32 (off.toNat % usableSize s.cfg + 1)
    exec (.init m off 0#32) s = .next { s with
      mode := if m = 0#32 then .mode0 else if m = 1#32 then .mode1 else .mode2
      cursor := BitVec.ofNat 32 (c1.toNat % usableSize s.cfg + 1)
      span := 0xff#8
      val := s.src.read (s.cfg.baseOffset + off.toNat % usableSize s.cfg)
      inputByte := s.src.read (s.cfg.baseOffset + c1.toNat % usableSize s.cfg)
      inputBitsRemaining := 8#4
      ctx := Vector.replicate 32 ⟨0#6, false⟩
      lpsHistory := 0#32, invertHistory := 0#32, out := 0#32, out0 := 0#32, out1 := 0#32
      pixelOrder := #v[0#4, 1#4, 2#4, 3#4, 4#4, 5#4, 6#4, 7#4, 8#4, 9#4, 10#4, 11#4, 12#4, 13#4, 14#4, 15#4]
      sideIndex := 0#5, readOffset := 0, writeOffset := 0, length := 0, srcAtInit := some s.src }

/-- 47_commands.md R205: an INIT with skip count k leaves the state that an INIT without skip and k READs leave, but for
the record of the bytes the host has read, and stops where they stop. -/
def Obligations.InitSkipsAreReads : Prop :=
  ∀ (s : State) (m off k : Word),
    forgetOutcome (exec (.init m off k) s) =
      forgetOutcome (match exec (.init m off 0#32) s with
        | .next t => readMany k.toNat t
        | .fault r => .fault r
        | .refused r => .refused r)

/-- An INIT completes with any operands, and leaves a state that meets the invariant, when the parameters are legal, the
storages canonical and the source region not empty (47_commands.md R202, R205). `srcAtInit` and `observed` are the
model's own (logs 6 and 10). -/
def Obligations.InitCompletes : Prop :=
  ∀ (s : State) (m off k : Word), ParamsLegal s.cfg → MemoryOk s → SourceUsable s.cfg →
    ∃ t, exec (.init m off k) s = .next t ∧ t.Inv ∧ t.srcAtInit = some s.src ∧ t.observed = s.observed

/-- 60_exceptions.md R223: with an empty source region an INIT of a valid mode is stuck, whatever its skip count. -/
def Obligations.InitWithoutSourceIsStuck : Prop :=
  ∀ (s : State) (m off k : Word), m.toNat < 3 → usableSize s.cfg = 0 →
    exec (.init m off k) s = .fault .sourceEmpty

/-- 60_exceptions.md R223: an empty source region is the one case in which a command is stuck. -/
def Obligations.StuckOnlyWithoutSource : Prop :=
  ∀ (i : Instr) (s : State), exec i s = .fault .sourceEmpty → usableSize s.cfg = 0

/-! ### READ -/

/-- 47_commands.md R208: in the Invalid state a READ returns the sentinel and changes no state of the core; the sentinel
after construction is 0x00; and no command leaves a core that meets the invariant Invalid with a byte in the ring. -/
def Obligations.ReadInInvalidReturnsSentinel : Prop :=
  (∀ s : State, s.mode = .invalid →
    exec .read s = .next { s with observed := s.observed ++ [s.cfg.sentinel] }) ∧
  State.reset.cfg.sentinel = 0x00#8 ∧
  (∀ (i : Instr) (s t : State), s.Inv → exec i s = .next t → t.mode = .invalid → t.length = 0)

/-- 47_commands.md R206, 42_ring_buffer.md R131: a READ of a valid mode that finds a byte in the ring returns the oldest
one, and decodes and fetches nothing. -/
def Obligations.ReadOfNonEmptyRing : Prop :=
  ∀ s : State, s.mode ≠ .invalid → s.length ≠ 0 →
    exec .read s = .next { s with
      readOffset := (s.readOffset + 1) % s.cfg.ringCapacity
      length := s.length - 1
      observed := s.observed ++ [s.ringData.read s.readOffset] }

/-- 47_commands.md R206, R207, 42_ring_buffer.md R135: a READ of a valid mode that finds the ring empty completes. Its
refill pass runs units of the active mode, one after another, each while the ring holds fewer than T bytes, to the state
`u`; the pass stores between T and T + 17 bytes from the write offset on (T in mode 0, T or T + 1 in mode 1), and the READ
takes the first of them. Every byte of the ring's storage that the pass does not store to reads as before. -/
def Obligations.ReadOfEmptyRingRefills : Prop :=
  ∀ s : State, s.Inv → SourceUsable s.cfg → s.mode ≠ .invalid → s.length = 0 →
    let unit : Unit → State → Res Unit := fun _ =>
      if s.mode = .mode0 then mode0Unit else if s.mode = .mode1 then mode1Unit else mode2Unit
    ∃ (n : Nat) (u t : State),
      loop unit n () s = .done () u ∧
      (∀ m, m < n → ∃ v, loop unit m () s = .done () v ∧ v.length < s.cfg.refillThreshold) ∧
      exec .read s = .next t ∧
      t = { u with
        readOffset := (s.readOffset + 1) % s.cfg.ringCapacity
        length := u.length - 1
        observed := s.observed ++ [u.ringData.read s.readOffset] } ∧
      s.cfg.refillThreshold ≤ u.length ∧ u.length ≤ s.cfg.refillThreshold + 17 ∧
      u.writeOffset = (s.writeOffset + u.length) % s.cfg.ringCapacity ∧ u.mode = s.mode ∧
      (s.mode = .mode0 → u.length = s.cfg.refillThreshold) ∧
      (s.mode = .mode1 → u.length ≤ s.cfg.refillThreshold + 1) ∧
      ∀ a, (∀ j, j < u.length → a ≠ (s.writeOffset + j) % s.cfg.ringCapacity) →
        u.ringData.read a = s.ringData.read a

/-- 42_ring_buffer.md R135: with the default threshold a pass of an empty ring leaves exactly 32 bytes in every mode,
of which the READ takes one; in mode 2 the pass starts and ends with an empty side buffer. -/
def Obligations.DefaultPassLeavesThirtyTwoBytes : Prop :=
  ∀ s : State, s.Inv → SourceUsable s.cfg → s.mode ≠ .invalid → s.length = 0 → s.cfg.refillThreshold = 32 →
    (s.mode = .mode2 → s.sideIndex = 0#5) →
      ∃ t, exec .read s = .next t ∧ t.length = 31 ∧ (s.mode = .mode2 → t.sideIndex = 0#5)

/-- What a READ leaves alone, by mode (43_mode0.md R141, 44_mode1.md R151, 45_mode2.md R171): every register the mode's
unit does not write, the whole source, the parameters and, in mode 1, entries 4 to 15 of the pixel order. -/
def Obligations.ReadFrameByMode : Prop :=
  ∀ s t : State, exec .read s = .next t →
    (s.mode = .mode0 → t = { s with
      cursor := t.cursor, span := t.span, val := t.val, inputByte := t.inputByte
      inputBitsRemaining := t.inputBitsRemaining, ctx := t.ctx
      lpsHistory := t.lpsHistory, invertHistory := t.invertHistory, out := t.out
      ringData := t.ringData, readOffset := t.readOffset, writeOffset := t.writeOffset, length := t.length
      observed := t.observed }) ∧
    (s.mode = .mode1 → t = { s with
      cursor := t.cursor, span := t.span, val := t.val, inputByte := t.inputByte
      inputBitsRemaining := t.inputBitsRemaining, ctx := t.ctx
      lpsHistory := t.lpsHistory, invertHistory := t.invertHistory, out := t.out, pixelOrder := t.pixelOrder
      ringData := t.ringData, readOffset := t.readOffset, writeOffset := t.writeOffset, length := t.length
      observed := t.observed } ∧ ∀ (j : Nat) (_ : 4 ≤ j) (hj : j < 16), t.pixelOrder[j] = s.pixelOrder[j]) ∧
    (s.mode = .mode2 → t = { s with
      cursor := t.cursor, span := t.span, val := t.val, inputByte := t.inputByte
      inputBitsRemaining := t.inputBitsRemaining, ctx := t.ctx
      lpsHistory := t.lpsHistory, invertHistory := t.invertHistory, out0 := t.out0, out1 := t.out1
      pixelOrder := t.pixelOrder, sideBuffer := t.sideBuffer, sideIndex := t.sideIndex
      ringData := t.ringData, readOffset := t.readOffset, writeOffset := t.writeOffset, length := t.length
      observed := t.observed })

/-- 47_commands.md R212 (c): from the Invalid state any number of READs completes, and each returns the sentinel. -/
def Obligations.InvalidReadsAreAllSentinels : Prop :=
  ∀ (n : Nat) (s : State), s.mode = .invalid →
    readMany n s = .next { s with observed := s.observed ++ List.replicate n s.cfg.sentinel }

/-! ### All commands -/

/-- No command writes the parameters, the tables, the source, the fault record or the port's waiting words; only a READ
returns a byte, and it returns exactly one (10_state.md R34, R35, 20_memory.md R60, 30_encoding.md R80). -/
def Obligations.CommandsKeepSourceAndParameters : Prop :=
  ∀ (i : Instr) (s t : State), exec i s = .next t →
    t.cfg = s.cfg ∧ (∀ a, t.src.read a = s.src.read a) ∧ t.src = s.src ∧ t.fault = s.fault ∧ t.port = s.port ∧
      (i ≠ .read → t.observed = s.observed) ∧ (i = .read → ∃ b, t.observed = s.observed ++ [b])

/-- 47_commands.md R209, 30_encoding.md R83: the mode after each command. -/
def Obligations.ModeTransitions : Prop :=
  ∀ s t : State,
    (exec .reset s = .next t → t.mode = .invalid) ∧
    (∀ off k, exec (.init 0#32 off k) s = .next t → t.mode = .mode0) ∧
    (∀ off k, exec (.init 1#32 off k) s = .next t → t.mode = .mode1) ∧
    (∀ off k, exec (.init 2#32 off k) s = .next t → t.mode = .mode2) ∧
    (∀ m off k, 3 ≤ m.toNat → exec (.init m off k) s = .next t → t.mode = .invalid) ∧
    (exec .read s = .next t → t.mode = s.mode)

/-- Every step keeps the core's invariant: legal parameters, canonical storages, the ring's offsets, length and bound
(42_ring_buffer.md R134, R135), state indices (10_state.md R26), the decoder's intervals (41_arith_decoder.md R119), the
pixel order a permutation (10_state.md R30) and the side index (R32). -/
def Obligations.StepKeepsInvariant : Prop :=
  ∀ s t : State, s.Inv → step s = .next t → t.Inv

/-- 60_exceptions.md R222: from a state that meets the invariant no command meets a ring overflow or underflow, a context
out of range, a missing pixel value or a guard of the model; the one stop left is the stuck fetch of R223. -/
def Obligations.LegalCoreNeverFaults : Prop :=
  ∀ (i : Instr) (s : State) (r : Fault), s.Inv → exec i s = .fault r → r = .sourceEmpty

/-- 47_commands.md R204: two INITs with the same operands, parameters and source give the same following output, whatever
the states before them. -/
def Obligations.InitForgetsThePast : Prop :=
  ∀ (s1 s2 t1 u1 : State) (m off k : Word) (n : Nat),
    s1.cfg = s2.cfg → s1.src = s2.src → ParamsLegal s1.cfg → MemoryOk s1 → MemoryOk s2 →
    exec (.init m off k) s1 = .next t1 → readMany n t1 = .next u1 →
      ∃ t2 u2 bytes, exec (.init m off k) s2 = .next t2 ∧ readMany n t2 = .next u2 ∧ u1.observed = s1.observed ++ bytes ∧
        u2.observed = s2.observed ++ bytes

/-- 42_ring_buffer.md R136: for the same source, tables, mode and offset the bytes READs return after an INIT are the
same for every legal ring capacity and refill threshold. -/
def Obligations.OutputIndependentOfRing : Prop :=
  ∀ (s1 s2 t1 u1 : State) (m off : Word) (n capacity threshold : Nat),
    s2.cfg = { s1.cfg with ringCapacity := capacity, refillThreshold := threshold } → s1.src = s2.src →
    ParamsLegal s1.cfg → ParamsLegal s2.cfg → MemoryOk s1 → MemoryOk s2 →
    exec (.init m off 0#32) s1 = .next t1 → readMany n t1 = .next u1 →
      ∃ t2 u2 bytes, exec (.init m off 0#32) s2 = .next t2 ∧ readMany n t2 = .next u2 ∧ u1.observed = s1.observed ++ bytes ∧
        u2.observed = s2.observed ++ bytes

/-- On a source of zeros every mode returns zeros, for any number of READs (the examples of 43_mode0.md R141,
44_mode1.md R151 and 45_mode2.md R171). -/
def Obligations.ZeroSourceGivesZeroOutput : Prop :=
  ∀ (s t : State) (m off : Word) (n : Nat),
    ParamsLegal s.cfg → MemoryOk s → SourceUsable s.cfg → (∀ a, s.src.read a = 0x00#8) → m.toNat < 3 →
    exec (.init m off 0#32) s = .next t →
      ∃ u, readMany n t = .next u ∧ u.observed = s.observed ++ List.replicate n 0x00#8

/-! ### Source fetch and arithmetic decoder -/

/-- 20_memory.md R67: the usable size of a legal image, and when it is 0. -/
def Obligations.UsableSizeOfLegalImage : Prop :=
  ∀ cfg : Config, 0x100000 ≤ cfg.imageSize →
    (0x500000 < cfg.imageSize → usableSize cfg + 0x200000 = cfg.imageSize ∧ 0x300000 < usableSize cfg) ∧
    (cfg.imageSize ≤ 0x500000 → usableSize cfg + 0x100000 = cfg.imageSize) ∧
    (usableSize cfg = 0 ↔ cfg.imageSize = 0x100000)

/-- 40_source_fetch.md R101: a fetch reads the byte at the cursor reduced by U, stores the reduced cursor plus one, and
is stuck when U is 0. -/
def Obligations.FetchReadsAtTheReducedCursor : Prop :=
  ∀ s : State,
    (usableSize s.cfg = 0 → fetch s = .stop .sourceEmpty s) ∧
    (usableSize s.cfg ≠ 0 →
      fetch s = .done (s.src.read (s.cfg.baseOffset + s.cursor.toNat % usableSize s.cfg))
        { s with cursor := BitVec.ofNat 32 ((s.cursor.toNat % usableSize s.cfg + 1) % 2 ^ 32) })

/-- 41_arith_decoder.md R113: the interval split on integers. An MPS narrows `span` by `prob`; an LPS takes the rest of
the interval, `prob - 1` wide; no register wraps, `val ≤ span` holds after, and nothing else is written. -/
def Obligations.IntervalSplitOnIntegers : Prop :=
  ∀ (prob : BitVec 8) (s : State), 1 ≤ prob.toNat → prob.toNat ≤ 0x7e → 0x7f ≤ s.span.toNat →
    s.val.toNat ≤ s.span.toNat →
    ∃ (flag : Bool) (t : State), intervalSplit prob s = (flag, t) ∧ t = { s with span := t.span, val := t.val } ∧
      (flag = true ↔ (s.span.toNat : Int) - prob.toNat < s.val.toNat) ∧
      (flag = false → (t.span.toNat : Int) = s.span.toNat - prob.toNat ∧ t.val = s.val) ∧
      (flag = true → (t.span.toNat : Int) = prob.toNat - 1 ∧
        (t.val.toNat : Int) = s.val.toNat - (s.span.toNat - (prob.toNat - 1))) ∧
      t.val.toNat ≤ t.span.toNat

/-- 41_arith_decoder.md R114: with a source region renormalization always ends with `span ≥ 0x7f`, after at most seven
iterations, each doubling the interval; it is those iterations and nothing else, and does nothing when `span` is already
there. -/
def Obligations.RenormalizationEnds : Prop :=
  ∀ s : State, SourceUsable s.cfg →
    ∃ n t, renormalize s = .done n t ∧ loop (fun _ : Unit => renormStep) n () s = .done () t ∧ n ≤ 7 ∧ 0x7f ≤ t.span.toNat ∧
      t.span.toNat + 1 = (s.span.toNat + 1) * 2 ^ n ∧ (0x7f ≤ s.span.toNat → n = 0 ∧ t = s)

/-- 41_arith_decoder.md R114, 20_memory.md R61: one renormalization iteration. The top bit of `inputByte` enters `val`; the
last bit left brings the next source byte in the same iteration. -/
def Obligations.RenormalizationIteration : Prop :=
  ∀ s t : State, 1 ≤ s.inputBitsRemaining.toNat → renormStep s = .done () t →
    t.span.toNat = (2 * s.span.toNat + 1) % 256 ∧
    t.val.toNat = (2 * s.val.toNat + s.inputByte.toNat / 128) % 256 ∧
    (s.inputBitsRemaining.toNat = 1 →
      t.inputByte = s.src.read (s.cfg.baseOffset + s.cursor.toNat % usableSize s.cfg) ∧ t.inputBitsRemaining = 8#4 ∧
      t.cursor = BitVec.ofNat 32 (s.cursor.toNat % usableSize s.cfg + 1)) ∧
    (s.inputBitsRemaining.toNat ≠ 1 →
      t.inputByte.toNat = 2 * s.inputByte.toNat % 256 ∧
      t.inputBitsRemaining.toNat = s.inputBitsRemaining.toNat - 1 ∧ t.cursor = s.cursor) ∧
    t = { s with
      cursor := t.cursor, span := t.span, val := t.val, inputByte := t.inputByte
      inputBitsRemaining := t.inputBitsRemaining }

/-- 40_source_fetch.md R103, 41_arith_decoder.md R114: one symbol fetches at most one byte, exactly when its shifts use up
the bits that are left. -/
def Obligations.SymbolFetchesAtMostOneByte : Prop :=
  ∀ (con : Nat) (s t : State) (sym : Symbol),
    1 ≤ s.inputBitsRemaining.toNat → s.inputBitsRemaining.toNat ≤ 8 → decodeSymbol con s = .done sym t →
      (sym.shift < s.inputBitsRemaining.toNat →
        t.cursor = s.cursor ∧ t.inputBitsRemaining.toNat = s.inputBitsRemaining.toNat - sym.shift) ∧
      (s.inputBitsRemaining.toNat ≤ sym.shift →
        t.cursor = BitVec.ofNat 32 (s.cursor.toNat % usableSize s.cfg + 1) ∧
          t.inputBitsRemaining.toNat = 8 - (sym.shift - s.inputBitsRemaining.toNat))

/-- 41_arith_decoder.md R119: priming, the split, each iteration and each whole decode keep `val ≤ span`, priming
leaves `span = 0xff` and a whole decode `span ≥ 0x7f`; on the way the 8-bit registers hold what exact integers would. -/
def Obligations.DecoderInvariantIsKept : Prop :=
  (∀ s t : State, prime s = .done () t → ArithOk t ∧ t.span = 0xff#8) ∧
  (∀ (prob : BitVec 8) (s : State), 1 ≤ prob.toNat → prob.toNat ≤ 0x7e → 0x7f ≤ s.span.toNat →
    s.val.toNat ≤ s.span.toNat →
      let t := (intervalSplit prob s).2
      let lps : Prop := (s.span.toNat : Int) - prob.toNat < s.val.toNat
      t.val.toNat ≤ t.span.toNat ∧
      (lps → (t.span.toNat : Int) = prob.toNat - 1 ∧
        (t.val.toNat : Int) = s.val.toNat - (s.span.toNat - (prob.toNat - 1))) ∧
      (¬lps → (t.span.toNat : Int) = s.span.toNat - prob.toNat ∧ t.val = s.val)) ∧
  (∀ s t : State, s.span.toNat < 0x7f → s.val.toNat ≤ s.span.toNat → renormStep s = .done () t →
    t.val.toNat ≤ t.span.toNat ∧ t.span.toNat = 2 * s.span.toNat + 1 ∧
      t.val.toNat = 2 * s.val.toNat + s.inputByte.msb.toNat) ∧
  (∀ (con : Nat) (s t : State) (sym : Symbol), ParamsLegal s.cfg → ArithOk s → decodeSymbol con s = .done sym t →
    ArithOk t)

/-- 41_arith_decoder.md R112, R116, R117: one decode splits by the probability of the table entry its context's state
selects, and renormalizes that split; what it then does to the contexts, and what it leaves alone. -/
def Obligations.DecodeUpdatesItsContext : Prop :=
  ∀ (con : Nat) (s t : State) (sym : Symbol), decodeSymbol con s = .done sym t →
    ∃ (hc : con < 32) (he : s.ctx[con].stateIndex.toNat < 53),
      let split := intervalSplit (s.cfg.evolutionTable[s.ctx[con].stateIndex.toNat]).probability s
      sym.flag = split.1 ∧ sym.invertUsed = s.ctx[con].invert ∧
      (∃ u, renormalize split.2 = .done sym.shift u ∧ t.cursor = u.cursor ∧ t.span = u.span ∧ t.val = u.val ∧
        t.inputByte = u.inputByte ∧ t.inputBitsRemaining = u.inputBitsRemaining) ∧
      (sym.flag = true →
        t.ctx[con].stateIndex = BitVec.ofNat 6 (s.cfg.evolutionTable[s.ctx[con].stateIndex.toNat]).nextOnLPS ∧
        t.ctx[con].invert =
          (s.ctx[con].invert ^^ (s.cfg.evolutionTable[s.ctx[con].stateIndex.toNat]).toggleInvertOnLPS)) ∧
      (sym.flag = false → t.ctx[con].invert = s.ctx[con].invert) ∧
      (sym.flag = false → 0 < sym.shift →
        t.ctx[con].stateIndex = BitVec.ofNat 6 (s.cfg.evolutionTable[s.ctx[con].stateIndex.toNat]).nextOnMPS) ∧
      (sym.flag = false → sym.shift = 0 → t.ctx[con].stateIndex = s.ctx[con].stateIndex) ∧
      (∀ (j : Nat) (hj : j < 32), j ≠ con → t.ctx[j] = s.ctx[j]) ∧
      t = { s with
        cursor := t.cursor, span := t.span, val := t.val, inputByte := t.inputByte
        inputBitsRemaining := t.inputBitsRemaining, ctx := t.ctx }

/-- 60_exceptions.md R222, R226: each primitive that faults records its reason and writes nothing else. -/
def Obligations.FaultsArePrecise : Prop :=
  (∀ (b : Byte) (s : State), s.length = s.cfg.ringCapacity →
    ringWrite b s = .stop .ringOverflow { s with fault := some .ringOverflow }) ∧
  (∀ s : State, s.length = 0 → ringRead s = .stop .ringUnderflow { s with fault := some .ringUnderflow }) ∧
  (∀ (con : Nat) (s : State), 31 < con →
    decodeSymbol con s = .stop .contextRange { s with fault := some .contextRange }) ∧
  (∀ (n : Nat) (order : Vector (BitVec 4) n) (v : BitVec 4) (s : State), v ∉ order.toList →
    moveToFront order v s = .stop .orderMissing { s with fault := some .orderMissing })

/-! ### Ring buffer -/

/-- 42_ring_buffer.md R130: a write to a ring that is not full stores at the write offset, advances and wraps it, and
leaves every other byte and register alone. -/
def Obligations.RingWriteStoresAtWriteOffset : Prop :=
  ∀ (b : Byte) (s : State), s.ringData.wf = true → s.length ≠ s.cfg.ringCapacity →
    ∃ t, ringWrite b s = .done () t ∧ t.ringData.read s.writeOffset = b ∧
      (∀ a, a ≠ s.writeOffset → t.ringData.read a = s.ringData.read a) ∧ t.ringData.wf = true ∧
      t = { s with
        ringData := t.ringData, writeOffset := (s.writeOffset + 1) % s.cfg.ringCapacity, length := s.length + 1 }

/-- 42_ring_buffer.md R134: write, read and clear keep the ring's invariant, and the ring is first in, first out. -/
def Obligations.RingIsFirstInFirstOut : Prop :=
  (∀ (b : Byte) (s t : State), RingOk s → s.ringData.wf = true → ringWrite b s = .done () t →
    RingOk t ∧ ringContents t = ringContents s ++ [b]) ∧
  (∀ (b : Byte) (s t : State), RingOk s → ringRead s = .done b t →
    RingOk t ∧ ringContents s = b :: ringContents t) ∧
  (∀ s : State, RingOk s → RingOk (ringClear s) ∧ ringContents (ringClear s) = [])

/-- 43_mode0.md R141, R144, 44_mode1.md R151, R158, 45_mode2.md R171, R179: each mode's unit decodes eight bits or eight
pixels, which push what the accumulator held out of its low half, and then writes their planes and nothing else: the
bytes it appends to the ring, and what mode 2's side buffer holds after it. -/
def Obligations.UnitsAppendTheirPlanes : Prop :=
  (∀ s t : State, RingOk s → s.ringData.wf = true → mode0Unit s = .done () t →
    ∃ u, loop mode0Bit 8 0 s = .done 8 u ∧
      t = { u with ringData := t.ringData, writeOffset := t.writeOffset, length := t.length } ∧
      t.out.extractLsb' 8 24 = s.out.extractLsb' 0 24 ∧
      ringContents t = ringContents s ++ [t.out.extractLsb' 0 8]) ∧
  (∀ s t : State, RingOk s → s.ringData.wf = true → mode1Unit s = .done () t →
    ∃ u, loop mode1Pixel 8 () s = .done () u ∧
      t = { u with ringData := t.ringData, writeOffset := t.writeOffset, length := t.length } ∧
      t.out.extractLsb' 16 16 = s.out.extractLsb' 0 16 ∧
      ringContents t = ringContents s ++
        [(morton2 (t.out.extractLsb' 0 16)).extractLsb' 8 8, (morton2 (t.out.extractLsb' 0 16)).extractLsb' 0 8]) ∧
  (∀ s t : State, RingOk s → s.ringData.wf = true → mode2Unit s = .done () t →
    (∃ u, loop mode2Pixel 8 () s = .done () u ∧
      t = { u with
        ringData := t.ringData, writeOffset := t.writeOffset, length := t.length
        sideBuffer := t.sideBuffer, sideIndex := t.sideIndex } ∧
      t.out1 = s.out0) ∧
    (s.sideIndex ≠ 14#5 →
      ringContents t = ringContents s ++ [(morton4 t.out0).extractLsb' 24 8, (morton4 t.out0).extractLsb' 16 8] ∧
      t.sideIndex.toNat = s.sideIndex.toNat + 2 ∧
      t.sideBuffer = (s.sideBuffer.setIfInBounds s.sideIndex.toNat ((morton4 t.out0).extractLsb' 8 8)).setIfInBounds
        (s.sideIndex.toNat + 1) ((morton4 t.out0).extractLsb' 0 8)) ∧
    (s.sideIndex = 14#5 →
      ringContents t = ringContents s ++ [(morton4 t.out0).extractLsb' 24 8, (morton4 t.out0).extractLsb' 16 8] ++
        s.sideBuffer.toList.take 14 ++ [(morton4 t.out0).extractLsb' 8 8, (morton4 t.out0).extractLsb' 0 8] ∧
      t.sideIndex = 0#5))

/-! ### Mode 0 -/

/-- 43_mode0.md R142: the context of each bit of a byte, from the history bits of the same nibble. -/
def Obligations.ModeZeroContexts : Prop :=
  ∀ (bitIdx : Nat) (s : State),
    (bitIdx < 4 → mode0Context bitIdx s = 2 ^ bitIdx - 1 + (s.invertHistory ^^^ s.lpsHistory).toNat % 2 ^ bitIdx) ∧
    (4 ≤ bitIdx → bitIdx < 8 → mode0Context bitIdx s =
      15 + (2 ^ (bitIdx - 4) - 1) + (s.invertHistory ^^^ s.lpsHistory).toNat % 2 ^ (bitIdx - 4)) ∧
    mode0Context bitIdx s < 30

/-- 43_mode0.md R141, R143: one bit of mode 0. The predicted bit is the accumulator's tap bit and the context's `invert`
before the decode; the decoded bit, the flag and that `invert` enter `out` and the two histories. -/
def Obligations.ModeZeroBitEntersAccumulator : Prop :=
  ∀ (i j : Nat) (s t : State), mode0Bit i s = .done j t →
    ∃ (hc : mode0Context i s < 32) (sym : Symbol) (u : State), decodeSymbol (mode0Context i s) s = .done sym u ∧
      j = i + 1 ∧
      t.out.toNat = (2 * s.out.toNat +
        (s.out.getLsbD s.cfg.mode0MpsTap ^^ s.ctx[mode0Context i s].invert ^^ sym.flag).toNat) % 2 ^ 32 ∧
      t.lpsHistory.toNat = (2 * s.lpsHistory.toNat + sym.flag.toNat) % 2 ^ 32 ∧
      t.invertHistory.toNat = (2 * s.invertHistory.toNat + s.ctx[mode0Context i s].invert.toNat) % 2 ^ 32 ∧
      t = { u with out := t.out, lpsHistory := t.lpsHistory, invertHistory := t.invertHistory }

/-! ### Modes 1 and 2 -/

/-- 44_mode1.md R152: the five cases of the equality class. -/
def Obligations.RefconByCases : Prop :=
  ∀ a b c : BitVec 4,
    (a = b → b = c → refcon a b c = 0) ∧ (a = b → b ≠ c → refcon a b c = 1) ∧ (a ≠ b → b = c → refcon a b c = 2) ∧
    (a = c → a ≠ b → refcon a b c = 3) ∧ (a ≠ b → b ≠ c → a ≠ c → refcon a b c = 4)

/-- 44_mode1.md R153: move-to-front by index. Entries before the first `v` move right by one, later ones keep their
places, the result is a permutation, and a value the list does not hold faults. -/
def Obligations.MoveToFrontByIndex : Prop :=
  ∀ (n : Nat) (order : Vector (BitVec 4) n) (v : BitVec 4) (s : State),
    (∀ (m : Nat) (hm : m < n), order[m] = v → (∀ (j : Nat) (hj : j < m), order[j] ≠ v) →
      ∃ r, moveToFront order v s = .done r s ∧ r.toList.Perm order.toList ∧
        ∀ (k : Nat) (hk : k < n), r[k] = if k = 0 then v else if k ≤ m then order[k - 1] else order[k]) ∧
    ((∀ (m : Nat) (hm : m < n), order[m] ≠ v) →
      moveToFront order v s = .stop .orderMissing { s with fault := some .orderMissing })

/-- 44_mode1.md R154: the ranking starts with `a`, then `b` if it differs, then `c` if it differs from both, then the
remaining values in the order's order; it is a permutation of the order. -/
def Obligations.RankingStartsWithReferences : Prop :=
  ∀ (n : Nat) (order : Vector (BitVec 4) n) (a b c : BitVec 4) (s : State),
    order.toList.Nodup → a ∈ order.toList → b ∈ order.toList → c ∈ order.toList →
      ∃ q, realOrder order ⟨a, b, c⟩ s = .done q s ∧ q.toList.Perm order.toList ∧
        q.toList = [a] ++ (if b = a then [] else [b]) ++ (if c = a ∨ c = b then [] else [c]) ++
          order.toList.filter (fun x => decide (x ≠ a) && decide (x ≠ b) && decide (x ≠ c))

/-- 44_mode1.md R155: the second symbol's context, with the first symbol's `flag ^ invertUsed` in it, and its range. -/
def Obligations.ModeOneSecondContext : Prop :=
  (∀ a b c : BitVec 4, refcon a b c ≤ 4) ∧
  (∀ (con : Nat) (sym : Symbol) (s : State),
    mode1NextContext con (recordSymbol sym s) = 5 + 2 * con + (sym.flag ^^ sym.invertUsed).toNat ∧
    (con ≤ 4 → 5 ≤ mode1NextContext con (recordSymbol sym s) ∧ mode1NextContext con (recordSymbol sym s) ≤ 14))

/-- 44_mode1.md R151, R155, R156, R157: one mode 1 pixel, from its reference pixels and two symbols. -/
def Obligations.ModeOnePixel : Prop :=
  ∀ s t : State, mode1Pixel () s = .done () t →
    let r : RefPixels :=
      ⟨(s.out.extractLsb' 2 2).setWidth 4, (s.out.extractLsb' 14 2).setWidth 4, (s.out.extractLsb' 16 2).setWidth 4⟩
    let con := refcon r.a r.b r.c
    ∃ (order ranking : Vector (BitVec 4) 4) (y1 y2 : Symbol) (u1 u2 : State) (p : BitVec 4),
      let s1 : State := { s with pixelOrder := withFirstFour s.pixelOrder order }
      moveToFront (firstFour s.pixelOrder) r.a s = .done order s ∧ realOrder order r s1 = .done ranking s1 ∧
      decodeSymbol con s1 = .done y1 u1 ∧
      decodeSymbol (5 + 2 * con + (y1.flag ^^ y1.invertUsed).toNat) (recordSymbol y1 u1) = .done y2 u2 ∧
      ranking[2 * (y1.flag ^^ y1.invertUsed).toNat + (y2.flag ^^ y2.invertUsed).toNat]? = some p ∧
      t.out.toNat = (4 * s.out.toNat + p.toNat) % 2 ^ 32 ∧ t = { recordSymbol y2 u2 with out := t.out }

/-- 45_mode2.md R171, R172, R176, R177, R178: one mode 2 pixel, from its reference pixels and four symbols. -/
def Obligations.ModeTwoPixel : Prop :=
  ∀ s t : State, mode2Pixel () s = .done () t →
    let r : RefPixels := ⟨s.out0.extractLsb' 0 4, s.out0.extractLsb' 28 4, s.out1.extractLsb' 0 4⟩
    let next (c : Fin 32) (y : Symbol) : Nat :=
      (if y.flag ^^ y.invertUsed then s.cfg.mode2ContextTable[c].2 else s.cfg.mode2ContextTable[c].1) +
        (if c = 1 then refcon r.a r.b r.c else 0)
    ∃ (order ranking : Vector (BitVec 4) 16) (y1 y2 y3 y4 : Symbol) (u1 u2 u3 u4 : State) (c2 c3 c4 : Fin 32)
      (p : BitVec 4),
      let s1 : State := { s with pixelOrder := order }
      moveToFront s.pixelOrder r.a s = .done order s ∧ realOrder order r s1 = .done ranking s1 ∧
      decodeSymbol 0 s1 = .done y1 u1 ∧
      c2.val = next 0 y1 ∧ decodeSymbol c2 (recordSymbol y1 u1) = .done y2 u2 ∧
      c3.val = next c2 y2 ∧ decodeSymbol c3 (recordSymbol y2 u2) = .done y3 u3 ∧
      c4.val = next c3 y3 ∧ decodeSymbol c4 (recordSymbol y3 u3) = .done y4 u4 ∧
      ranking[8 * (y1.flag ^^ y1.invertUsed).toNat + 4 * (y2.flag ^^ y2.invertUsed).toNat +
        2 * (y3.flag ^^ y3.invertUsed).toNat + (y4.flag ^^ y4.invertUsed).toNat]? = some p ∧
      t.out0.toNat = (16 * s.out0.toNat + p.toNat) % 2 ^ 32 ∧
      t.out1.toNat = (16 * s.out1.toNat + s.out0.toNat / 2 ^ 28) % 2 ^ 32 ∧
      t = { recordSymbol y4 u4 with out0 := t.out0, out1 := t.out1 }

/-- 44_mode1.md R157, 45_mode2.md R178: a pixel's index holds its symbols' `flag ^ invertUsed`, the first one highest. -/
def Obligations.PixelIndexFromHistories : Prop :=
  ∀ (y1 y2 y3 y4 : Symbol) (s : State),
    (historyXor (recordSymbol y2 (recordSymbol y1 s))).toNat % 4 =
      2 * (y1.flag ^^ y1.invertUsed).toNat + (y2.flag ^^ y2.invertUsed).toNat ∧
    (historyXor (recordSymbol y4 (recordSymbol y3 (recordSymbol y2 (recordSymbol y1 s))))).toNat % 16 =
      8 * (y1.flag ^^ y1.invertUsed).toNat + 4 * (y2.flag ^^ y2.invertUsed).toNat +
        2 * (y3.flag ^^ y3.invertUsed).toNat + (y4.flag ^^ y4.invertUsed).toNat

/-- 45_mode2.md R174: the context tree of the default table. -/
def Obligations.ModeTwoContextTree : Prop :=
  ∀ rc : Nat, rc ≤ 4 →
    let next (con : Fin 32) (bit : Bool) := mode2NextContext defaultConfig con bit rc
    next 0 false = 1 ∧ next 0 true = 2 ∧ next 1 false = 3 + rc ∧ next 1 true = 8 + rc ∧
    next 2 false = 13 ∧ next 2 true = 14 ∧
    (∀ (j : Nat) (h : j < 5), next ⟨3 + j, by omega⟩ false = 15 + 2 * j ∧ next ⟨3 + j, by omega⟩ true = 16 + 2 * j) ∧
    (∀ (j : Nat) (h : j < 5), next ⟨8 + j, by omega⟩ false = 25 ∧ next ⟨8 + j, by omega⟩ true = 26) ∧
    next 13 false = 27 ∧ next 13 true = 28 ∧ next 14 false = 29 ∧ next 14 true = 30 ∧
    (∀ (j : Nat) (h : j < 16) (bit : Bool), next ⟨15 + j, by omega⟩ bit = 31)

/-! ### Morton de-interleave -/

/-- 46_morton.md R192: the 2-way de-interleave from its two tables, whose terms share no bit, and in closed form, with the
rule's corner cases and example. -/
def Obligations.MortonTwoClosedForm : Prop :=
  (∀ x : BitVec 16, morton2 x = m2 0 (x.extractLsb' 0 8) + m2 1 (x.extractLsb' 8 8)) ∧
  (∀ a b : BitVec 8, m2 0 a &&& m2 1 b = 0#16) ∧
  (∀ (x : BitVec 16) (j k : Nat), j < 2 → k < 8 → (morton2 x).getLsbD (8 * j + k) = x.getLsbD (2 * k + j)) ∧
  morton2 0#16 = 0#16 ∧ morton2 0xffff#16 = 0xffff#16 ∧ morton2 0xaaaa#16 = 0xff00#16 ∧
  morton2 0x5555#16 = 0x00ff#16 ∧ morton2 0xc001#16 = 0x8081#16

/-- 46_morton.md R193: the 4-way de-interleave from its four tables, whose terms share no bit, and in closed form, with
the rule's corner cases and example. -/
def Obligations.MortonFourClosedForm : Prop :=
  (∀ x : BitVec 32, morton4 x = m4 0 (x.extractLsb' 0 8) + m4 1 (x.extractLsb' 8 8) + m4 2 (x.extractLsb' 16 8) +
    m4 3 (x.extractLsb' 24 8)) ∧
  (∀ (g h : Nat) (a b : BitVec 8), g < h → h < 4 → m4 g a &&& m4 h b = 0#32) ∧
  (∀ (x : BitVec 32) (j k : Nat), j < 4 → k < 8 → (morton4 x).getLsbD (8 * j + k) = x.getLsbD (4 * k + j)) ∧
  morton4 0x88888888#32 = 0xff000000#32 ∧ morton4 0x11111111#32 = 0x000000ff#32 ∧
  morton4 0xffffffff#32 = 0xffffffff#32 ∧ morton4 0xf0000001#32 = 0x80808081#32

/-- 46_morton.md R194: de-interleaving what the reference interleavers make gives the planes back, for every byte of each
plane; in pixel terms, plane byte j holds bit j of every pixel, pixel q at bit 7 - q. -/
def Obligations.MortonRoundTrip : Prop :=
  (∀ (x : BitVec 16) (p1 p0 : BitVec 8),
    (∀ k, k < 8 → x.getLsbD (2 * k) = p0.getLsbD k ∧ x.getLsbD (2 * k + 1) = p1.getLsbD k) →
      morton2 x = p1 ++ p0) ∧
  (∀ (x : BitVec 32) (p3 p2 p1 p0 : BitVec 8),
    (∀ k, k < 8 → x.getLsbD (4 * k) = p0.getLsbD k ∧ x.getLsbD (4 * k + 1) = p1.getLsbD k ∧
      x.getLsbD (4 * k + 2) = p2.getLsbD k ∧ x.getLsbD (4 * k + 3) = p3.getLsbD k) →
      morton4 x = (p3 ++ p2 ++ p1 ++ p0 : BitVec 32)) ∧
  (∀ (x : BitVec 16) (q j : Nat), q < 8 → j < 2 →
    (morton2 x).getLsbD (8 * j + (7 - q)) = (x.extractLsb' (2 * (7 - q)) 2).getLsbD j) ∧
  (∀ (x : BitVec 32) (q j : Nat), q < 8 → j < 4 →
    (morton4 x).getLsbD (8 * j + (7 - q)) = (x.extractLsb' (4 * (7 - q)) 4).getLsbD j)
end

