-- ==== Sys2Proof/Laws/Memory.lean ====
section
/-! SUPPORT. The laws of byte storage: reads after writes, and the canonical form. -/

namespace Sys2Proof.Machine

@[simp] theorem Memory.read_nil (a : Nat) : Memory.read [] a = unlistedByte := rfl

theorem Memory.read_cons (b : Nat) (w : Byte) (m : Memory) (a : Nat) :
    Memory.read ((b, w) :: m) a = if a = b then w else Memory.read m a := rfl

/-- An address below every listed one reads as unlisted. -/
theorem Memory.read_of_lt {m : Memory} {a : Nat} (h : ∀ cell ∈ m, a < cell.1) :
    Memory.read m a = unlistedByte := by
  induction m with
  | nil => rfl
  | cons cell m ih =>
    obtain ⟨b, w⟩ := cell
    have hb : a < b := h (b, w) (by simp)
    rw [Memory.read_cons, if_neg (by omega)]
    exact ih fun c hc => h c (by simp [hc])

theorem Memory.wf_cons {a : Nat} {v : Byte} {m : Memory} :
    Memory.wf ((a, v) :: m) = true ↔ v ≠ unlistedByte ∧ (∀ cell ∈ m, a < cell.1) ∧ Memory.wf m = true := by
  simp [Memory.wf, and_assoc]

/-- Every cell of a written storage is the written one or an old one. -/
theorem Memory.mem_write {m : Memory} {a : Nat} {v : Byte} {cell : Host.Cell}
    (h : cell ∈ Memory.write m a v) : cell = (a, v) ∨ cell ∈ m := by
  induction m with
  | nil =>
    simp only [Memory.write] at h
    split at h <;> simp_all
  | cons c m ih =>
    obtain ⟨b, w⟩ := c
    simp only [Memory.write] at h
    split at h
    · split at h <;> simp_all
    · split at h
      · split at h
        · exact .inr (by simp [h])
        · rcases List.mem_cons.mp h with h | h
          · exact .inl h
          · exact .inr (by simp [h])
      · rcases List.mem_cons.mp h with h | h
        · exact .inr (by simp [h])
        · rcases ih h with h | h
          · exact .inl h
          · exact .inr (by simp [h])

/-- A write keeps the canonical form. -/
theorem Memory.wf_write {m : Memory} (h : m.wf = true) (a : Nat) (v : Byte) : (m.write a v).wf = true := by
  induction m with
  | nil =>
    simp only [Memory.write]
    split
    · rfl
    · simpa [Memory.wf] using by assumption
  | cons c m ih =>
    obtain ⟨b, w⟩ := c
    obtain ⟨hw, hlt, hm⟩ := Memory.wf_cons.mp h
    simp only [Memory.write]
    split
    · rename_i hab
      split
      · exact h
      · rename_i hv
        refine Memory.wf_cons.mpr ⟨hv, ?_, h⟩
        intro cell hc
        rcases List.mem_cons.mp hc with rfl | hc
        · exact hab
        · exact lt_trans hab (hlt cell hc)
    · split
      · rename_i _ hab
        split
        · exact hm
        · rename_i hv
          exact Memory.wf_cons.mpr ⟨hv, hab ▸ hlt, hm⟩
      · rename_i h1 h2
        refine Memory.wf_cons.mpr ⟨hw, ?_, ih hm⟩
        intro cell hc
        rcases Memory.mem_write hc with rfl | hc
        · show b < a
          omega
        · exact hlt cell hc

/-- A read of the written address gives the written byte. -/
theorem Memory.read_write_same {m : Memory} (h : m.wf = true) (a : Nat) (v : Byte) :
    (m.write a v).read a = v := by
  induction m with
  | nil =>
    simp only [Memory.write]
    split
    · simp_all
    · simp [Memory.read_cons]
  | cons c m ih =>
    obtain ⟨b, w⟩ := c
    obtain ⟨_, hlt, hm⟩ := Memory.wf_cons.mp h
    simp only [Memory.write]
    split
    · rename_i hab
      split
      · rename_i hv
        rw [hv]
        refine Memory.read_of_lt fun cell hc => ?_
        rcases List.mem_cons.mp hc with rfl | hc
        · exact hab
        · exact lt_trans hab (hlt cell hc)
      · simp [Memory.read_cons]
    · split
      · rename_i _ hab
        split
        · rename_i hv
          rw [hv]
          exact Memory.read_of_lt fun cell hc => hab ▸ hlt cell hc
        · simp [Memory.read_cons]
      · rename_i _ hab
        rw [Memory.read_cons, if_neg hab]
        exact ih hm

/-- A read of any other address gives what it gave before. -/
theorem Memory.read_write_other (m : Memory) {a a' : Nat} (v : Byte) (hne : a' ≠ a) :
    (m.write a v).read a' = m.read a' := by
  induction m with
  | nil =>
    simp only [Memory.write]
    split
    · rfl
    · simp [Memory.read_cons, hne]
  | cons c m ih =>
    obtain ⟨b, w⟩ := c
    simp only [Memory.write]
    split
    · split
      · rfl
      · rw [Memory.read_cons, if_neg hne]
    · split
      · rename_i _ hab
        split
        · rw [Memory.read_cons, if_neg (hab ▸ hne)]
        · rw [Memory.read_cons, Memory.read_cons, if_neg hne, if_neg (hab ▸ hne)]
      · rw [Memory.read_cons, Memory.read_cons, ih]

/-- Laying out bytes keeps the canonical form. -/
theorem Memory.wf_writeBytes {m : Memory} (h : m.wf = true) (a : Nat) (bs : List Byte) :
    (m.writeBytes a bs).wf = true := by
  induction bs generalizing m a with
  | nil => exact h
  | cons b bs ih => exact ih (Memory.wf_write h a b) (a + 1)

/-- The memory after reset lists nothing, which is canonical. -/
theorem reset_memory_wf : State.reset.src.wf = true ∧ State.reset.ringData.wf = true := ⟨rfl, rfl⟩

end Sys2Proof.Machine
end

