-- ==== Sys2Proof/Laws/State.lean ====
section
/-! SUPPORT. What each named update of the state leaves in each field. -/

namespace Sys2Proof.Machine

@[simp] theorem withPort_cfg (s : State) (words : List Word) :
    (withPort s words).cfg = s.cfg := rfl
@[simp] theorem withPort_src (s : State) (words : List Word) :
    (withPort s words).src = s.src := rfl
@[simp] theorem withPort_mode (s : State) (words : List Word) :
    (withPort s words).mode = s.mode := rfl
@[simp] theorem withPort_cursor (s : State) (words : List Word) :
    (withPort s words).cursor = s.cursor := rfl
@[simp] theorem withPort_span (s : State) (words : List Word) :
    (withPort s words).span = s.span := rfl
@[simp] theorem withPort_val (s : State) (words : List Word) :
    (withPort s words).val = s.val := rfl
@[simp] theorem withPort_inputByte (s : State) (words : List Word) :
    (withPort s words).inputByte = s.inputByte := rfl
@[simp] theorem withPort_inputBitsRemaining (s : State) (words : List Word) :
    (withPort s words).inputBitsRemaining = s.inputBitsRemaining := rfl
@[simp] theorem withPort_ctx (s : State) (words : List Word) :
    (withPort s words).ctx = s.ctx := rfl
@[simp] theorem withPort_lpsHistory (s : State) (words : List Word) :
    (withPort s words).lpsHistory = s.lpsHistory := rfl
@[simp] theorem withPort_invertHistory (s : State) (words : List Word) :
    (withPort s words).invertHistory = s.invertHistory := rfl
@[simp] theorem withPort_out (s : State) (words : List Word) :
    (withPort s words).out = s.out := rfl
@[simp] theorem withPort_out0 (s : State) (words : List Word) :
    (withPort s words).out0 = s.out0 := rfl
@[simp] theorem withPort_out1 (s : State) (words : List Word) :
    (withPort s words).out1 = s.out1 := rfl
@[simp] theorem withPort_pixelOrder (s : State) (words : List Word) :
    (withPort s words).pixelOrder = s.pixelOrder := rfl
@[simp] theorem withPort_sideBuffer (s : State) (words : List Word) :
    (withPort s words).sideBuffer = s.sideBuffer := rfl
@[simp] theorem withPort_sideIndex (s : State) (words : List Word) :
    (withPort s words).sideIndex = s.sideIndex := rfl
@[simp] theorem withPort_ringData (s : State) (words : List Word) :
    (withPort s words).ringData = s.ringData := rfl
@[simp] theorem withPort_readOffset (s : State) (words : List Word) :
    (withPort s words).readOffset = s.readOffset := rfl
@[simp] theorem withPort_writeOffset (s : State) (words : List Word) :
    (withPort s words).writeOffset = s.writeOffset := rfl
@[simp] theorem withPort_length (s : State) (words : List Word) :
    (withPort s words).length = s.length := rfl
@[simp] theorem withPort_fault (s : State) (words : List Word) :
    (withPort s words).fault = s.fault := rfl
@[simp] theorem withPort_observed (s : State) (words : List Word) :
    (withPort s words).observed = s.observed := rfl
@[simp] theorem withPort_port (s : State) (words : List Word) :
    (withPort s words).port = words := rfl
@[simp] theorem withPort_srcAtInit (s : State) (words : List Word) :
    (withPort s words).srcAtInit = s.srcAtInit := rfl

@[simp] theorem ringClear_cfg (s : State) :
    (ringClear s).cfg = s.cfg := rfl
@[simp] theorem ringClear_src (s : State) :
    (ringClear s).src = s.src := rfl
@[simp] theorem ringClear_mode (s : State) :
    (ringClear s).mode = s.mode := rfl
@[simp] theorem ringClear_cursor (s : State) :
    (ringClear s).cursor = s.cursor := rfl
@[simp] theorem ringClear_span (s : State) :
    (ringClear s).span = s.span := rfl
@[simp] theorem ringClear_val (s : State) :
    (ringClear s).val = s.val := rfl
@[simp] theorem ringClear_inputByte (s : State) :
    (ringClear s).inputByte = s.inputByte := rfl
@[simp] theorem ringClear_inputBitsRemaining (s : State) :
    (ringClear s).inputBitsRemaining = s.inputBitsRemaining := rfl
@[simp] theorem ringClear_ctx (s : State) :
    (ringClear s).ctx = s.ctx := rfl
@[simp] theorem ringClear_lpsHistory (s : State) :
    (ringClear s).lpsHistory = s.lpsHistory := rfl
@[simp] theorem ringClear_invertHistory (s : State) :
    (ringClear s).invertHistory = s.invertHistory := rfl
@[simp] theorem ringClear_out (s : State) :
    (ringClear s).out = s.out := rfl
@[simp] theorem ringClear_out0 (s : State) :
    (ringClear s).out0 = s.out0 := rfl
@[simp] theorem ringClear_out1 (s : State) :
    (ringClear s).out1 = s.out1 := rfl
@[simp] theorem ringClear_pixelOrder (s : State) :
    (ringClear s).pixelOrder = s.pixelOrder := rfl
@[simp] theorem ringClear_sideBuffer (s : State) :
    (ringClear s).sideBuffer = s.sideBuffer := rfl
@[simp] theorem ringClear_sideIndex (s : State) :
    (ringClear s).sideIndex = s.sideIndex := rfl
@[simp] theorem ringClear_ringData (s : State) :
    (ringClear s).ringData = s.ringData := rfl
@[simp] theorem ringClear_readOffset (s : State) :
    (ringClear s).readOffset = 0 := rfl
@[simp] theorem ringClear_writeOffset (s : State) :
    (ringClear s).writeOffset = 0 := rfl
@[simp] theorem ringClear_length (s : State) :
    (ringClear s).length = 0 := rfl
@[simp] theorem ringClear_fault (s : State) :
    (ringClear s).fault = s.fault := rfl
@[simp] theorem ringClear_observed (s : State) :
    (ringClear s).observed = s.observed := rfl
@[simp] theorem ringClear_port (s : State) :
    (ringClear s).port = s.port := rfl
@[simp] theorem ringClear_srcAtInit (s : State) :
    (ringClear s).srcAtInit = s.srcAtInit := rfl

@[simp] theorem recordSymbol_cfg (sym : Symbol) (s : State) :
    (recordSymbol sym s).cfg = s.cfg := rfl
@[simp] theorem recordSymbol_src (sym : Symbol) (s : State) :
    (recordSymbol sym s).src = s.src := rfl
@[simp] theorem recordSymbol_mode (sym : Symbol) (s : State) :
    (recordSymbol sym s).mode = s.mode := rfl
@[simp] theorem recordSymbol_cursor (sym : Symbol) (s : State) :
    (recordSymbol sym s).cursor = s.cursor := rfl
@[simp] theorem recordSymbol_span (sym : Symbol) (s : State) :
    (recordSymbol sym s).span = s.span := rfl
@[simp] theorem recordSymbol_val (sym : Symbol) (s : State) :
    (recordSymbol sym s).val = s.val := rfl
@[simp] theorem recordSymbol_inputByte (sym : Symbol) (s : State) :
    (recordSymbol sym s).inputByte = s.inputByte := rfl
@[simp] theorem recordSymbol_inputBitsRemaining (sym : Symbol) (s : State) :
    (recordSymbol sym s).inputBitsRemaining = s.inputBitsRemaining := rfl
@[simp] theorem recordSymbol_ctx (sym : Symbol) (s : State) :
    (recordSymbol sym s).ctx = s.ctx := rfl
@[simp] theorem recordSymbol_lpsHistory (sym : Symbol) (s : State) :
    (recordSymbol sym s).lpsHistory = shiftIn s.lpsHistory sym.flag := rfl
@[simp] theorem recordSymbol_invertHistory (sym : Symbol) (s : State) :
    (recordSymbol sym s).invertHistory = shiftIn s.invertHistory sym.invertUsed := rfl
@[simp] theorem recordSymbol_out (sym : Symbol) (s : State) :
    (recordSymbol sym s).out = s.out := rfl
@[simp] theorem recordSymbol_out0 (sym : Symbol) (s : State) :
    (recordSymbol sym s).out0 = s.out0 := rfl
@[simp] theorem recordSymbol_out1 (sym : Symbol) (s : State) :
    (recordSymbol sym s).out1 = s.out1 := rfl
@[simp] theorem recordSymbol_pixelOrder (sym : Symbol) (s : State) :
    (recordSymbol sym s).pixelOrder = s.pixelOrder := rfl
@[simp] theorem recordSymbol_sideBuffer (sym : Symbol) (s : State) :
    (recordSymbol sym s).sideBuffer = s.sideBuffer := rfl
@[simp] theorem recordSymbol_sideIndex (sym : Symbol) (s : State) :
    (recordSymbol sym s).sideIndex = s.sideIndex := rfl
@[simp] theorem recordSymbol_ringData (sym : Symbol) (s : State) :
    (recordSymbol sym s).ringData = s.ringData := rfl
@[simp] theorem recordSymbol_readOffset (sym : Symbol) (s : State) :
    (recordSymbol sym s).readOffset = s.readOffset := rfl
@[simp] theorem recordSymbol_writeOffset (sym : Symbol) (s : State) :
    (recordSymbol sym s).writeOffset = s.writeOffset := rfl
@[simp] theorem recordSymbol_length (sym : Symbol) (s : State) :
    (recordSymbol sym s).length = s.length := rfl
@[simp] theorem recordSymbol_fault (sym : Symbol) (s : State) :
    (recordSymbol sym s).fault = s.fault := rfl
@[simp] theorem recordSymbol_observed (sym : Symbol) (s : State) :
    (recordSymbol sym s).observed = s.observed := rfl
@[simp] theorem recordSymbol_port (sym : Symbol) (s : State) :
    (recordSymbol sym s).port = s.port := rfl
@[simp] theorem recordSymbol_srcAtInit (sym : Symbol) (s : State) :
    (recordSymbol sym s).srcAtInit = s.srcAtInit := rfl

@[simp] theorem updateContext_cfg (con : Nat) (e : EvolutionEntry) (flag : Bool) (shift : Nat) (c : Context) (s : State) :
    (updateContext con e flag shift c s).cfg = s.cfg := rfl
@[simp] theorem updateContext_src (con : Nat) (e : EvolutionEntry) (flag : Bool) (shift : Nat) (c : Context) (s : State) :
    (updateContext con e flag shift c s).src = s.src := rfl
@[simp] theorem updateContext_mode (con : Nat) (e : EvolutionEntry) (flag : Bool) (shift : Nat) (c : Context) (s : State) :
    (updateContext con e flag shift c s).mode = s.mode := rfl
@[simp] theorem updateContext_cursor (con : Nat) (e : EvolutionEntry) (flag : Bool) (shift : Nat) (c : Context) (s : State) :
    (updateContext con e flag shift c s).cursor = s.cursor := rfl
@[simp] theorem updateContext_span (con : Nat) (e : EvolutionEntry) (flag : Bool) (shift : Nat) (c : Context) (s : State) :
    (updateContext con e flag shift c s).span = s.span := rfl
@[simp] theorem updateContext_val (con : Nat) (e : EvolutionEntry) (flag : Bool) (shift : Nat) (c : Context) (s : State) :
    (updateContext con e flag shift c s).val = s.val := rfl
@[simp] theorem updateContext_inputByte (con : Nat) (e : EvolutionEntry) (flag : Bool) (shift : Nat) (c : Context) (s : State) :
    (updateContext con e flag shift c s).inputByte = s.inputByte := rfl
@[simp] theorem updateContext_inputBitsRemaining (con : Nat) (e : EvolutionEntry) (flag : Bool) (shift : Nat) (c : Context) (s : State) :
    (updateContext con e flag shift c s).inputBitsRemaining = s.inputBitsRemaining := rfl
@[simp] theorem updateContext_ctx (con : Nat) (e : EvolutionEntry) (flag : Bool) (shift : Nat) (c : Context) (s : State) :
    (updateContext con e flag shift c s).ctx = s.ctx.setIfInBounds con (contextAfter e flag shift c) := rfl
@[simp] theorem updateContext_lpsHistory (con : Nat) (e : EvolutionEntry) (flag : Bool) (shift : Nat) (c : Context) (s : State) :
    (updateContext con e flag shift c s).lpsHistory = s.lpsHistory := rfl
@[simp] theorem updateContext_invertHistory (con : Nat) (e : EvolutionEntry) (flag : Bool) (shift : Nat) (c : Context) (s : State) :
    (updateContext con e flag shift c s).invertHistory = s.invertHistory := rfl
@[simp] theorem updateContext_out (con : Nat) (e : EvolutionEntry) (flag : Bool) (shift : Nat) (c : Context) (s : State) :
    (updateContext con e flag shift c s).out = s.out := rfl
@[simp] theorem updateContext_out0 (con : Nat) (e : EvolutionEntry) (flag : Bool) (shift : Nat) (c : Context) (s : State) :
    (updateContext con e flag shift c s).out0 = s.out0 := rfl
@[simp] theorem updateContext_out1 (con : Nat) (e : EvolutionEntry) (flag : Bool) (shift : Nat) (c : Context) (s : State) :
    (updateContext con e flag shift c s).out1 = s.out1 := rfl
@[simp] theorem updateContext_pixelOrder (con : Nat) (e : EvolutionEntry) (flag : Bool) (shift : Nat) (c : Context) (s : State) :
    (updateContext con e flag shift c s).pixelOrder = s.pixelOrder := rfl
@[simp] theorem updateContext_sideBuffer (con : Nat) (e : EvolutionEntry) (flag : Bool) (shift : Nat) (c : Context) (s : State) :
    (updateContext con e flag shift c s).sideBuffer = s.sideBuffer := rfl
@[simp] theorem updateContext_sideIndex (con : Nat) (e : EvolutionEntry) (flag : Bool) (shift : Nat) (c : Context) (s : State) :
    (updateContext con e flag shift c s).sideIndex = s.sideIndex := rfl
@[simp] theorem updateContext_ringData (con : Nat) (e : EvolutionEntry) (flag : Bool) (shift : Nat) (c : Context) (s : State) :
    (updateContext con e flag shift c s).ringData = s.ringData := rfl
@[simp] theorem updateContext_readOffset (con : Nat) (e : EvolutionEntry) (flag : Bool) (shift : Nat) (c : Context) (s : State) :
    (updateContext con e flag shift c s).readOffset = s.readOffset := rfl
@[simp] theorem updateContext_writeOffset (con : Nat) (e : EvolutionEntry) (flag : Bool) (shift : Nat) (c : Context) (s : State) :
    (updateContext con e flag shift c s).writeOffset = s.writeOffset := rfl
@[simp] theorem updateContext_length (con : Nat) (e : EvolutionEntry) (flag : Bool) (shift : Nat) (c : Context) (s : State) :
    (updateContext con e flag shift c s).length = s.length := rfl
@[simp] theorem updateContext_fault (con : Nat) (e : EvolutionEntry) (flag : Bool) (shift : Nat) (c : Context) (s : State) :
    (updateContext con e flag shift c s).fault = s.fault := rfl
@[simp] theorem updateContext_observed (con : Nat) (e : EvolutionEntry) (flag : Bool) (shift : Nat) (c : Context) (s : State) :
    (updateContext con e flag shift c s).observed = s.observed := rfl
@[simp] theorem updateContext_port (con : Nat) (e : EvolutionEntry) (flag : Bool) (shift : Nat) (c : Context) (s : State) :
    (updateContext con e flag shift c s).port = s.port := rfl
@[simp] theorem updateContext_srcAtInit (con : Nat) (e : EvolutionEntry) (flag : Bool) (shift : Nat) (c : Context) (s : State) :
    (updateContext con e flag shift c s).srcAtInit = s.srcAtInit := rfl

@[simp] theorem clearModeRegisters_cfg (s : State) :
    (clearModeRegisters s).cfg = s.cfg := rfl
@[simp] theorem clearModeRegisters_src (s : State) :
    (clearModeRegisters s).src = s.src := rfl
@[simp] theorem clearModeRegisters_mode (s : State) :
    (clearModeRegisters s).mode = s.mode := rfl
@[simp] theorem clearModeRegisters_cursor (s : State) :
    (clearModeRegisters s).cursor = s.cursor := rfl
@[simp] theorem clearModeRegisters_span (s : State) :
    (clearModeRegisters s).span = s.span := rfl
@[simp] theorem clearModeRegisters_val (s : State) :
    (clearModeRegisters s).val = s.val := rfl
@[simp] theorem clearModeRegisters_inputByte (s : State) :
    (clearModeRegisters s).inputByte = s.inputByte := rfl
@[simp] theorem clearModeRegisters_inputBitsRemaining (s : State) :
    (clearModeRegisters s).inputBitsRemaining = s.inputBitsRemaining := rfl
@[simp] theorem clearModeRegisters_ctx (s : State) :
    (clearModeRegisters s).ctx = s.ctx := rfl
@[simp] theorem clearModeRegisters_lpsHistory (s : State) :
    (clearModeRegisters s).lpsHistory = 0#32 := rfl
@[simp] theorem clearModeRegisters_invertHistory (s : State) :
    (clearModeRegisters s).invertHistory = 0#32 := rfl
@[simp] theorem clearModeRegisters_out (s : State) :
    (clearModeRegisters s).out = 0#32 := rfl
@[simp] theorem clearModeRegisters_out0 (s : State) :
    (clearModeRegisters s).out0 = 0#32 := rfl
@[simp] theorem clearModeRegisters_out1 (s : State) :
    (clearModeRegisters s).out1 = 0#32 := rfl
@[simp] theorem clearModeRegisters_pixelOrder (s : State) :
    (clearModeRegisters s).pixelOrder = identityOrder := rfl
@[simp] theorem clearModeRegisters_sideBuffer (s : State) :
    (clearModeRegisters s).sideBuffer = s.sideBuffer := rfl
@[simp] theorem clearModeRegisters_sideIndex (s : State) :
    (clearModeRegisters s).sideIndex = 0#5 := rfl
@[simp] theorem clearModeRegisters_ringData (s : State) :
    (clearModeRegisters s).ringData = s.ringData := rfl
@[simp] theorem clearModeRegisters_readOffset (s : State) :
    (clearModeRegisters s).readOffset = s.readOffset := rfl
@[simp] theorem clearModeRegisters_writeOffset (s : State) :
    (clearModeRegisters s).writeOffset = s.writeOffset := rfl
@[simp] theorem clearModeRegisters_length (s : State) :
    (clearModeRegisters s).length = s.length := rfl
@[simp] theorem clearModeRegisters_fault (s : State) :
    (clearModeRegisters s).fault = s.fault := rfl
@[simp] theorem clearModeRegisters_observed (s : State) :
    (clearModeRegisters s).observed = s.observed := rfl
@[simp] theorem clearModeRegisters_port (s : State) :
    (clearModeRegisters s).port = s.port := rfl
@[simp] theorem clearModeRegisters_srcAtInit (s : State) :
    (clearModeRegisters s).srcAtInit = s.srcAtInit := rfl

@[simp] theorem initCommon_cfg (m off : Word) (s : State) :
    (initCommon m off s).cfg = s.cfg := rfl
@[simp] theorem initCommon_src (m off : Word) (s : State) :
    (initCommon m off s).src = s.src := rfl
@[simp] theorem initCommon_mode (m off : Word) (s : State) :
    (initCommon m off s).mode = modeOfOperand m := rfl
@[simp] theorem initCommon_cursor (m off : Word) (s : State) :
    (initCommon m off s).cursor = off := rfl
@[simp] theorem initCommon_span (m off : Word) (s : State) :
    (initCommon m off s).span = s.span := rfl
@[simp] theorem initCommon_val (m off : Word) (s : State) :
    (initCommon m off s).val = s.val := rfl
@[simp] theorem initCommon_inputByte (m off : Word) (s : State) :
    (initCommon m off s).inputByte = s.inputByte := rfl
@[simp] theorem initCommon_inputBitsRemaining (m off : Word) (s : State) :
    (initCommon m off s).inputBitsRemaining = s.inputBitsRemaining := rfl
@[simp] theorem initCommon_ctx (m off : Word) (s : State) :
    (initCommon m off s).ctx = freshContexts := rfl
@[simp] theorem initCommon_lpsHistory (m off : Word) (s : State) :
    (initCommon m off s).lpsHistory = s.lpsHistory := rfl
@[simp] theorem initCommon_invertHistory (m off : Word) (s : State) :
    (initCommon m off s).invertHistory = s.invertHistory := rfl
@[simp] theorem initCommon_out (m off : Word) (s : State) :
    (initCommon m off s).out = s.out := rfl
@[simp] theorem initCommon_out0 (m off : Word) (s : State) :
    (initCommon m off s).out0 = s.out0 := rfl
@[simp] theorem initCommon_out1 (m off : Word) (s : State) :
    (initCommon m off s).out1 = s.out1 := rfl
@[simp] theorem initCommon_pixelOrder (m off : Word) (s : State) :
    (initCommon m off s).pixelOrder = s.pixelOrder := rfl
@[simp] theorem initCommon_sideBuffer (m off : Word) (s : State) :
    (initCommon m off s).sideBuffer = s.sideBuffer := rfl
@[simp] theorem initCommon_sideIndex (m off : Word) (s : State) :
    (initCommon m off s).sideIndex = s.sideIndex := rfl
@[simp] theorem initCommon_ringData (m off : Word) (s : State) :
    (initCommon m off s).ringData = s.ringData := rfl
@[simp] theorem initCommon_readOffset (m off : Word) (s : State) :
    (initCommon m off s).readOffset = 0 := rfl
@[simp] theorem initCommon_writeOffset (m off : Word) (s : State) :
    (initCommon m off s).writeOffset = 0 := rfl
@[simp] theorem initCommon_length (m off : Word) (s : State) :
    (initCommon m off s).length = 0 := rfl
@[simp] theorem initCommon_fault (m off : Word) (s : State) :
    (initCommon m off s).fault = s.fault := rfl
@[simp] theorem initCommon_observed (m off : Word) (s : State) :
    (initCommon m off s).observed = s.observed := rfl
@[simp] theorem initCommon_port (m off : Word) (s : State) :
    (initCommon m off s).port = s.port := rfl
@[simp] theorem initCommon_srcAtInit (m off : Word) (s : State) :
    (initCommon m off s).srcAtInit = some s.src := rfl

end Sys2Proof.Machine
end

