-- ==== Sys2Proof/Laws/Ops.lean ====
section
/-! SUPPORT. How operations compose, and what the source fetch and the ring operations can do. -/

namespace Sys2Proof.Machine

@[simp] theorem Res.bind_done {α β : Type} (a : α) (s : State) (f : α → State → Res β) :
    (Res.done a s).bind f = f a s := rfl

@[simp] theorem Res.bind_stop {α β : Type} (r : Fault) (s : State) (f : α → State → Res β) :
    (Res.stop r s).bind f = .stop r s := rfl

/-- A composition completes exactly when both parts do. -/
theorem Res.bind_eq_done {α β : Type} {x : Res α} {f : α → State → Res β} {b : β} {t : State} :
    x.bind f = .done b t ↔ ∃ a s, x = .done a s ∧ f a s = .done b t := by
  cases x <;> simp

/-- A composition stops when one of its parts does. -/
theorem Res.bind_eq_stop {α β : Type} {x : Res α} {f : α → State → Res β} {r : Fault} {t : State} :
    x.bind f = .stop r t ↔ x = .stop r t ∨ ∃ a s, x = .done a s ∧ f a s = .stop r t := by
  cases x <;> simp

theorem Res.bind_assoc {α β γ : Type} (x : Res α) (f : α → State → Res β) (g : β → State → Res γ) :
    (x.bind f).bind g = x.bind fun a s => (f a s).bind g := by
  cases x <;> rfl

@[simp] theorem Res.outcome_done (a : Unit) (s : State) : (Res.done a s).outcome = .next s := rfl

@[simp] theorem Res.outcome_stop (r : Fault) (s : State) : (Res.stop r s : Res Unit).outcome = .fault r := rfl

/-- A command answers a next state exactly when it completes. -/
theorem Res.outcome_eq_next {x : Res Unit} {t : State} : x.outcome = .next t ↔ x = .done () t := by
  cases x <;> simp [Res.outcome]

/-- A command faults exactly when it stops. -/
theorem Res.outcome_eq_fault {x : Res Unit} {r : Fault} : x.outcome = .fault r ↔ ∃ t, x = .stop r t := by
  cases x <;> simp [Res.outcome]

/-- No command is refused once it runs. -/
theorem Res.outcome_ne_refused (x : Res Unit) (r : Refusal) : x.outcome ≠ .refused r := by
  cases x <;> simp [Res.outcome]

/-- `x` either completes as `P` says or stops as `E` says. -/
def Res.Sat {α : Type} (x : Res α) (P : α → State → Prop) (E : Fault → State → Prop) : Prop :=
  match x with
  | .done a s => P a s
  | .stop r s => E r s

@[simp] theorem Res.sat_done {α : Type} {a : α} {s : State} {P : α → State → Prop} {E : Fault → State → Prop} :
    (Res.done a s).Sat P E ↔ P a s := Iff.rfl

@[simp] theorem Res.sat_stop {α : Type} {r : Fault} {s : State} {P : α → State → Prop} {E : Fault → State → Prop} :
    (Res.stop r s : Res α).Sat P E ↔ E r s := Iff.rfl

theorem Res.Sat.bind {α β : Type} {x : Res α} {f : α → State → Res β} {P : α → State → Prop} {Q : β → State → Prop}
    {E : Fault → State → Prop} (hx : x.Sat P E) (hf : ∀ a s, P a s → (f a s).Sat Q E) : (x.bind f).Sat Q E := by
  cases x with
  | done a s => exact hf a s hx
  | stop r s => exact hx

theorem Res.Sat.mono {α : Type} {x : Res α} {P Q : α → State → Prop} {E : Fault → State → Prop}
    (hx : x.Sat P E) (h : ∀ a s, P a s → Q a s) : x.Sat Q E := by
  cases x with
  | done a s => exact h a s hx
  | stop r s => exact hx

theorem Res.Sat.and {α : Type} {x : Res α} {P Q : α → State → Prop} {E : Fault → State → Prop}
    (hP : x.Sat P E) (hQ : ∀ a s, x = .done a s → Q a s) : x.Sat (fun a s => P a s ∧ Q a s) E := by
  cases x with
  | done a s => exact ⟨hP, hQ a s rfl⟩
  | stop r s => exact hP

@[simp] theorem loop_zero {α : Type} (body : α → State → Res α) (a : α) (s : State) :
    loop body 0 a s = .done a s := rfl

theorem loop_succ {α : Type} (body : α → State → Res α) (n : Nat) (a : α) (s : State) :
    loop body (n + 1) a s = (body a s).bind fun a' s' => loop body n a' s' := rfl

/-- A loop keeps what each of its rounds keeps. -/
theorem loop_sat {α : Type} {body : α → State → Res α} {P : α → State → Prop} {E : Fault → State → Prop}
    (h : ∀ a s, P a s → (body a s).Sat P E) (n : Nat) (a : α) (s : State) (hP : P a s) :
    (loop body n a s).Sat P E := by
  induction n generalizing a s with
  | zero => exact hP
  | succ n ih => exact (h a s hP).bind ih

/-- A loop that completes relates its ends by any reflexive, transitive relation its rounds keep. -/
theorem loop_rel {α : Type} {body : α → State → Res α} {R : State → State → Prop} (hrefl : ∀ s, R s s)
    (htrans : ∀ s t u, R s t → R t u → R s u) (h : ∀ a s b t, body a s = .done b t → R s t) (n : Nat) {a b : α}
    {s t : State} (hl : loop body n a s = .done b t) : R s t := by
  induction n generalizing a s with
  | zero =>
    simp only [loop_zero, Res.done.injEq] at hl
    exact hl.2 ▸ hrefl s
  | succ n ih =>
    obtain ⟨a', s', h1, h2⟩ := Res.bind_eq_done.mp hl
    exact htrans _ _ _ (h a s a' s' h1) (ih h2)

/-- `m + n` rounds are `m` rounds and then `n`. -/
theorem loop_add {α : Type} (body : α → State → Res α) (m n : Nat) (a : α) (s : State) :
    loop body (m + n) a s = (loop body m a s).bind fun a' s' => loop body n a' s' := by
  induction m generalizing a s with
  | zero => simp
  | succ m ih =>
    rw [Nat.add_right_comm, loop_succ, loop_succ, Res.bind_assoc]
    simp only [ih]

/-- The only stop a command of a legal core can meet: a fetch from an empty source region (60_exceptions.md R223). -/
def SourceStop (cfg : Config) (r : Fault) (_ : State) : Prop :=
  r = .sourceEmpty ∧ usableSize cfg = 0

/-- With a source region, an operation that can stop only for want of one completes. -/
theorem Res.Sat.completes {α : Type} {x : Res α} {P : α → State → Prop} {cfg : Config}
    (h : x.Sat P (SourceStop cfg)) (hU : SourceUsable cfg) : ∃ a t, x = .done a t ∧ P a t := by
  cases x with
  | done a t => exact ⟨a, t, rfl, h⟩
  | stop r t => exact absurd h.2 hU

/-- A fetch with a source region (40_source_fetch.md R101). -/
theorem fetch_done {s : State} (hU : SourceUsable s.cfg) :
    fetch s = .done (s.src.read (s.cfg.baseOffset + s.cursor.toNat % usableSize s.cfg))
      { s with cursor := BitVec.ofNat 32 (s.cursor.toNat % usableSize s.cfg + 1) } :=
  if_neg hU

/-- A fetch without one (60_exceptions.md R223). -/
theorem fetch_stuck {s : State} (hU : usableSize s.cfg = 0) : fetch s = .stop .sourceEmpty s :=
  if_pos hU

/-- A fetch writes the cursor alone. -/
theorem fetch_frame {s t : State} {b : Byte} (h : fetch s = .done b t) : t = { s with cursor := t.cursor } := by
  by_cases hU : usableSize s.cfg = 0
  · rw [fetch_stuck hU] at h
    cases h
  · rw [fetch_done hU] at h
    cases h
    rfl

theorem ringWrite_done {s : State} (b : Byte) (h : s.length ≠ s.cfg.ringCapacity) :
    ringWrite b s = .done () { s with
      ringData := s.ringData.write s.writeOffset b
      writeOffset := (s.writeOffset + 1) % s.cfg.ringCapacity
      length := s.length + 1 } :=
  if_neg h

theorem ringRead_done {s : State} (h : s.length ≠ 0) :
    ringRead s = .done (s.ringData.read s.readOffset) { s with
      readOffset := (s.readOffset + 1) % s.cfg.ringCapacity
      length := s.length - 1 } :=
  if_neg h

/-- Only the ring's storage, write offset and length differ. -/
def RingGrown (s t : State) : Prop :=
  t = { s with ringData := t.ringData, writeOffset := t.writeOffset, length := t.length }

theorem RingGrown.refl (s : State) : RingGrown s s := rfl

theorem RingGrown.trans {s t u : State} (h1 : RingGrown s t) (h2 : RingGrown t u) : RingGrown s u := by
  cases s
  cases t
  cases u
  simp only [RingGrown, State.mk.injEq] at *
  grind

/-- `RingWrite` writes the ring's storage, write offset and length alone, and adds one byte. -/
theorem ringWrite_frame {s t : State} {b : Byte} (h : ringWrite b s = .done () t) :
    RingGrown s t ∧ t.length = s.length + 1 := by
  by_cases hl : s.length = s.cfg.ringCapacity
  · rw [ringWrite, if_pos hl] at h
    cases h
  · rw [ringWrite_done b hl] at h
    cases h
    exact ⟨rfl, rfl⟩

/-- Writing a list of bytes writes the ring alone, and adds as many bytes. -/
theorem ringWriteAll_frame {bs : List Byte} {s t : State} (h : ringWriteAll bs s = .done () t) :
    RingGrown s t ∧ t.length = s.length + bs.length := by
  induction bs generalizing s with
  | nil =>
    cases h
    exact ⟨rfl, rfl⟩
  | cons b bs ih =>
    obtain ⟨_, s', h1, h2⟩ := Res.bind_eq_done.mp h
    have f1 := ringWrite_frame h1
    have f2 := ih h2
    refine ⟨f1.1.trans f2.1, ?_⟩
    rw [f2.2, f1.2, List.length_cons]
    omega

/-- With room, `RingWrite` completes and keeps the ring's invariant and canonical storage. -/
theorem ringWrite_sat {s : State} (b : Byte) (E : Fault → State → Prop) (hR : RingOk s) (hm : s.ringData.wf = true)
    (hroom : s.length < s.cfg.ringCapacity) :
    (ringWrite b s).Sat (fun _ t => RingGrown s t ∧ t.length = s.length + 1 ∧ RingOk t ∧ t.ringData.wf = true) E := by
  rw [ringWrite_done b (by omega)]
  refine ⟨rfl, rfl, ⟨hroom, hR.read_lt, Nat.mod_lt _ (by omega), ?_⟩, Memory.wf_write hm _ _⟩
  show (s.writeOffset + 1) % s.cfg.ringCapacity = (s.readOffset + (s.length + 1)) % s.cfg.ringCapacity
  rw [hR.write_eq, ← Nat.add_assoc]
  simp

/-- With room, writing a list of bytes completes and keeps the ring's invariant and canonical storage. -/
theorem ringWriteAll_sat (bs : List Byte) {s : State} (E : Fault → State → Prop) (hR : RingOk s)
    (hm : s.ringData.wf = true) (hroom : s.length + bs.length ≤ s.cfg.ringCapacity) :
    (ringWriteAll bs s).Sat
      (fun _ t => RingGrown s t ∧ t.length = s.length + bs.length ∧ RingOk t ∧ t.ringData.wf = true) E := by
  induction bs generalizing s with
  | nil => exact ⟨rfl, rfl, hR, hm⟩
  | cons b bs ih =>
    simp only [List.length_cons] at hroom ⊢
    refine (ringWrite_sat b E hR hm (by omega)).bind fun _ t ⟨hf, hl, hR', hm'⟩ => ?_
    have hcfg : t.cfg = s.cfg := by rw [hf]
    refine (ih hR' hm' (by rw [hl, hcfg]; omega)).mono fun _ u ⟨hf', hl', hR'', hm''⟩ => ?_
    exact ⟨hf.trans hf', by omega, hR'', hm''⟩

/-- What a non-empty ring's `RingRead` does to the invariant. -/
theorem ringRead_keeps {s : State} (hR : RingOk s) (h : s.length ≠ 0) :
    RingOk { s with readOffset := (s.readOffset + 1) % s.cfg.ringCapacity, length := s.length - 1 } := by
  have hlt := hR.read_lt
  refine ⟨?_, Nat.mod_lt _ (by omega), hR.write_lt, ?_⟩
  · have := hR.length_le
    show s.length - 1 ≤ s.cfg.ringCapacity
    omega
  · show s.writeOffset = ((s.readOffset + 1) % s.cfg.ringCapacity + (s.length - 1)) % s.cfg.ringCapacity
    rw [hR.write_eq, Nat.mod_add_mod]
    congr 1
    omega

end Sys2Proof.Machine
end

