-- ==== Sys2Proof/Laws/Arith.lean ====
section
/-! SUPPORT. What the arithmetic decoder can do: which registers it writes, and that it keeps its invariant
(41_arith_decoder.md R113 to R119). -/

namespace Sys2Proof.Machine

/-- Only the arithmetic registers, the cursor and the contexts differ. -/
def DecodeFrame (s t : State) : Prop :=
  t = { s with
    cursor := t.cursor, span := t.span, val := t.val, inputByte := t.inputByte
    inputBitsRemaining := t.inputBitsRemaining, ctx := t.ctx }

theorem DecodeFrame.refl (s : State) : DecodeFrame s s := rfl

theorem DecodeFrame.trans {s t u : State} (h1 : DecodeFrame s t) (h2 : DecodeFrame t u) : DecodeFrame s u := by
  cases s
  cases t
  cases u
  simp only [DecodeFrame, State.mk.injEq] at *
  grind

theorem DecodeFrame.cfg_eq {s t : State} (h : DecodeFrame s t) : t.cfg = s.cfg := by rw [h]

theorem fetch_decodeFrame {s t : State} {b : Byte} (h : fetch s = .done b t) : DecodeFrame s t := by
  have hf := fetch_frame h
  cases s
  cases t
  simp only [DecodeFrame, State.mk.injEq] at *
  grind

/-! ### The tables -/

/-- The tables of legal parameters pass their checks. -/
theorem tables_of_paramsLegal {cfg : Config} (h : ParamsLegal cfg) :
    evolutionTableLegal cfg.evolutionTable = true ∧ mode2TableLegal cfg.mode2ContextTable = true := by
  simp only [ParamsLegal, parameterRefusal, Bool.not_eq_true'] at h
  split_ifs at h with h1 h2 h3 h4 h5
  exact ⟨by simpa using h4, by simpa using h5⟩

/-- The numeric bounds of legal parameters. -/
theorem bounds_of_paramsLegal {cfg : Config} (h : ParamsLegal cfg) :
    1 ≤ cfg.refillThreshold ∧ cfg.refillThreshold + 17 ≤ cfg.ringCapacity ∧ 0x100000 ≤ cfg.imageSize := by
  simp only [ParamsLegal, parameterRefusal, Bool.not_eq_true'] at h
  split_ifs at h with h1 h2 h3 h4 h5
  omega

/-- The bounds of an entry of a legal evolution table (41_arith_decoder.md R110). -/
theorem entry_legal {cfg : Config} (h : ParamsLegal cfg) (i : Nat) (hi : i < 53) :
    cfg.evolutionTable[i].nextOnLPS ≤ 52 ∧ cfg.evolutionTable[i].nextOnMPS ≤ 52 ∧
      1 ≤ cfg.evolutionTable[i].probability.toNat ∧ cfg.evolutionTable[i].probability.toNat ≤ 0x7e := by
  have hall := (tables_of_paramsLegal h).1
  rw [evolutionTableLegal, List.all_eq_true] at hall
  have he := hall cfg.evolutionTable[i] (by simp)
  simpa [evolutionEntryLegal, and_assoc] using he

/-! ### The lookup -/

/-- The lookup of a legal context (41_arith_decoder.md R112). -/
theorem lookupContext_done {con : Nat} {s : State} (hc : con < 32) (hctx : ContextsOk s) :
    lookupContext con s =
      .done (s.ctx[con], s.cfg.evolutionTable[s.ctx[con].stateIndex.toNat]'(by have := hctx con hc; omega)) s := by
  have h := hctx con hc
  unfold lookupContext
  rw [dif_pos hc, dif_pos (by omega)]

/-- A lookup writes nothing and answers the context it was asked for. -/
theorem lookupContext_frame {con : Nat} {s t : State} {ce : Context × EvolutionEntry}
    (h : lookupContext con s = .done ce t) : t = s ∧ ∃ hc : con < 32, ce.1 = s.ctx[con] := by
  unfold lookupContext at h
  split at h
  · rename_i hc
    split at h
    · cases h
      exact ⟨rfl, hc, rfl⟩
    · cases h
  · cases h

/-! ### The interval split -/

/-- The split writes `span` and `val` alone. -/
theorem intervalSplit_frame (prob : BitVec 8) (s : State) :
    (intervalSplit prob s).2 = { s with span := (intervalSplit prob s).2.span, val := (intervalSplit prob s).2.val } := by
  unfold intervalSplit
  split <;> rfl

/-- With a legal probability and the decoder's invariant the split keeps `val ≤ span`, and no register wraps
(41_arith_decoder.md R113, R119). -/
theorem intervalSplit_values {prob : BitVec 8} {s : State} (h1 : 1 ≤ prob.toNat) (h2 : prob.toNat ≤ 0x7e)
    (hspan : 0x7f ≤ s.span.toNat) (hval : s.val.toNat ≤ s.span.toNat) :
    (s.val.toNat + prob.toNat ≤ s.span.toNat →
      (intervalSplit prob s).1 = false ∧ (intervalSplit prob s).2.span.toNat = s.span.toNat - prob.toNat ∧
        (intervalSplit prob s).2.val = s.val) ∧
    (s.span.toNat < s.val.toNat + prob.toNat →
      (intervalSplit prob s).1 = true ∧ (intervalSplit prob s).2.span.toNat = prob.toNat - 1 ∧
        (intervalSplit prob s).2.val.toNat = s.val.toNat + prob.toNat - s.span.toNat - 1) := by
  have hs := s.span.isLt
  have hv := s.val.isLt
  constructor
  · intro h
    have hf : isLPS prob s.span s.val = false := by simp [isLPS, h]
    simp only [intervalSplit, hf, Bool.false_eq_true, if_false, true_and, and_true]
    rw [BitVec.toNat_sub]
    omega
  · intro h
    have hf : isLPS prob s.span s.val = true := by simp [isLPS]; omega
    simp only [intervalSplit, hf, if_true, true_and]
    have hp : (prob - 1#8).toNat = prob.toNat - 1 := by
      rw [BitVec.toNat_sub]
      simp
      omega
    refine ⟨hp, ?_⟩
    have hd : (s.span - (prob - 1#8)).toNat = s.span.toNat + 1 - prob.toNat := by
      rw [BitVec.toNat_sub, hp]
      omega
    rw [BitVec.toNat_sub, hd]
    omega

/-! ### Renormalization -/

/-- An iteration writes the arithmetic registers and the cursor alone. -/
theorem renormStep_frame {s t : State} (h : renormStep s = .done () t) : DecodeFrame s t := by
  unfold renormStep at h
  simp only at h
  split at h
  · obtain ⟨b, s2, h1, h2⟩ := Res.bind_eq_done.mp h
    have hf := fetch_frame h1
    cases h2
    unfold DecodeFrame
    rw [hf]
  · cases h
    rfl

theorem renormLoop_frame {fuel shift n : Nat} {s t : State} (h : renormLoop fuel shift s = .done n t) :
    DecodeFrame s t := by
  induction fuel generalizing shift s with
  | zero =>
    cases h
    rfl
  | succ fuel ih =>
    rw [renormLoop] at h
    split at h
    · obtain ⟨_, s', h1, h2⟩ := Res.bind_eq_done.mp h
      exact (renormStep_frame h1).trans (ih h2)
    · cases h
      rfl

/-- An iteration writes no context. -/
theorem renormStep_ctx {s t : State} (h : renormStep s = .done () t) : t.ctx = s.ctx := by
  unfold renormStep at h
  simp only at h
  split at h
  · obtain ⟨b, s2, h1, h2⟩ := Res.bind_eq_done.mp h
    cases h2
    rw [fetch_frame h1]
  · cases h
    rfl

/-- Renormalization writes no context. -/
theorem renormLoop_ctx {fuel shift n : Nat} {s t : State} (h : renormLoop fuel shift s = .done n t) :
    t.ctx = s.ctx := by
  induction fuel generalizing shift s with
  | zero =>
    cases h
    rfl
  | succ fuel ih =>
    rw [renormLoop] at h
    split at h
    · obtain ⟨_, s', h1, h2⟩ := Res.bind_eq_done.mp h
      exact (ih h2).trans (renormStep_ctx h1)
    · cases h
      rfl

/-- A renormalization that completes is as many iterations as it counts (41_arith_decoder.md R114). -/
theorem renormLoop_iterates {fuel shift n : Nat} {s t : State} (h : renormLoop fuel shift s = .done n t) :
    shift ≤ n ∧ loop (fun _ : Unit => renormStep) (n - shift) () s = .done () t := by
  induction fuel generalizing shift s with
  | zero =>
    cases h
    simp
  | succ fuel ih =>
    rw [renormLoop] at h
    split at h
    · obtain ⟨_, s1, h1, h2⟩ := Res.bind_eq_done.mp h
      obtain ⟨hle, hl⟩ := ih h2
      refine ⟨by omega, ?_⟩
      rw [show n - shift = n - (shift + 1) + 1 by omega, loop_succ, h1]
      exact hl
    · cases h
      simp

/-- What one iteration leaves, given `val ≤ span < 0x7f` and a bit left (41_arith_decoder.md R114, R119). -/
theorem renormStep_sat {s : State} (hspan : s.span.toNat < 0x7f) (hval : s.val.toNat ≤ s.span.toNat)
    (hb1 : 1 ≤ s.inputBitsRemaining.toNat) (hb2 : s.inputBitsRemaining.toNat ≤ 8) :
    (renormStep s).Sat
      (fun _ t => t.span.toNat = 2 * s.span.toNat + 1 ∧ t.val.toNat ≤ t.span.toNat ∧
        1 ≤ t.inputBitsRemaining.toNat ∧ t.inputBitsRemaining.toNat ≤ 8 ∧ t.ctx = s.ctx ∧ t.cfg = s.cfg)
      (SourceStop s.cfg) := by
  have hbit : ((BitVec.ofBool s.inputByte.msb).setWidth 8).toNat ≤ 1 := by
    cases s.inputByte.msb <;> decide
  have e1 : (s.span * 2#8 + 1#8).toNat = 2 * s.span.toNat + 1 := by
    rw [BitVec.toNat_add, BitVec.toNat_mul]
    simp
    omega
  have e2 : (s.val * 2#8 + (BitVec.ofBool s.inputByte.msb).setWidth 8).toNat ≤ 2 * s.span.toNat + 1 := by
    rw [BitVec.toNat_add, BitVec.toNat_mul]
    simp only [BitVec.toNat_ofNat]
    omega
  have e3 : (s.inputBitsRemaining - 1#4).toNat = s.inputBitsRemaining.toNat - 1 := by
    rw [BitVec.toNat_sub]
    have := s.inputBitsRemaining.isLt
    simp
    omega
  unfold renormStep
  simp only
  split
  · by_cases hU : usableSize s.cfg = 0
    · rw [fetch_stuck (by exact hU)]
      exact ⟨rfl, hU⟩
    · rw [fetch_done (by exact hU)]
      exact ⟨e1, e1 ▸ e2, (by decide : 1 ≤ (8#4).toNat), (by decide : (8#4).toNat ≤ 8), rfl, rfl⟩
  · rename_i hne
    refine ⟨e1, e1 ▸ e2, ?_, by rw [e3]; omega, rfl, rfl⟩
    rw [e3]
    have : (s.inputBitsRemaining - 1#4).toNat ≠ 0 := fun h => hne (BitVec.eq_of_toNat_eq (by simpa using h))
    omega

/-- `fuel` iterations are enough from any `span` with `(span + 1) * 2 ^ fuel ≥ 0x80`. -/
theorem renormLoop_sat {fuel shift : Nat} {s : State} (hfuel : 0x80 ≤ (s.span.toNat + 1) * 2 ^ fuel)
    (hval : s.val.toNat ≤ s.span.toNat) (hb1 : 1 ≤ s.inputBitsRemaining.toNat) (hb2 : s.inputBitsRemaining.toNat ≤ 8) :
    (renormLoop fuel shift s).Sat
      (fun n t => ArithOk t ∧ t.ctx = s.ctx ∧ t.cfg = s.cfg ∧ shift ≤ n ∧ n ≤ shift + fuel)
      (SourceStop s.cfg) := by
  induction fuel generalizing shift s with
  | zero =>
    exact ⟨⟨by omega, hval, hb1, hb2⟩, rfl, rfl, le_rfl, le_rfl⟩
  | succ fuel ih =>
    rw [renormLoop]
    split
    · rename_i hlt
      refine (renormStep_sat hlt hval hb1 hb2).bind fun _ t ⟨hs, hv, h1, h2, hc, hcfg⟩ => ?_
      have hfuel' : 0x80 ≤ (t.span.toNat + 1) * 2 ^ fuel := by
        have : (t.span.toNat + 1) * 2 ^ fuel = (s.span.toNat + 1) * 2 ^ (fuel + 1) := by
          rw [hs, pow_succ]
          ring
        omega
      have := ih (shift := shift + 1) hfuel' hv h1 h2
      rw [hcfg] at this
      refine this.mono fun n u ⟨ha, hc', hcfg', hn1, hn2⟩ => ?_
      exact ⟨ha, hc'.trans hc, hcfg', by omega, by omega⟩
    · exact ⟨⟨by omega, hval, hb1, hb2⟩, rfl, rfl, le_rfl, by omega⟩

/-- Renormalization restores the decoder's invariant in at most seven iterations (41_arith_decoder.md R114, R119). -/
theorem renormalize_sat {s : State} (hval : s.val.toNat ≤ s.span.toNat) (hb1 : 1 ≤ s.inputBitsRemaining.toNat)
    (hb2 : s.inputBitsRemaining.toNat ≤ 8) :
    (renormalize s).Sat (fun n t => ArithOk t ∧ t.ctx = s.ctx ∧ t.cfg = s.cfg ∧ n ≤ 7) (SourceStop s.cfg) := by
  refine (renormLoop_sat (fuel := 7) (shift := 0) ?_ hval hb1 hb2).mono fun n t ⟨h1, h2, h3, _, h5⟩ => ⟨h1, h2, h3, by omega⟩
  omega

/-! ### One symbol -/

/-- A decode writes the arithmetic registers, the cursor and its own context alone, and returns the context's `invert`
from before (41_arith_decoder.md R116). -/
theorem decodeSymbol_frame {con : Nat} {s t : State} {sym : Symbol} (h : decodeSymbol con s = .done sym t) :
    DecodeFrame s t ∧ (∃ hc : con < 32, sym.invertUsed = s.ctx[con].invert) ∧
      ∀ (j : Nat) (hj : j < 32), j ≠ con → t.ctx[j] = s.ctx[j] := by
  obtain ⟨ce, s0, h1, h2⟩ := Res.bind_eq_done.mp h
  obtain ⟨rfl, hc, hce⟩ := lookupContext_frame h1
  obtain ⟨n, s2, h3, h4⟩ := Res.bind_eq_done.mp h2
  have hsplit : DecodeFrame s0 (intervalSplit ce.2.probability s0).2 := by
    unfold DecodeFrame
    rw [intervalSplit_frame]
  have hf := hsplit.trans (renormLoop_frame h3)
  have hctx2 : s2.ctx = s0.ctx := by rw [renormLoop_ctx h3, intervalSplit_frame]
  cases h4
  refine ⟨?_, ⟨hc, by rw [← hce]⟩, fun j hj hne => ?_⟩
  · refine hf.trans ?_
    rfl
  · simp only [updateContext_ctx, hctx2]
    rw [Vector.getElem_setIfInBounds_ne _ (Ne.symm hne)]

/-- The state of a stream being decoded under given legal parameters. -/
structure StreamOk (cfg : Config) (s : State) : Prop where
  cfg_eq : s.cfg = cfg
  arith : ArithOk s
  contexts : ContextsOk s

/-- A decode against a legal context completes, unless the source region is empty, and keeps the decoder's and the
contexts' invariants (41_arith_decoder.md R116, R119). -/
theorem decodeSymbol_sat {cfg : Config} {con : Nat} {s : State} (hp : ParamsLegal cfg) (hc : con < 32)
    (hs : StreamOk cfg s) :
    (decodeSymbol con s).Sat (fun sym t => StreamOk cfg t ∧ sym.shift ≤ 7) (SourceStop cfg) := by
  obtain ⟨rfl, ha, hctx⟩ := hs
  have hi := hctx con hc
  obtain ⟨e1, e2, e3, e4⟩ := entry_legal hp s.ctx[con].stateIndex.toNat (by omega)
  unfold decodeSymbol
  rw [lookupContext_done hc hctx, Res.bind_done]
  simp only
  generalize he : s.cfg.evolutionTable[s.ctx[con].stateIndex.toNat]'(by omega) = e at e1 e2 e3 e4
  obtain ⟨hM, hL⟩ := intervalSplit_values e3 e4 ha.span_ge ha.val_le
  have hframe := intervalSplit_frame e.probability s
  generalize intervalSplit e.probability s = sp at hM hL hframe
  have hval : sp.2.val.toNat ≤ sp.2.span.toNat := by
    rcases Nat.lt_or_ge s.span.toNat (s.val.toNat + e.probability.toNat) with hlt | hge
    · obtain ⟨_, h1, h2⟩ := hL hlt
      have := ha.val_le
      omega
    · obtain ⟨_, h1, h2⟩ := hM hge
      rw [h1, h2]
      omega
  have hbits : sp.2.inputBitsRemaining = s.inputBitsRemaining := by rw [hframe]
  have hctx' : sp.2.ctx = s.ctx := by rw [hframe]
  have hcfg' : sp.2.cfg = s.cfg := by rw [hframe]
  have hr := renormalize_sat (s := sp.2) hval (hbits ▸ ha.bits_pos) (hbits ▸ ha.bits_le)
  rw [hcfg'] at hr
  refine hr.bind fun n t ⟨hat, hct, hcfgt, hn⟩ => ?_
  refine ⟨⟨hcfgt, ⟨hat.span_ge, hat.val_le, hat.bits_pos, hat.bits_le⟩, fun j hj => ?_⟩, hn⟩
  simp only [updateContext_ctx, hct, hctx']
  by_cases hjc : j = con
  · subst hjc
    rw [Vector.getElem_setIfInBounds_self]
    unfold contextAfter
    simp only
    split
    · rw [BitVec.toNat_ofNat]
      omega
    · split
      · rw [BitVec.toNat_ofNat]
        omega
      · exact hctx j hj
  · rw [Vector.getElem_setIfInBounds_ne _ (Ne.symm hjc)]
    exact hctx j hj

/-- Priming writes the arithmetic registers and the cursor alone. -/
theorem prime_frame {s t : State} (h : prime s = .done () t) : DecodeFrame s t ∧ t.ctx = s.ctx := by
  obtain ⟨b1, s1, h1, h2⟩ := Res.bind_eq_done.mp h
  obtain ⟨b2, s2, h3, h4⟩ := Res.bind_eq_done.mp h2
  have f1 := fetch_frame h1
  have f2 := fetch_frame h3
  cases h4
  unfold DecodeFrame
  rw [f2, f1]
  exact ⟨rfl, rfl⟩

/-- Priming with a source region, in full (41_arith_decoder.md R118). -/
theorem prime_done {s : State} (hU : SourceUsable s.cfg) :
    prime s = .done () { s with
      span := 0xff#8
      val := s.src.read (s.cfg.baseOffset + s.cursor.toNat % usableSize s.cfg)
      inputByte := s.src.read (s.cfg.baseOffset +
        (BitVec.ofNat 32 (s.cursor.toNat % usableSize s.cfg + 1)).toNat % usableSize s.cfg)
      inputBitsRemaining := 8#4
      cursor := BitVec.ofNat 32
        ((BitVec.ofNat 32 (s.cursor.toNat % usableSize s.cfg + 1)).toNat % usableSize s.cfg + 1) } := by
  unfold prime
  rw [fetch_done (by exact hU), Res.bind_done, fetch_done (by exact hU), Res.bind_done]

/-- Priming without one stops at its first fetch (60_exceptions.md R223). -/
theorem prime_stuck {s : State} (hU : usableSize s.cfg = 0) :
    prime s = .stop .sourceEmpty { s with span := 0xff#8 } := by
  unfold prime
  rw [fetch_stuck (by exact hU), Res.bind_stop]

end Sys2Proof.Machine
end

