-- ==== Sys2Proof/Laws/Mode0.lean ====
section
/-! SUPPORT. What a mode 0 unit can do (43_mode0.md). -/

namespace Sys2Proof.Machine

/-- The registers mode 0's bits write: no other differs. -/
def Mode0Bits (s t : State) : Prop :=
  t = { s with
    cursor := t.cursor, span := t.span, val := t.val, inputByte := t.inputByte
    inputBitsRemaining := t.inputBitsRemaining, ctx := t.ctx
    lpsHistory := t.lpsHistory, invertHistory := t.invertHistory, out := t.out }

/-- The registers a mode 0 unit writes (43_mode0.md R141): no other differs. -/
def Mode0Frame (s t : State) : Prop :=
  t = { s with
    cursor := t.cursor, span := t.span, val := t.val, inputByte := t.inputByte
    inputBitsRemaining := t.inputBitsRemaining, ctx := t.ctx
    lpsHistory := t.lpsHistory, invertHistory := t.invertHistory, out := t.out
    ringData := t.ringData, writeOffset := t.writeOffset, length := t.length }

theorem Mode0Bits.trans {s t u : State} (h1 : Mode0Bits s t) (h2 : Mode0Bits t u) : Mode0Bits s u := by
  cases s
  cases t
  cases u
  simp only [Mode0Bits, State.mk.injEq] at *
  grind

theorem Mode0Frame.trans {s t u : State} (h1 : Mode0Frame s t) (h2 : Mode0Frame t u) : Mode0Frame s u := by
  cases s
  cases t
  cases u
  simp only [Mode0Frame, State.mk.injEq] at *
  grind

theorem DecodeFrame.mode0 {s t : State} (h : DecodeFrame s t) : Mode0Bits s t := by
  unfold Mode0Bits
  rw [h]

theorem Mode0Bits.frame {s t : State} (h : Mode0Bits s t) : Mode0Frame s t := by
  unfold Mode0Frame
  rw [h]

theorem RingGrown.mode0 {s t : State} (h : RingGrown s t) : Mode0Frame s t := by
  unfold Mode0Frame
  rw [h]

/-- A masked word is at most its mask. -/
theorem toNat_xor_and_mask_lt (x y : Word) (k : Nat) (hk : k < 4) :
    ((x &&& ((1#32 <<< k) - 1#32)) ^^^ (y &&& ((1#32 <<< k) - 1#32))).toNat < 2 ^ k := by
  have hm : (1#32 <<< k) - 1#32 = BitVec.ofNat 32 (2 ^ k - 1) := by
    have : k = 0 ∨ k = 1 ∨ k = 2 ∨ k = 3 := by omega
    rcases this with rfl | rfl | rfl | rfl <;> decide
  have hlt : 2 ^ k - 1 < 2 ^ 32 := by
    have : 2 ^ k ≤ 2 ^ 3 := Nat.pow_le_pow_right (by omega) (by omega)
    omega
  rw [hm, BitVec.toNat_xor, BitVec.toNat_and, BitVec.toNat_and, BitVec.toNat_ofNat, Nat.mod_eq_of_lt hlt,
    Nat.and_two_pow_sub_one_eq_mod, Nat.and_two_pow_sub_one_eq_mod]
  exact Nat.xor_lt_two_pow (Nat.mod_lt _ (Nat.two_pow_pos k)) (Nat.mod_lt _ (Nat.two_pow_pos k))

/-- Mode 0 addresses contexts 0 to 29 alone (43_mode0.md R142). -/
theorem mode0Context_lt (bitIdx : Nat) (s : State) : mode0Context bitIdx s < 30 := by
  have hk : bitIdx % 4 < 4 := Nat.mod_lt _ (by omega)
  have hx := toNat_xor_and_mask_lt s.invertHistory s.lpsHistory (bitIdx % 4) hk
  have hm : ((1#32 <<< (bitIdx % 4)) - 1#32).toNat = 2 ^ (bitIdx % 4) - 1 := by
    have : bitIdx % 4 = 0 ∨ bitIdx % 4 = 1 ∨ bitIdx % 4 = 2 ∨ bitIdx % 4 = 3 := by omega
    rcases this with h | h | h | h <;> rw [h] <;> decide
  have hp : 2 ^ (bitIdx % 4) ≤ 2 ^ 3 := Nat.pow_le_pow_right (by omega) (by omega)
  unfold mode0Context
  simp only [hm]
  split <;> omega

theorem mode0Bit_frame {i j : Nat} {s t : State} (h : mode0Bit i s = .done j t) : Mode0Bits s t := by
  obtain ⟨sym, s1, h1, h2⟩ := Res.bind_eq_done.mp h
  have hf := (decodeSymbol_frame h1).1
  cases h2
  exact hf.mode0.trans rfl

/-- A mode 0 unit writes mode 0's registers alone and adds one byte to the ring (43_mode0.md R141, R144). -/
theorem mode0Unit_frame {s t : State} (h : mode0Unit s = .done () t) :
    Mode0Frame s t ∧ t.length = s.length + 1 := by
  obtain ⟨_, s1, h1, h2⟩ := Res.bind_eq_done.mp h
  have hb : Mode0Bits s s1 :=
    loop_rel (R := Mode0Bits) (fun _ => rfl) (fun _ _ _ => Mode0Bits.trans) (fun _ _ _ _ => mode0Bit_frame) 8 h1
  have hw := ringWrite_frame h2
  refine ⟨hb.frame.trans hw.1.mode0, ?_⟩
  rw [hw.2, hb]

theorem mode0Bit_sat {cfg : Config} (hp : ParamsLegal cfg) (i : Nat) {s : State} (hs : StreamOk cfg s) :
    (mode0Bit i s).Sat (fun _ t => StreamOk cfg t) (SourceStop cfg) := by
  have hc := mode0Context_lt i s
  refine (decodeSymbol_sat hp (by omega) hs).bind fun sym t ⟨ht, _⟩ => ?_
  exact ⟨ht.cfg_eq, ⟨ht.arith.span_ge, ht.arith.val_le, ht.arith.bits_pos, ht.arith.bits_le⟩, ht.contexts⟩

/-- With room in the ring a mode 0 unit completes, unless the source region is empty, and keeps every invariant. -/
theorem mode0Unit_sat {s : State} (hp : ParamsLegal s.cfg) (hs : StreamOk s.cfg s) (hR : RingOk s)
    (hm : s.ringData.wf = true) (hroom : s.length < s.cfg.ringCapacity) :
    (mode0Unit s).Sat
      (fun _ t => Mode0Frame s t ∧ t.length = s.length + 1 ∧ StreamOk s.cfg t ∧ RingOk t ∧ t.ringData.wf = true)
      (SourceStop s.cfg) := by
  have hbits := (loop_sat (P := fun (_ : Nat) t => StreamOk s.cfg t) (fun i _ => mode0Bit_sat hp i) 8 0 s hs).and
    fun _ _ h => loop_rel (R := Mode0Bits) (fun _ => rfl) (fun _ _ _ => Mode0Bits.trans)
      (fun _ _ _ _ => mode0Bit_frame) 8 h
  refine hbits.bind ?_
  rintro _ t ⟨ht, hf⟩
  have e1 : t.length = s.length := by rw [hf]
  have e2 : t.ringData = s.ringData := by rw [hf]
  have e3 : t.readOffset = s.readOffset := by rw [hf]
  have e4 : t.writeOffset = s.writeOffset := by rw [hf]
  have e5 := ht.cfg_eq
  have hRt : RingOk t := ⟨by rw [e1, e5]; exact hR.length_le, by rw [e3, e5]; exact hR.read_lt,
    by rw [e4, e5]; exact hR.write_lt, by rw [e4, e3, e1, e5]; exact hR.write_eq⟩
  refine (ringWrite_sat _ _ hRt (e2 ▸ hm) (by rw [e1, e5]; exact hroom)).mono fun _ u ⟨hg, hl, hRu, hmu⟩ => ?_
  refine ⟨hf.frame.trans hg.mode0, by omega, ?_, hRu, hmu⟩
  rw [hg]
  exact ⟨ht.cfg_eq, ⟨ht.arith.span_ge, ht.arith.val_le, ht.arith.bits_pos, ht.arith.bits_le⟩, ht.contexts⟩

end Sys2Proof.Machine
end

