-- ==== Sys2Proof/Laws/PixelOrder.lean ====
section
/-! SUPPORT. What move-to-front and the per-pixel ranking can do (44_mode1.md R153, R154). -/

namespace Sys2Proof.Machine

/-- Move-to-front of a value the list holds, as a list. -/
theorem mtf_toList {n : Nat} {o r : Vector (BitVec 4) n} {v : BitVec 4} (h : mtf o v = some r) :
    v ∈ o.toList ∧ r.toList = v :: o.toList.erase v := by
  unfold mtf at h
  split at h
  · rename_i hv
    cases h
    exact ⟨hv, rfl⟩
  · cases h

/-- Move-to-front is defined exactly on the values the list holds. -/
theorem mtf_isSome {n : Nat} (o : Vector (BitVec 4) n) (v : BitVec 4) : (mtf o v).isSome = true ↔ v ∈ o.toList := by
  unfold mtf
  split <;> simp_all

/-- Move-to-front of a permutation is a permutation. -/
theorem mtf_perm {n : Nat} {o r : Vector (BitVec 4) n} {v : BitVec 4} (h : mtf o v = some r) :
    r.toList.Perm o.toList := by
  obtain ⟨hv, hr⟩ := mtf_toList h
  rw [hr]
  exact (List.perm_cons_erase hv).symm

/-- Move-to-front as an operation writes nothing, and completes on a value the list holds. -/
theorem moveToFront_sat {n : Nat} {o : Vector (BitVec 4) n} {v : BitVec 4} (hv : v ∈ o.toList) (s : State)
    (E : Fault → State → Prop) :
    (moveToFront o v s).Sat (fun r t => t = s ∧ mtf o v = some r ∧ r.toList.Perm o.toList) E := by
  obtain ⟨r, hr⟩ := Option.isSome_iff_exists.mp ((mtf_isSome o v).mpr hv)
  simp only [moveToFront, hr, Res.sat_done, true_and]
  exact mtf_perm hr

theorem moveToFront_frame {n : Nat} {o r : Vector (BitVec 4) n} {v : BitVec 4} {s t : State}
    (h : moveToFront o v s = .done r t) : t = s ∧ mtf o v = some r := by
  unfold moveToFront at h
  split at h
  · cases h
    exact ⟨rfl, by assumption⟩
  · cases h

/-- The ranking writes nothing, completes on values the list holds, and is a permutation of it. -/
theorem realOrder_sat {n : Nat} {o : Vector (BitVec 4) n} {r : RefPixels} (ha : r.a ∈ o.toList) (hb : r.b ∈ o.toList)
    (hc : r.c ∈ o.toList) (s : State) (E : Fault → State → Prop) :
    (realOrder o r s).Sat (fun q t => t = s ∧ q.toList.Perm o.toList) E := by
  refine (moveToFront_sat hc s E).bind fun o1 s1 ⟨h1, _, p1⟩ => ?_
  subst h1
  refine (moveToFront_sat (p1.mem_iff.mpr hb) s1 E).bind fun o2 s2 ⟨h2, _, p2⟩ => ?_
  subst h2
  refine (moveToFront_sat (p2.mem_iff.mpr (p1.mem_iff.mpr ha)) s2 E).mono fun o3 s3 ⟨h3, _, p3⟩ => ?_
  exact ⟨h3, p3.trans (p2.trans p1)⟩

theorem realOrder_frame {n : Nat} {o q : Vector (BitVec 4) n} {r : RefPixels} {s t : State}
    (h : realOrder o r s = .done q t) : t = s := by
  obtain ⟨o1, s1, h1, h'⟩ := Res.bind_eq_done.mp h
  obtain ⟨o2, s2, h2, h3⟩ := Res.bind_eq_done.mp h'
  rw [(moveToFront_frame h3).1, (moveToFront_frame h2).1, (moveToFront_frame h1).1]

/-- Mode 1 reads back the four entries it wrote. -/
@[simp] theorem firstFour_withFirstFour (o : Vector (BitVec 4) 16) (f : Vector (BitVec 4) 4) :
    firstFour (withFirstFour o f) = f := by
  ext i hi
  match i, hi with
  | 0, _ => simp [firstFour, withFirstFour]
  | 1, _ => simp [firstFour, withFirstFour]
  | 2, _ => simp [firstFour, withFirstFour]
  | 3, _ => simp [firstFour, withFirstFour]

/-- Mode 1 leaves entries 4 to 15 alone. -/
theorem withFirstFour_getElem_of_le (o : Vector (BitVec 4) 16) (f : Vector (BitVec 4) 4) (j : Nat) (h4 : 4 ≤ j)
    (hj : j < 16) : (withFirstFour o f)[j] = o[j] := by
  unfold withFirstFour
  rw [Vector.getElem_set_ne, Vector.getElem_set_ne, Vector.getElem_set_ne, Vector.getElem_set_ne] <;> omega

/-- Every 2-bit value, widened, is one of mode 1's four. -/
theorem mem_four (x : BitVec 2) : x.setWidth 4 ∈ [0#4, 1#4, 2#4, 3#4] := by
  revert x
  decide

/-- Every 4-bit value is one of mode 2's sixteen. -/
theorem mem_sixteen (x : BitVec 4) : x ∈ identityOrder.toList := by
  revert x
  decide

end Sys2Proof.Machine
end

