-- ==== Sys2Proof/Laws/Mode1.lean ====
section
/-! SUPPORT. What a mode 1 unit can do (44_mode1.md). -/

namespace Sys2Proof.Machine

/-- The registers mode 1's pixels write: no other differs. -/
def Mode1Pixels (s t : State) : Prop :=
  t = { s with
    cursor := t.cursor, span := t.span, val := t.val, inputByte := t.inputByte
    inputBitsRemaining := t.inputBitsRemaining, ctx := t.ctx
    lpsHistory := t.lpsHistory, invertHistory := t.invertHistory, out := t.out, pixelOrder := t.pixelOrder }

/-- Mode 1 leaves entries 4 to 15 of the pixel order alone (10_state.md R30). -/
def UpperOrderKept (s t : State) : Prop :=
  ∀ (j : Nat) (_ : 4 ≤ j) (hj : j < 16), t.pixelOrder[j] = s.pixelOrder[j]

/-- The registers a mode 1 unit writes (44_mode1.md R151): no other differs. -/
def Mode1Frame (s t : State) : Prop :=
  t = { s with
    cursor := t.cursor, span := t.span, val := t.val, inputByte := t.inputByte
    inputBitsRemaining := t.inputBitsRemaining, ctx := t.ctx
    lpsHistory := t.lpsHistory, invertHistory := t.invertHistory, out := t.out, pixelOrder := t.pixelOrder
    ringData := t.ringData, writeOffset := t.writeOffset, length := t.length }

theorem Mode1Pixels.trans {s t u : State} (h1 : Mode1Pixels s t) (h2 : Mode1Pixels t u) : Mode1Pixels s u := by
  cases s
  cases t
  cases u
  simp only [Mode1Pixels, State.mk.injEq] at *
  grind

theorem Mode1Frame.trans {s t u : State} (h1 : Mode1Frame s t) (h2 : Mode1Frame t u) : Mode1Frame s u := by
  cases s
  cases t
  cases u
  simp only [Mode1Frame, State.mk.injEq] at *
  grind

theorem DecodeFrame.mode1 {s t : State} (h : DecodeFrame s t) : Mode1Pixels s t := by
  unfold Mode1Pixels
  rw [h]

theorem Mode1Pixels.frame {s t : State} (h : Mode1Pixels s t) : Mode1Frame s t := by
  unfold Mode1Frame
  rw [h]

theorem RingGrown.mode1 {s t : State} (h : RingGrown s t) : Mode1Frame s t := by
  unfold Mode1Frame
  rw [h]

/-- The equality class is at most 4 (44_mode1.md R152). -/
theorem refcon_le (a b c : BitVec 4) : refcon a b c ≤ 4 := by
  unfold refcon
  split_ifs <;> omega

/-- A history bit adds at most 1 to the second context (44_mode1.md R155). -/
theorem mode1NextContext_le (con : Nat) (s : State) : mode1NextContext con s ≤ 6 + 2 * con := by
  have h : (historyXor s &&& 1#32).toNat ≤ 1 := by
    rw [BitVec.toNat_and]
    exact Nat.and_le_right
  unfold mode1NextContext
  omega

theorem mode1Symbol_frame {con next : Nat} {s t : State} (h : mode1Symbol con s = .done next t) :
    Mode1Pixels s t ∧ t.pixelOrder = s.pixelOrder := by
  obtain ⟨sym, s1, h1, h2⟩ := Res.bind_eq_done.mp h
  have hf := (decodeSymbol_frame h1).1
  cases h2
  refine ⟨hf.mode1.trans rfl, ?_⟩
  rw [hf]
  rfl

theorem mode1Pixel_frame {s t : State} (h : mode1Pixel () s = .done () t) :
    Mode1Pixels s t ∧ UpperOrderKept s t := by
  obtain ⟨order, s0, h0, h'⟩ := Res.bind_eq_done.mp h
  obtain ⟨ranking, s2, h2, h''⟩ := Res.bind_eq_done.mp h'
  obtain ⟨_, s3, h3, h4⟩ := Res.bind_eq_done.mp h''
  have e0 := (moveToFront_frame h0).1
  have e2 := realOrder_frame h2
  have hs := loop_rel (R := fun a b => Mode1Pixels a b ∧ b.pixelOrder = a.pixelOrder) (fun _ => ⟨rfl, rfl⟩)
    (fun _ _ _ p q => ⟨p.1.trans q.1, q.2.trans p.2⟩) (fun _ _ _ _ => mode1Symbol_frame) 2 h3
  subst e0
  subst e2
  cases h4
  have hA : Mode1Pixels s0 { s0 with pixelOrder := withFirstFour s0.pixelOrder order } := rfl
  refine ⟨(hA.trans hs.1).trans rfl, fun j h4 hj => ?_⟩
  simp only [hs.2]
  exact withFirstFour_getElem_of_le _ _ j h4 hj

theorem mode1Pixels_loop_frame {n : Nat} {s t : State} (h : loop mode1Pixel n () s = .done () t) :
    Mode1Pixels s t ∧ UpperOrderKept s t :=
  loop_rel (R := fun a b => Mode1Pixels a b ∧ UpperOrderKept a b) (fun _ => ⟨rfl, fun _ _ _ => rfl⟩)
    (fun _ _ _ p q => ⟨p.1.trans q.1, fun j h hj => (q.2 j h hj).trans (p.2 j h hj)⟩)
    (fun _ _ _ _ hb => mode1Pixel_frame hb) n h

/-- A mode 1 unit writes mode 1's registers alone and adds two bytes to the ring (44_mode1.md R151, R158). -/
theorem mode1Unit_frame {s t : State} (h : mode1Unit s = .done () t) :
    Mode1Frame s t ∧ UpperOrderKept s t ∧ t.length = s.length + 2 := by
  obtain ⟨_, s1, h1, h2⟩ := Res.bind_eq_done.mp h
  have hp := mode1Pixels_loop_frame h1
  have hw := ringWriteAll_frame h2
  refine ⟨hp.1.frame.trans hw.1.mode1, fun j h4 hj => ?_, ?_⟩
  · rw [← hp.2 j h4 hj, hw.1]
  · rw [hw.2, hp.1]
    rfl

/-- Mode 1's order of four is a permutation. -/
abbrev FourOk (s : State) : Prop := (firstFour s.pixelOrder).toList.Perm [0#4, 1#4, 2#4, 3#4]

theorem mode1Symbol_sat {cfg : Config} (hp : ParamsLegal cfg) {con : Nat} (hc : con < 32) {s : State}
    (hs : StreamOk cfg s) : (mode1Symbol con s).Sat (fun next t => StreamOk cfg t ∧ next ≤ 6 + 2 * con)
      (SourceStop cfg) := by
  refine (decodeSymbol_sat hp hc hs).bind fun sym t ⟨ht, _⟩ => ?_
  exact ⟨⟨ht.cfg_eq, ⟨ht.arith.span_ge, ht.arith.val_le, ht.arith.bits_pos, ht.arith.bits_le⟩, ht.contexts⟩,
    mode1NextContext_le _ _⟩

theorem mode1Pixel_sat {cfg : Config} (hp : ParamsLegal cfg) {s : State} (hs : StreamOk cfg s) (ho : FourOk s) :
    (mode1Pixel () s).Sat (fun _ t => StreamOk cfg t ∧ FourOk t) (SourceStop cfg) := by
  unfold mode1Pixel
  have ma : (mode1Pixels s).a ∈ (firstFour s.pixelOrder).toList := ho.mem_iff.mpr (mem_four _)
  have mb : (mode1Pixels s).b ∈ [0#4, 1#4, 2#4, 3#4] := mem_four _
  have mc : (mode1Pixels s).c ∈ [0#4, 1#4, 2#4, 3#4] := mem_four _
  generalize mode1Pixels s = r at ma mb mc
  refine (moveToFront_sat ma s _).bind fun order s0 ⟨e0, _, p0⟩ => ?_
  subst e0
  have hperm := p0.trans ho
  have ma' := hperm.mem_iff.mpr (ho.mem_iff.mp ma)
  refine (realOrder_sat ma' (hperm.mem_iff.mpr mb) (hperm.mem_iff.mpr mc) _ _).bind fun ranking s2 ⟨e2, _⟩ => ?_
  subst e2
  have hr := refcon_le r.a r.b r.c
  generalize refcon r.a r.b r.c = con at hr
  have hs' : StreamOk cfg { s0 with pixelOrder := withFirstFour s0.pixelOrder order } :=
    ⟨hs.cfg_eq, ⟨hs.arith.span_ge, hs.arith.val_le, hs.arith.bits_pos, hs.arith.bits_le⟩, hs.contexts⟩
  have hloop : (loop mode1Symbol 2 con { s0 with pixelOrder := withFirstFour s0.pixelOrder order }).Sat
      (fun _ t => StreamOk cfg t) (SourceStop cfg) := by
    refine (mode1Symbol_sat hp (by omega) hs').bind fun next t ⟨ht, hn⟩ => ?_
    refine (mode1Symbol_sat hp (by omega) ht).bind fun next' u ⟨hu, _⟩ => hu
  refine (hloop.and fun _ _ h => loop_rel (R := fun a b => b.pixelOrder = a.pixelOrder) (fun _ => rfl)
    (fun _ _ _ p q => q.trans p) (fun _ _ _ _ h => (mode1Symbol_frame h).2) 2 h).bind ?_
  rintro _ t ⟨ht, hpo⟩
  refine ⟨⟨ht.cfg_eq, ⟨ht.arith.span_ge, ht.arith.val_le, ht.arith.bits_pos, ht.arith.bits_le⟩, ht.contexts⟩, ?_⟩
  show (firstFour t.pixelOrder).toList.Perm _
  rw [hpo]
  simpa using hperm

/-- With room in the ring a mode 1 unit completes, unless the source region is empty, and keeps every invariant. -/
theorem mode1Unit_sat {s : State} (hp : ParamsLegal s.cfg) (hs : StreamOk s.cfg s) (ho : FourOk s) (hR : RingOk s)
    (hm : s.ringData.wf = true) (hroom : s.length + 2 ≤ s.cfg.ringCapacity) :
    (mode1Unit s).Sat
      (fun _ t => Mode1Frame s t ∧ t.length = s.length + 2 ∧ StreamOk s.cfg t ∧ FourOk t ∧ RingOk t ∧
        t.ringData.wf = true)
      (SourceStop s.cfg) := by
  have hpix := (loop_sat (P := fun (_ : Unit) t => StreamOk s.cfg t ∧ FourOk t)
    (fun _ _ h => mode1Pixel_sat hp h.1 h.2) 8 () s ⟨hs, ho⟩).and fun _ _ h => (mode1Pixels_loop_frame h).1
  refine hpix.bind ?_
  rintro _ t ⟨⟨ht, hot⟩, hf⟩
  have e1 : t.length = s.length := by rw [hf]
  have e2 : t.ringData = s.ringData := by rw [hf]
  have e3 : t.readOffset = s.readOffset := by rw [hf]
  have e4 : t.writeOffset = s.writeOffset := by rw [hf]
  have e5 := ht.cfg_eq
  have hRt : RingOk t := ⟨by rw [e1, e5]; exact hR.length_le, by rw [e3, e5]; exact hR.read_lt,
    by rw [e4, e5]; exact hR.write_lt, by rw [e4, e3, e1, e5]; exact hR.write_eq⟩
  refine (ringWriteAll_sat _ _ hRt (e2 ▸ hm) (by rw [e1, e5]; exact hroom)).mono fun _ u ⟨hg, hl, hRu, hmu⟩ => ?_
  refine ⟨hf.frame.trans hg.mode1, by rw [hl, e1]; rfl, ?_, ?_, hRu, hmu⟩
  · rw [hg]
    exact ⟨ht.cfg_eq, ⟨ht.arith.span_ge, ht.arith.val_le, ht.arith.bits_pos, ht.arith.bits_le⟩, ht.contexts⟩
  · rw [hg]
    exact hot

end Sys2Proof.Machine
end

