-- ==== Sys2Proof/Laws/Mode2.lean ====
section
/-! SUPPORT. What a mode 2 unit can do (45_mode2.md). -/

namespace Sys2Proof.Machine

/-- The registers mode 2's pixels write: no other differs. -/
def Mode2Pixels (s t : State) : Prop :=
  t = { s with
    cursor := t.cursor, span := t.span, val := t.val, inputByte := t.inputByte
    inputBitsRemaining := t.inputBitsRemaining, ctx := t.ctx
    lpsHistory := t.lpsHistory, invertHistory := t.invertHistory, out0 := t.out0, out1 := t.out1
    pixelOrder := t.pixelOrder }

/-- The registers a mode 2 unit writes (45_mode2.md R171): no other differs. -/
def Mode2Frame (s t : State) : Prop :=
  t = { s with
    cursor := t.cursor, span := t.span, val := t.val, inputByte := t.inputByte
    inputBitsRemaining := t.inputBitsRemaining, ctx := t.ctx
    lpsHistory := t.lpsHistory, invertHistory := t.invertHistory, out0 := t.out0, out1 := t.out1
    pixelOrder := t.pixelOrder, sideBuffer := t.sideBuffer, sideIndex := t.sideIndex
    ringData := t.ringData, writeOffset := t.writeOffset, length := t.length }

theorem Mode2Pixels.trans {s t u : State} (h1 : Mode2Pixels s t) (h2 : Mode2Pixels t u) : Mode2Pixels s u := by
  cases s
  cases t
  cases u
  simp only [Mode2Pixels, State.mk.injEq] at *
  grind

theorem Mode2Frame.trans {s t u : State} (h1 : Mode2Frame s t) (h2 : Mode2Frame t u) : Mode2Frame s u := by
  cases s
  cases t
  cases u
  simp only [Mode2Frame, State.mk.injEq] at *
  grind

theorem DecodeFrame.mode2 {s t : State} (h : DecodeFrame s t) : Mode2Pixels s t := by
  unfold Mode2Pixels
  rw [h]

theorem Mode2Pixels.frame {s t : State} (h : Mode2Pixels s t) : Mode2Frame s t := by
  unfold Mode2Frame
  rw [h]

theorem RingGrown.mode2 {s t : State} (h : RingGrown s t) : Mode2Frame s t := by
  unfold Mode2Frame
  rw [h]

/-- A legal context table leads to contexts 0 to 31 alone (45_mode2.md R175, R176). -/
theorem mode2NextContext_lt {cfg : Config} (hp : ParamsLegal cfg) (con : Fin 32) (bit : Bool) {rc : Nat}
    (hrc : rc ≤ 4) : mode2NextContext cfg con bit rc < 32 := by
  have ht := (tables_of_paramsLegal hp).2
  simp only [mode2TableLegal, Bool.and_eq_true, decide_eq_true_eq, List.all_eq_true] at ht
  obtain ⟨⟨hall, h1⟩, h2⟩ := ht
  have he := hall cfg.mode2ContextTable[con] (by simp)
  unfold mode2NextContext
  simp only
  obtain ⟨con, hlt⟩ := con
  by_cases hc : con = 1
  · subst hc
    simp only [Fin.getElem_fin, if_true]
    split <;> omega
  · simp only [if_neg hc]
    split <;> omega

theorem mode2Symbol_frame {rc con next : Nat} {s t : State} (h : mode2Symbol rc con s = .done next t) :
    Mode2Pixels s t ∧ t.pixelOrder = s.pixelOrder := by
  unfold mode2Symbol at h
  split at h
  · obtain ⟨sym, s1, h1, h2⟩ := Res.bind_eq_done.mp h
    have hf := (decodeSymbol_frame h1).1
    cases h2
    refine ⟨hf.mode2.trans rfl, ?_⟩
    rw [hf]
    rfl
  · cases h

theorem mode2Pixel_frame {s t : State} (h : mode2Pixel () s = .done () t) : Mode2Pixels s t := by
  obtain ⟨order, s0, h0, h'⟩ := Res.bind_eq_done.mp h
  obtain ⟨ranking, s2, h2, h''⟩ := Res.bind_eq_done.mp h'
  obtain ⟨_, s3, h3, h4⟩ := Res.bind_eq_done.mp h''
  have e0 := (moveToFront_frame h0).1
  have e2 := realOrder_frame h2
  have hs := loop_rel (R := fun a b => Mode2Pixels a b ∧ b.pixelOrder = a.pixelOrder) (fun _ => ⟨rfl, rfl⟩)
    (fun _ _ _ p q => ⟨p.1.trans q.1, q.2.trans p.2⟩) (fun _ _ _ _ => mode2Symbol_frame) 4 h3
  subst e0
  subst e2
  cases h4
  have hA : Mode2Pixels s0 { s0 with pixelOrder := order } := rfl
  exact (hA.trans hs.1).trans rfl

theorem mode2Pixels_loop_frame {n : Nat} {s t : State} (h : loop mode2Pixel n () s = .done () t) : Mode2Pixels s t :=
  loop_rel (R := Mode2Pixels) (fun _ => rfl) (fun _ _ _ => Mode2Pixels.trans)
    (fun _ _ _ _ hb => mode2Pixel_frame hb) n h

/-- The side-buffer part of a unit, when it completes (45_mode2.md R179). -/
theorem sideAppend_frame {hi lo : Byte} {s t : State} (h : sideAppend hi lo s = .done () t) :
    Mode2Frame s t ∧ t.length = s.length ∧ t.sideIndex = s.sideIndex + 2#5 ∧ s.sideIndex.toNat + 1 < 16 := by
  unfold sideAppend at h
  split at h
  · cases h
    exact ⟨rfl, rfl, rfl, by assumption⟩
  · cases h

theorem sideFlush_frame {s t : State} (h : sideFlush s = .done () t) :
    Mode2Frame s t ∧ (s.sideIndex = 16#5 → t.length = s.length + 16 ∧ t.sideIndex = 0#5) ∧
      (s.sideIndex ≠ 16#5 → t = s) := by
  unfold sideFlush at h
  split at h
  · rename_i hfull
    obtain ⟨_, s1, h1, h2⟩ := Res.bind_eq_done.mp h
    have hw := ringWriteAll_frame h1
    cases h2
    refine ⟨hw.1.mode2.trans rfl, fun _ => ⟨?_, rfl⟩, fun hn => absurd hfull hn⟩
    show s1.length = _
    rw [hw.2]
    simp
  · rename_i hne
    cases h
    exact ⟨rfl, fun hf => absurd hf hne, fun _ => rfl⟩

/-- A mode 2 unit writes mode 2's registers alone, and adds 18 bytes to the ring when it fills the side buffer and 2
otherwise (45_mode2.md R171, R179). -/
theorem mode2Unit_frame {s t : State} (h : mode2Unit s = .done () t) :
    Mode2Frame s t ∧ (s.sideIndex = 14#5 → t.length = s.length + 18 ∧ t.sideIndex = 0#5) ∧
      (s.sideIndex ≠ 14#5 → t.length = s.length + 2 ∧ t.sideIndex = s.sideIndex + 2#5) := by
  obtain ⟨_, s1, h1, h'⟩ := Res.bind_eq_done.mp h
  obtain ⟨_, s2, h2, h''⟩ := Res.bind_eq_done.mp h'
  obtain ⟨_, s3, h3, h4⟩ := Res.bind_eq_done.mp h''
  have f1 := mode2Pixels_loop_frame h1
  have f2 := ringWriteAll_frame h2
  have f3 := sideAppend_frame h3
  have f4 := sideFlush_frame h4
  have e1 : s1.length = s.length := by rw [f1]
  have e2 : s2.sideIndex = s.sideIndex := by rw [f2.1, f1]
  have l2 : s2.length = s.length + 2 := by rw [f2.2, e1]; rfl
  refine ⟨((f1.frame.trans f2.1.mode2).trans f3.1).trans f4.1, fun h14 => ?_, fun h14 => ?_⟩
  · have hfull : s3.sideIndex = 16#5 := by rw [f3.2.2.1, e2, h14]; rfl
    obtain ⟨hl, hi⟩ := f4.2.1 hfull
    exact ⟨by rw [hl, f3.2.1, l2], hi⟩
  · have hne : s3.sideIndex ≠ 16#5 := by
      rw [f3.2.2.1, e2]
      intro hc
      exact h14 (by bv_omega)
    have := f4.2.2 hne
    subst this
    exact ⟨by rw [f3.2.1, l2], by rw [f3.2.2.1, e2]⟩

/-- Mode 2's order of sixteen is a permutation. -/
abbrev SixteenOk (s : State) : Prop := s.pixelOrder.toList.Perm identityOrder.toList

theorem mode2Symbol_sat {cfg : Config} (hp : ParamsLegal cfg) {rc con : Nat} (hrc : rc ≤ 4) (hc : con < 32) {s : State}
    (hs : StreamOk cfg s) : (mode2Symbol rc con s).Sat (fun next t => StreamOk cfg t ∧ next < 32)
      (SourceStop cfg) := by
  unfold mode2Symbol
  rw [dif_pos hc]
  refine (decodeSymbol_sat hp hc hs).bind fun sym t ⟨ht, _⟩ => ?_
  refine ⟨⟨ht.cfg_eq, ⟨ht.arith.span_ge, ht.arith.val_le, ht.arith.bits_pos, ht.arith.bits_le⟩, ht.contexts⟩, ?_⟩
  rw [ht.cfg_eq]
  exact mode2NextContext_lt hp _ _ hrc

theorem mode2Pixel_sat {cfg : Config} (hp : ParamsLegal cfg) {s : State} (hs : StreamOk cfg s) (ho : SixteenOk s) :
    (mode2Pixel () s).Sat (fun _ t => StreamOk cfg t ∧ SixteenOk t) (SourceStop cfg) := by
  unfold mode2Pixel
  have hall : ∀ x : BitVec 4, x ∈ s.pixelOrder.toList := fun x => ho.mem_iff.mpr (mem_sixteen x)
  generalize mode2Pixels s = r
  refine (moveToFront_sat (hall r.a) s _).bind fun order s0 ⟨e0, _, p0⟩ => ?_
  subst e0
  have hall' : ∀ x : BitVec 4, x ∈ order.toList := fun x => p0.mem_iff.mpr (hall x)
  refine (realOrder_sat (hall' r.a) (hall' r.b) (hall' r.c) _ _).bind fun ranking s2 ⟨e2, _⟩ => ?_
  subst e2
  have hr := refcon_le r.a r.b r.c
  generalize refcon r.a r.b r.c = rc at hr
  have hs' : StreamOk cfg { s0 with pixelOrder := order } :=
    ⟨hs.cfg_eq, ⟨hs.arith.span_ge, hs.arith.val_le, hs.arith.bits_pos, hs.arith.bits_le⟩, hs.contexts⟩
  have hloop := loop_sat (P := fun con t => StreamOk cfg t ∧ con < 32)
    (fun con t h => mode2Symbol_sat hp hr h.2 h.1) 4 0 { s0 with pixelOrder := order } ⟨hs', by omega⟩
  refine (hloop.and fun _ _ h => loop_rel (R := fun a b => b.pixelOrder = a.pixelOrder) (fun _ => rfl)
    (fun _ _ _ p q => q.trans p) (fun _ _ _ _ h => (mode2Symbol_frame h).2) 4 h).bind ?_
  rintro _ t ⟨⟨ht, _⟩, hpo⟩
  refine ⟨⟨ht.cfg_eq, ⟨ht.arith.span_ge, ht.arith.val_le, ht.arith.bits_pos, ht.arith.bits_le⟩, ht.contexts⟩, ?_⟩
  show t.pixelOrder.toList.Perm _
  rw [hpo]
  exact p0.trans ho

/-- The side buffer's index between units: even and below 16. -/
structure SideIndexOk (s : State) : Prop where
  even : s.sideIndex.toNat % 2 = 0
  lt : s.sideIndex.toNat < 16

/-- With room in the ring a mode 2 unit completes, unless the source region is empty, and keeps every invariant. -/
theorem mode2Unit_sat {s : State} (hp : ParamsLegal s.cfg) (hs : StreamOk s.cfg s) (ho : SixteenOk s)
    (hi : SideIndexOk s) (hR : RingOk s) (hm : s.ringData.wf = true) (hroom : s.length + 18 ≤ s.cfg.ringCapacity) :
    (mode2Unit s).Sat
      (fun _ t => (Mode2Frame s t ∧ s.length + 2 ≤ t.length ∧ t.length ≤ s.length + 18) ∧ StreamOk s.cfg t ∧
        SixteenOk t ∧ SideIndexOk t ∧ RingOk t ∧ t.ringData.wf = true)
      (SourceStop s.cfg) := by
  have hpix := (loop_sat (P := fun (_ : Unit) t => StreamOk s.cfg t ∧ SixteenOk t)
    (fun _ _ h => mode2Pixel_sat hp h.1 h.2) 8 () s ⟨hs, ho⟩).and fun _ _ h => mode2Pixels_loop_frame h
  refine hpix.bind ?_
  rintro _ t ⟨⟨ht, hot⟩, hf⟩
  have e1 : t.length = s.length := by rw [hf]
  have e2 : t.ringData = s.ringData := by rw [hf]
  have e3 : t.readOffset = s.readOffset := by rw [hf]
  have e4 : t.writeOffset = s.writeOffset := by rw [hf]
  have e6 : t.sideIndex = s.sideIndex := by rw [hf]
  have e5 := ht.cfg_eq
  have hRt : RingOk t := ⟨by rw [e1, e5]; exact hR.length_le, by rw [e3, e5]; exact hR.read_lt,
    by rw [e4, e5]; exact hR.write_lt, by rw [e4, e3, e1, e5]; exact hR.write_eq⟩
  refine (ringWriteAll_sat _ _ hRt (e2 ▸ hm) (by simp only [List.length_cons, List.length_nil]; rw [e1, e5]; omega)).bind
    fun _ u ⟨hg, hl, hRu, hmu⟩ => ?_
  have lu : u.length = s.length + 2 := by rw [hl, e1]; rfl
  have cu : u.cfg = s.cfg := by rw [hg]; exact e5
  have iu : u.sideIndex = s.sideIndex := by rw [hg]; exact e6
  have hsu : StreamOk s.cfg u := by
    rw [hg]
    exact ⟨ht.cfg_eq, ⟨ht.arith.span_ge, ht.arith.val_le, ht.arith.bits_pos, ht.arith.bits_le⟩, ht.contexts⟩
  have hou : SixteenOk u := by
    rw [hg]
    exact hot
  have fu : Mode2Frame s u := hf.frame.trans hg.mode2
  have hi1 := hi.even
  have hi2 := hi.lt
  rw [sideAppend, if_pos (by rw [iu]; omega), Res.bind_done]
  generalize hv : ({ u with
      sideBuffer := (u.sideBuffer.setIfInBounds u.sideIndex.toNat ((morton4 t.out0).extractLsb' 8 8)).setIfInBounds
        (u.sideIndex.toNat + 1) ((morton4 t.out0).extractLsb' 0 8)
      sideIndex := u.sideIndex + 2#5 } : State) = v
  have fv : Mode2Frame u v := by subst hv; rfl
  have lv : v.length = u.length := by subst hv; rfl
  have cv : v.cfg = u.cfg := by subst hv; rfl
  have mv : v.ringData = u.ringData := by subst hv; rfl
  have iv : v.sideIndex = s.sideIndex + 2#5 := by subst hv; rw [← iu]
  have hRv : RingOk v := by subst hv; exact ⟨hRu.length_le, hRu.read_lt, hRu.write_lt, hRu.write_eq⟩
  have hsv : StreamOk s.cfg v := by
    subst hv
    exact ⟨hsu.cfg_eq, ⟨hsu.arith.span_ge, hsu.arith.val_le, hsu.arith.bits_pos, hsu.arith.bits_le⟩, hsu.contexts⟩
  have hov : SixteenOk v := by subst hv; exact hou
  have niv : v.sideIndex.toNat = s.sideIndex.toNat + 2 := by
    rw [iv, BitVec.toNat_add]
    simp
    omega
  unfold sideFlush
  split
  · refine (ringWriteAll_sat v.sideBuffer.toList _ hRv (mv ▸ hmu) (by
      rw [Vector.length_toList, lv, cv, cu, lu]
      omega)).bind fun _ w ⟨hgw, hlw, hRw, hmw⟩ => ?_
    have lw : w.length = s.length + 18 := by
      rw [hlw, Vector.length_toList, lv, lu]
    refine ⟨⟨(fu.trans (fv.trans hgw.mode2)).trans rfl, ?_, ?_⟩, ?_, ?_, ⟨rfl, ?_⟩,
      ⟨hRw.length_le, hRw.read_lt, hRw.write_lt, hRw.write_eq⟩, hmw⟩
    · show s.length + 2 ≤ w.length
      omega
    · show w.length ≤ s.length + 18
      omega
    · rw [hgw]
      exact ⟨hsv.cfg_eq, ⟨hsv.arith.span_ge, hsv.arith.val_le, hsv.arith.bits_pos, hsv.arith.bits_le⟩, hsv.contexts⟩
    · rw [hgw]
      exact hov
    · show (0#5).toNat < 16
      decide
  · rename_i hne
    have hn : v.sideIndex.toNat ≠ 16 := fun h => hne (BitVec.eq_of_toNat_eq (by rw [h]; rfl))
    exact ⟨⟨fu.trans fv, by omega, by omega⟩, hsv, hov, ⟨by omega, by omega⟩, hRv, mv ▸ hmu⟩

end Sys2Proof.Machine
end

