-- ==== Sys2Proof/Laws/Commands.lean ====
section
/-! SUPPORT. What a refill pass and a READ can do (47_commands.md R206, R207), and what starting a stream leaves. -/

namespace Sys2Proof.Machine

/-- The registers a unit of any mode writes: no other differs. -/
def UnitFrame (s t : State) : Prop :=
  t = { s with
    cursor := t.cursor, span := t.span, val := t.val, inputByte := t.inputByte
    inputBitsRemaining := t.inputBitsRemaining, ctx := t.ctx
    lpsHistory := t.lpsHistory, invertHistory := t.invertHistory
    out := t.out, out0 := t.out0, out1 := t.out1, pixelOrder := t.pixelOrder
    sideBuffer := t.sideBuffer, sideIndex := t.sideIndex
    ringData := t.ringData, writeOffset := t.writeOffset, length := t.length }

theorem UnitFrame.trans {s t u : State} (h1 : UnitFrame s t) (h2 : UnitFrame t u) : UnitFrame s u := by
  cases s
  cases t
  cases u
  simp only [UnitFrame, State.mk.injEq] at *
  grind

theorem Mode0Frame.unit {s t : State} (h : Mode0Frame s t) : UnitFrame s t := by
  unfold UnitFrame
  rw [h]

theorem Mode1Frame.unit {s t : State} (h : Mode1Frame s t) : UnitFrame s t := by
  unfold UnitFrame
  rw [h]

theorem Mode2Frame.unit {s t : State} (h : Mode2Frame s t) : UnitFrame s t := by
  unfold UnitFrame
  rw [h]

/-- A unit writes the registers of its mode alone; the mode itself is not among them. -/
theorem modeUnit_frame {s t : State} (h : modeUnit s = .done () t) :
    UnitFrame s t ∧ (s.mode = .mode0 → Mode0Frame s t) ∧ (s.mode = .mode1 → Mode1Frame s t ∧ UpperOrderKept s t) ∧
      (s.mode = .mode2 → Mode2Frame s t) := by
  unfold modeUnit at h
  split at h <;> rename_i hm
  · exact ⟨(mode0Unit_frame h).1.unit, fun _ => (mode0Unit_frame h).1, by simp [hm], by simp [hm]⟩
  · exact ⟨(mode1Unit_frame h).1.unit, by simp [hm], fun _ => ⟨(mode1Unit_frame h).1, (mode1Unit_frame h).2.1⟩,
      by simp [hm]⟩
  · exact ⟨(mode2Unit_frame h).1.unit, by simp [hm], by simp [hm], fun _ => (mode2Unit_frame h).1⟩
  · cases h
    exact ⟨rfl, by simp [hm], by simp [hm], by simp [hm]⟩

/-- What a refill pass writes, by mode. -/
theorem refillLoop_frame {fuel : Nat} {s t : State} (h : refillLoop fuel s = .done () t) :
    UnitFrame s t ∧ (s.mode = .mode0 → Mode0Frame s t) ∧ (s.mode = .mode1 → Mode1Frame s t ∧ UpperOrderKept s t) ∧
      (s.mode = .mode2 → Mode2Frame s t) := by
  induction fuel generalizing s with
  | zero =>
    cases h
    exact ⟨rfl, fun _ => rfl, fun _ => ⟨rfl, fun _ _ _ => rfl⟩, fun _ => rfl⟩
  | succ fuel ih =>
    rw [refillLoop] at h
    split at h
    · obtain ⟨_, s1, h1, h2⟩ := Res.bind_eq_done.mp h
      have f1 := modeUnit_frame h1
      have f2 := ih h2
      have hm : s1.mode = s.mode := by rw [f1.1]
      refine ⟨f1.1.trans f2.1, fun m => (f1.2.1 m).trans (f2.2.1 (hm.trans m)), fun m => ?_, fun m =>
        (f1.2.2.2 m).trans (f2.2.2.2 (hm.trans m))⟩
      have g1 := f1.2.2.1 m
      have g2 := f2.2.2.1 (hm.trans m)
      exact ⟨g1.1.trans g2.1, fun j h4 hj => (g2.2 j h4 hj).trans (g1.2 j h4 hj)⟩
    · cases h
      exact ⟨rfl, fun _ => rfl, fun _ => ⟨rfl, fun _ _ _ => rfl⟩, fun _ => rfl⟩

/-- Everything a unit needs and keeps: an active stream with its invariants. -/
structure ActiveOk (s : State) : Prop where
  active : s.mode ≠ .invalid
  params : ParamsLegal s.cfg
  stream : StreamOk s.cfg s
  order : OrderOk s
  side : SideOk s
  ring : RingOk s
  ringWf : s.ringData.wf = true

/-- With room for its largest output a unit completes, unless the source region is empty, keeps every invariant and
adds 1 to 18 bytes (42_ring_buffer.md R135). -/
theorem modeUnit_sat {s : State} (hs : ActiveOk s) (hroom : s.length + 18 ≤ s.cfg.ringCapacity) :
    (modeUnit s).Sat (fun _ t => (ActiveOk t ∧ s.length + 1 ≤ t.length ∧ t.length ≤ s.length + 18) ∧ UnitFrame s t)
      (SourceStop s.cfg) := by
  refine Res.Sat.and ?_ fun _ _ h => (modeUnit_frame h).1
  obtain ⟨ha, hp, hst, ho, hi, hR, hw⟩ := hs
  unfold modeUnit
  split <;> rename_i hm
  · refine (mode0Unit_sat hp hst hR hw (by omega)).mono fun _ t ⟨hf, hl, hs', hR', hw'⟩ => ?_
    have hmode : t.mode = .mode0 := by rw [hf]; exact hm
    have hcfg : t.cfg = s.cfg := by rw [hf]
    exact ⟨⟨by simp [hmode], hcfg ▸ hp, hcfg.symm ▸ hs', ⟨by simp [hmode], by simp [hmode]⟩,
      ⟨by simp [hmode], by simp [hmode]⟩, hR', hw'⟩, by omega, by omega⟩
  · refine (mode1Unit_sat hp hst (ho.mode1 hm) hR hw (by omega)).mono fun _ t ⟨hf, hl, hs', ho', hR', hw'⟩ => ?_
    have hmode : t.mode = .mode1 := by rw [hf]; exact hm
    have hcfg : t.cfg = s.cfg := by rw [hf]
    exact ⟨⟨by simp [hmode], hcfg ▸ hp, hcfg.symm ▸ hs', ⟨fun _ => ho', by simp [hmode]⟩,
      ⟨by simp [hmode], by simp [hmode]⟩, hR', hw'⟩, by omega, by omega⟩
  · refine (mode2Unit_sat hp hst (ho.mode2 hm) ⟨hi.even hm, hi.lt hm⟩ hR hw hroom).mono
      fun _ t ⟨⟨hf, hl1, hl2⟩, hs', ho', hi', hR', hw'⟩ => ?_
    have hmode : t.mode = .mode2 := by rw [hf]; exact hm
    have hcfg : t.cfg = s.cfg := by rw [hf]
    exact ⟨⟨by simp [hmode], hcfg ▸ hp, hcfg.symm ▸ hs', ⟨by simp [hmode], fun _ => ho'⟩,
      ⟨fun _ => hi'.even, fun _ => hi'.lt⟩, hR', hw'⟩, by omega, by omega⟩
  · exact absurd hm ha

/-- A refill loop that completes is units run one after another, each started below the threshold (47_commands.md
R207). -/
theorem refillLoop_iterates {fuel : Nat} {s t : State} (h : refillLoop fuel s = .done () t) :
    ∃ n, loop (fun _ : Unit => modeUnit) n () s = .done () t ∧
      ∀ m, m < n → ∃ v, loop (fun _ : Unit => modeUnit) m () s = .done () v ∧ v.length < s.cfg.refillThreshold := by
  induction fuel generalizing s with
  | zero =>
    cases h
    exact ⟨0, rfl, by omega⟩
  | succ fuel ih =>
    rw [refillLoop] at h
    split at h
    · rename_i hl
      obtain ⟨_, s1, h1, h2⟩ := Res.bind_eq_done.mp h
      have hcfg : s1.cfg = s.cfg := by rw [(modeUnit_frame h1).1]
      obtain ⟨n, g1, g2⟩ := ih h2
      refine ⟨n + 1, by rw [loop_succ, h1]; exact g1, fun m hm => ?_⟩
      cases m with
      | zero => exact ⟨s, rfl, hl⟩
      | succ m =>
        obtain ⟨v, k1, k2⟩ := g2 m (by omega)
        exact ⟨v, by rw [loop_succ, h1]; exact k1, hcfg ▸ k2⟩
    · cases h
      exact ⟨0, rfl, by omega⟩

/-- A refill loop completes, unless the source region is empty, keeps every invariant, and either reaches the threshold
or has run all its units; it never passes the bound (47_commands.md R207, 42_ring_buffer.md R135). -/
theorem refillLoop_sat {fuel : Nat} {s : State} (hs : ActiveOk s) (hb : s.length ≤ s.cfg.refillThreshold + 17) :
    (refillLoop fuel s).Sat
      (fun _ t => (ActiveOk t ∧ UnitFrame s t) ∧ t.length ≤ s.cfg.refillThreshold + 17 ∧
        (s.cfg.refillThreshold ≤ t.length ∨ s.length + fuel ≤ t.length))
      (SourceStop s.cfg) := by
  induction fuel generalizing s with
  | zero => exact ⟨⟨hs, rfl⟩, hb, .inr le_rfl⟩
  | succ fuel ih =>
    rw [refillLoop]
    split
    · rename_i hlt
      have hcap := (bounds_of_paramsLegal hs.params).2.1
      refine (modeUnit_sat hs (by omega)).bind fun _ t ⟨⟨ht, h1, h2⟩, hf⟩ => ?_
      have hcfg : t.cfg = s.cfg := by rw [hf]
      have := ih ht (by rw [hcfg]; omega)
      rw [hcfg] at this
      refine this.mono fun _ u ⟨⟨hu, hfu⟩, hb', hor⟩ => ⟨⟨hu, hf.trans hfu⟩, hb', ?_⟩
      omega
    · exact ⟨⟨hs, rfl⟩, hb, .inl (by omega)⟩

/-- A refill pass of an empty ring leaves between `T` and `T + 17` bytes (47_commands.md R207). -/
theorem refillPass_sat {s : State} (hs : ActiveOk s) (h0 : s.length = 0) :
    (refillPass s).Sat
      (fun _ t => (ActiveOk t ∧ UnitFrame s t) ∧ s.cfg.refillThreshold ≤ t.length ∧
        t.length ≤ s.cfg.refillThreshold + 17)
      (SourceStop s.cfg) := by
  refine (refillLoop_sat hs (by omega)).mono fun _ t ⟨h1, h2, h3⟩ => ⟨h1, ?_, h2⟩
  omega

/-- An active stream of a state that meets the whole invariant. -/
theorem State.Inv.activeOk {s : State} (h : s.Inv) (hm : s.mode ≠ .invalid) : ActiveOk s :=
  ⟨hm, h.params, ⟨rfl, h.arith hm, h.contexts⟩, h.order, h.side, h.ring, h.memory.ring⟩

/-- The registers a READ's decoding and ring read write: no other differs. -/
def ReadFrame (s t : State) : Prop :=
  t = { s with
    cursor := t.cursor, span := t.span, val := t.val, inputByte := t.inputByte
    inputBitsRemaining := t.inputBitsRemaining, ctx := t.ctx
    lpsHistory := t.lpsHistory, invertHistory := t.invertHistory
    out := t.out, out0 := t.out0, out1 := t.out1, pixelOrder := t.pixelOrder
    sideBuffer := t.sideBuffer, sideIndex := t.sideIndex
    ringData := t.ringData, readOffset := t.readOffset, writeOffset := t.writeOffset, length := t.length }

theorem ReadFrame.trans {s t u : State} (h1 : ReadFrame s t) (h2 : ReadFrame t u) : ReadFrame s u := by
  cases s
  cases t
  cases u
  simp only [ReadFrame, State.mk.injEq] at *
  grind

theorem UnitFrame.read {s t : State} (h : UnitFrame s t) : ReadFrame s t := by
  unfold ReadFrame
  rw [h]

theorem ringRead_frame {s t : State} {b : Byte} (h : ringRead s = .done b t) :
    t = { s with readOffset := t.readOffset, length := t.length } ∧ s.length ≠ 0 ∧
      b = s.ringData.read s.readOffset := by
  by_cases h0 : s.length = 0
  · rw [ringRead, if_pos h0] at h
    cases h
  · rw [ringRead_done h0] at h
    cases h
    exact ⟨rfl, h0, rfl⟩

/-- A READ writes the decoder's registers and the ring alone. -/
theorem readByte_frame {s t : State} {b : Byte} (h : readByte s = .done b t) : ReadFrame s t := by
  unfold readByte at h
  split at h
  · cases h
    rfl
  · split at h
    · obtain ⟨_, s1, h1, h2⟩ := Res.bind_eq_done.mp h
      refine (refillLoop_frame h1).1.read.trans ?_
      unfold ReadFrame
      rw [(ringRead_frame h2).1]
    · unfold ReadFrame
      rw [(ringRead_frame h).1]

/-- A READ from a state that meets the invariant completes, unless it must fetch from an empty source region, and the
state after it meets the invariant (47_commands.md R206, 60_exceptions.md R222). -/
theorem readByte_sat {s : State} (hs : s.Inv) :
    (readByte s).Sat (fun _ t => t.Inv ∧ ReadFrame s t) (SourceStop s.cfg) := by
  refine Res.Sat.and ?_ fun _ _ h => readByte_frame h
  have key : ∀ u : State, ActiveOk u → UnitFrame s u → u.length ≠ 0 → u.length ≤ s.cfg.refillThreshold + 17 →
      (ringRead u).Sat (fun _ t => t.Inv) (SourceStop s.cfg) := by
    intro u hu hf h0 hb
    rw [ringRead_done h0]
    have hcfg : u.cfg = s.cfg := by rw [hf]
    have hsrc : u.src = s.src := by rw [hf]
    have hkept : u.srcAtInit = s.srcAtInit := by rw [hf]
    refine ⟨hu.params, ⟨hsrc ▸ hs.memory.src, hu.ringWf, hkept ▸ hs.memory.kept⟩, ringRead_keeps hu.ring h0, ?_,
      fun hm => absurd hm hu.active, hu.stream.contexts, fun _ => ?_, ⟨hu.order.mode1, hu.order.mode2⟩,
      ⟨hu.side.even, hu.side.lt⟩⟩
    · show u.length - 1 ≤ u.cfg.refillThreshold + 17
      rw [hcfg]
      omega
    · exact ⟨hu.stream.arith.span_ge, hu.stream.arith.val_le, hu.stream.arith.bits_pos, hu.stream.arith.bits_le⟩
  unfold readByte
  split
  · exact hs
  · rename_i hm
    have hact : s.mode ≠ .invalid := hm
    have ha := hs.activeOk hact
    have hT := (bounds_of_paramsLegal hs.params).1
    split
    · rename_i h0
      refine (refillPass_sat ha h0).bind fun _ u ⟨⟨hu, hf⟩, h1, h2⟩ => ?_
      exact key u hu hf (by omega) h2
    · rename_i h0
      exact key s ha rfl h0 hs.bound

/-- What INIT leaves before its skip reads meets the invariant, and completes unless the mode is valid and the source
region is empty (47_commands.md R202, R203). -/
theorem startStream_sat (m off : Word) {s : State} (hp : ParamsLegal s.cfg) (hm : MemoryOk s) :
    (startStream m off s).Sat (fun _ t => t.Inv ∧ t.cfg = s.cfg) (SourceStop s.cfg) := by
  have hb := bounds_of_paramsLegal hp
  have hmem : ∀ mm, some s.src = some mm → mm.wf = true := fun mm h => by
    cases h
    exact hm.src
  have hctx : ∀ (j : Nat) (h : j < 32), freshContexts[j].stateIndex.toNat ≤ 52 := by decide
  unfold startStream
  split
  · rename_i hmode
    refine ⟨⟨hp, ⟨hm.src, hm.ring, hmem⟩, ⟨Nat.zero_le _, ?_, ?_, ?_⟩, Nat.zero_le _, fun _ => rfl, hctx, fun h => ?_,
      ⟨fun h => ?_, fun h => ?_⟩, ⟨fun h => ?_, fun h => ?_⟩⟩, rfl⟩
    · show 0 < s.cfg.ringCapacity
      omega
    · show 0 < s.cfg.ringCapacity
      omega
    · show 0 = (0 + 0) % s.cfg.ringCapacity
      simp
    all_goals simp [hmode] at h
  · rename_i hmode
    by_cases hU : usableSize s.cfg = 0
    · rw [prime_stuck (by exact hU)]
      exact ⟨rfl, hU⟩
    · rw [prime_done (by exact hU)]
      refine ⟨⟨hp, ⟨hm.src, hm.ring, hmem⟩, ⟨Nat.zero_le _, ?_, ?_, ?_⟩, Nat.zero_le _, fun h => absurd h hmode, hctx,
        fun _ => ⟨(by decide : 0x7f ≤ (0xff#8).toNat), ?_, (by decide : 1 ≤ (8#4).toNat), (by decide : (8#4).toNat ≤ 8)⟩,
        ⟨fun _ => ?_, fun _ => List.Perm.refl _⟩, ⟨fun _ => rfl, fun _ => (by decide : (0#5).toNat < 16)⟩⟩, rfl⟩
      · show 0 < s.cfg.ringCapacity
        omega
      · show 0 < s.cfg.ringCapacity
        omega
      · show 0 = (0 + 0) % s.cfg.ringCapacity
        simp
      · show BitVec.toNat _ ≤ (0xff#8).toNat
        exact Nat.le_of_lt_succ (BitVec.isLt _)
      · show (firstFour identityOrder).toList.Perm _
        exact List.Perm.of_eq (by decide)

end Sys2Proof.Machine
end

