-- ==== Sys2Proof/Laws/PerInstr.lean ====
section
/-! SUPPORT. Statements made once per command: how many words it has (30_encoding.md R80, R81). -/

namespace Sys2Proof.Laws

/-- A command's words begin with a word 0 whose reserved field is 0, and its code alone tells how many words there are
(30_encoding.md R80, R81). -/
def EncodedLength.Statement (i : Instr) : Prop :=
  ∃ w operands, encode i = w :: operands ∧ wordRsv w = 0#24 ∧ (encode i).length = commandLength w

theorem EncodedLength.reset : EncodedLength.Statement .reset :=
  ⟨0x00000000#32, [], rfl, by decide, by decide⟩

theorem EncodedLength.init (mode sourceOffset outputSkipCount : Word) :
    EncodedLength.Statement (.init mode sourceOffset outputSkipCount) :=
  ⟨0x00000001#32, [mode, sourceOffset, outputSkipCount], rfl, by decide, rfl⟩

theorem EncodedLength.read : EncodedLength.Statement .read :=
  ⟨0x00000002#32, [], rfl, by decide, by decide⟩

end Sys2Proof.Laws
end

