-- ==== Sys2Proof/Tests/Slice0.lean ====
section
/-! SUPPORT. Tests on fixed values, taken from the examples of the rules and from 95_test_vectors.md, and for each
obligation with hypotheses a witness that meets them (`witness_<Name>`). -/

namespace Sys2Proof.Tests

open Sys2Proof Sys2Proof.Machine

-- Elaborated one after another: in parallel the tests' threads take more memory than the check allows.
set_option Elab.async false

/-! ### Small cores -/

/-- The default parameters with a source region of `u` bytes and refill threshold `threshold`. -/
def smallConfig (u threshold : Nat) : Config :=
  { defaultConfig with imageSize := 0x100000 + u, refillThreshold := threshold }

/-- A core just constructed on the source `bytes`; its refill passes run one unit. -/
def coreOn (bytes : List Byte) : State :=
  { State.reset with cfg := smallConfig bytes.length 1, src := Memory.writeBytes [] 0 bytes }

/-- The source `P32` of 95_test_vectors.md, shortened to one period, which wraps to the same bytes. -/
def coreP : State :=
  coreOn [0x12#8, 0x34#8, 0x56#8, 0x78#8, 0x9a#8, 0xbc#8, 0xde#8, 0xf0#8]

/-- A core without a source region. -/
def coreEmpty : State :=
  { State.reset with cfg := smallConfig 0 1 }

/-- The next state of an outcome. -/
def nextOf : Host.Outcome State Fault Refusal → State
  | .next s => s
  | .fault _ => State.reset
  | .refused _ => State.reset

/-- The outcome is a next state. -/
def isNext : Host.Outcome State Fault Refusal → Bool
  | .next _ => true
  | .fault _ => false
  | .refused _ => false

theorem eq_nextOf {o : Host.Outcome State Fault Refusal} (h : isNext o = true) : o = .next (nextOf o) := by
  cases o <;> simp_all [isNext, nextOf]

/-- The outcome's refusal. -/
def refusalOf : Host.Outcome State Fault Refusal → Option Refusal
  | .next _ => none
  | .fault _ => none
  | .refused r => some r

/-- The outcome's fault. -/
def faultOf : Host.Outcome State Fault Refusal → Option Fault
  | .next _ => none
  | .fault r => some r
  | .refused _ => none

/-- The result of an operation that completes. -/
def valueOf {α : Type} (d : α) : Res α → α
  | .done a _ => a
  | .stop _ _ => d

/-- The core after an INIT at offset 0 without skip. -/
def started (m : Word) (s : State) : State := nextOf (exec (.init m 0#32 0#32) s)

/-- A core with one command's words on its port. -/
def withWords (words : List Word) (s : State) : State := { s with port := words }

/-! ### Well-formedness and decoding (30_encoding.md R80, R81, R89) -/

theorem test_wellFormed_words :
    portWordsWellFormed [0x00000001#32, 0x00000002#32, 0x00001234#32, 0x00000005#32] = true ∧
    portWordsWellFormed [0x00000003#32] = false ∧ portWordsWellFormed [0x00000102#32] = false ∧
    portWordsWellFormed [0x00000001#32, 0x00000000#32] = false := by decide

theorem test_illFormed_parameters :
    parameterRefusal { defaultConfig with refillThreshold := 0 } = some .refillThresholdZero ∧
    parameterRefusal { defaultConfig with ringCapacity := 48 } = some .ringCapacityTooSmall ∧
    parameterRefusal { defaultConfig with imageSize := 0x0fffff } = some .imageTooSmall ∧
    parameterRefusal { defaultConfig with evolutionTable := defaultConfig.evolutionTable.set 3 ⟨0x7f#8, 0, 0, false⟩ } =
      some .evolutionTableIllegal ∧
    parameterRefusal { defaultConfig with mode2ContextTable := defaultConfig.mode2ContextTable.set 1 (3, 28) } =
      some .mode2TableIllegal := by decide +kernel

theorem test_legal_parameters :
    parameterRefusal defaultConfig = none ∧ parameterRefusal { defaultConfig with ringCapacity := 49 } = none ∧
    parameterRefusal { defaultConfig with imageSize := 0x100000 } = none := by decide +kernel

/-- Rows of spec/opcode_table.json, their bits written out. -/
theorem test_decode_table_words :
    decodeTableWord 32 0x00000000 = some .reset ∧ decodeTableWord 32 0x00000002 = some .read ∧
    decodeTableWord 32 0x00000001 = some (.init 0#32 0#32 0#32) ∧
    decodeTableWord 128 0x00000005000012340000000200000001 = some (.init 2#32 0x1234#32 5#32) ∧
    decodeTableWord 32 0x00000003 = none ∧ decodeTableWord 32 0x00000100 = none := by decide

theorem test_decode_init_words :
    decode [0x00000001#32, 0xffffffff#32, 0x00000025#32, 0x80000000#32, 0x00000002#32] =
      .ok (.init 0xffffffff#32 0x25#32 0x80000000#32, [0x00000002#32]) := by rfl

/-- The first instruction after reset, as the host places it. -/
theorem test_first_instruction_runs :
    isNext (step (State.reset.withFetchWord 32 0)) = true ∧ isNext (step (State.reset.withFetchWord 32 1)) = true ∧
    isNext (step (State.reset.withFetchWord 32 2)) = true := by decide +kernel

/-- 95_test_vectors.md X1, X2 and 30_encoding.md R89: refused commands. -/
theorem test_reserved_words_refused :
    refusalOf (step (withWords [0x00000003#32] coreP)) = some .reservedCode ∧
    refusalOf (step (withWords [0x00000102#32] coreP)) = some .reservedField ∧
    refusalOf (step (withWords [0x00000001#32, 0#32] coreP)) = some .truncatedInit := by decide +kernel

/-! ### Commands -/

/-- Program 4 of 95_test_vectors.md: after a RESET a READ returns the sentinel. -/
theorem test_reset_then_read :
    (nextOf (exec .read (nextOf (exec .reset (nextOf (exec .read (started 0#32 coreP))))))).observed = [0x0e#8, 0x00#8] := by
  decide +kernel

/-- 47_commands.md R202's example. -/
theorem test_init_mode1 :
    let t := started 1#32 (coreOn [0x3c#8, 0xa5#8])
    t.mode = .mode1 ∧ t.val = 0x3c#8 ∧ t.inputByte = 0xa5#8 ∧ t.cursor = 2#32 ∧ t.length = 0 := by decide +kernel

/-- 47_commands.md R203's example. -/
theorem test_init_invalid_mode :
    (nextOf (exec .read (nextOf (exec (.init 3#32 0x1234#32 5#32) coreP)))).observed = [0x00#8] := by decide +kernel

/-- The first bytes of `P32` in the three modes (95_test_vectors.md sections 4, 5 and 7). -/
theorem test_read_first_bytes :
    (nextOf (exec .read (started 0#32 coreP))).observed = [0x0e#8] ∧
    (nextOf (exec .read (started 1#32 coreP))).observed = [0x09#8] ∧
    (nextOf (exec .read (started 2#32 coreP))).observed = [0x5b#8] := by decide +kernel

/-- 60_exceptions.md R223, 95_test_vectors.md X5: a valid mode without a source region is stuck. -/
theorem test_init_stuck : faultOf (exec (.init 0#32 0#32 0#32) coreEmpty) = some .sourceEmpty := by decide +kernel

/-! ### Fetch, decoder, ring, planes -/

/-- 95_test_vectors.md section 2: S-2, S-4, S-6 and the sizes. -/
theorem test_fetch_cursor :
    (fetch { State.reset with cfg := smallConfig 16 1, cursor := 15#32 }).final.cursor = 16#32 ∧
    (fetch { State.reset with cfg := smallConfig 16 1, cursor := 0x25#32 }).final.cursor = 6#32 ∧
    (fetch { State.reset with cfg := smallConfig 0x300000 1, cursor := 0xffffffff#32 }).final.cursor = 0x100000#32 ∧
    usableSize (smallConfig 0x400001 1) = 0x300001 ∧ usableSize (smallConfig 0x500000 1) = 0x400000 := by decide +kernel

/-- A decoder on the source `ab cd` in the state of a row of 95_test_vectors.md section 3. -/
def decoderRow (span val input : BitVec 8) (bits : BitVec 4) (c : Context) : State :=
  { coreOn [0xab#8, 0xcd#8] with
    span := span, val := val, inputByte := input, inputBitsRemaining := bits, ctx := freshContexts.set 0 c }

/-- Row D8: an LPS with seven shifts and one fetch. -/
theorem test_decode_row_D8 :
    let x := decodeSymbol 0 (decoderRow 0xff#8 0xff#8 0x00#8 1#4 ⟨5#6, false⟩)
    valueOf ⟨false, true, 0⟩ x = ⟨true, false, 7⟩ ∧ x.final.span = 0x7f#8 ∧ x.final.val = 0x2a#8 ∧
    x.final.inputByte = 0xc0#8 ∧ x.final.inputBitsRemaining = 2#4 ∧ x.final.ctx[0] = ⟨15#6, false⟩ ∧
    x.final.cursor = 1#32 := by decide +kernel

/-- Row D5: an MPS with one shift. -/
theorem test_decode_row_D5 :
    let x := decodeSymbol 0 (decoderRow 0x80#8 0x10#8 0xff#8 8#4 ⟨1#6, false⟩)
    valueOf ⟨true, true, 0⟩ x = ⟨false, false, 1⟩ ∧ x.final.span = 0xb7#8 ∧ x.final.val = 0x21#8 ∧
    x.final.ctx[0] = ⟨2#6, false⟩ := by decide +kernel

/-- 95_test_vectors.md B2 and B3: both offsets wrap. -/
theorem test_ring_wraps :
    let s := (ringWrite 0xaa#8 { State.reset with readOffset := 63, writeOffset := 63 }).final
    s.writeOffset = 0 ∧ s.length = 1 ∧ ringContents s = [0xaa#8] ∧ (ringRead s).final.readOffset = 0 ∧
    valueOf 0#8 (ringRead s) = 0xaa#8 := by decide +kernel

/-- 43_mode0.md R142's example: bit 3 with history bits 101. -/
theorem test_mode0_context : mode0Context 3 { State.reset with lpsHistory := 5#32 } = 12 := by decide

/-- The examples of 44_mode1.md R153 and R154. -/
theorem test_rankings :
    mtf #v[3#4, 1#4, 0#4, 2#4] 2#4 = some #v[2#4, 3#4, 1#4, 0#4] ∧
    valueOf #v[0#4, 0#4, 0#4, 0#4] (realOrder #v[1#4, 2#4, 0#4, 3#4] ⟨1#4, 0#4, 3#4⟩ State.reset) =
      #v[1#4, 0#4, 3#4, 2#4] := by decide +kernel

/-- 45_mode2.md R172's and R176's examples. -/
theorem test_mode2_context :
    (let r := mode2Pixels { State.reset with out0 := 0x70000005#32, out1 := 3#32 }
     refcon r.a r.b r.c = 4) ∧ mode2NextContext defaultConfig 1 true 2 = 10 := by decide

/-- The examples of 44_mode1.md R158 and 45_mode2.md R179. -/
theorem test_morton : morton2 0xc001#16 = 0x8081#16 ∧ morton4 0xf0000001#32 = 0x80808081#32 := by decide

/-! ### Witnesses: commands -/

theorem coreP_params : ParamsLegal coreP.cfg := by decide +kernel

theorem coreP_memory : MemoryOk coreP := ⟨by decide +kernel, by decide, nofun⟩

theorem coreP_usable : SourceUsable coreP.cfg := by decide +kernel

/-- A core just constructed on any of the small sources meets the invariant. -/
theorem idle_inv {s : State} (h : s = coreP ∨ s = coreEmpty ∨ s = State.reset) : s.Inv := by
  rcases h with rfl | rfl | rfl
  all_goals exact ⟨by decide +kernel, ⟨by decide +kernel, by decide, nofun⟩,
    ⟨by decide, by decide, by decide, by decide⟩, by decide, fun _ => rfl, by unfold ContextsOk; decide +kernel,
    fun h => absurd rfl h, ⟨by decide +kernel, by decide +kernel⟩, ⟨by decide +kernel, by decide +kernel⟩⟩

/-- A core started in any mode meets the invariant and has an empty ring. -/
theorem started_inv {m : Word} {s : State} (hm : m = 0#32 ∨ m = 1#32 ∨ m = 2#32) (h : s = coreP ∨ s = State.reset) :
    (started m s).Inv := by
  rcases h with rfl | rfl <;> rcases hm with rfl | rfl | rfl
  all_goals exact ⟨by decide +kernel, ⟨by decide +kernel, by decide +kernel, by decide +kernel⟩,
    ⟨by decide +kernel, by decide +kernel, by decide +kernel, by decide +kernel⟩, by decide +kernel,
    by decide +kernel, by unfold ContextsOk; decide +kernel,
    fun _ => ⟨by decide +kernel, by decide +kernel, by decide +kernel, by decide +kernel⟩,
    ⟨by decide +kernel, by decide +kernel⟩, ⟨by decide +kernel, by decide +kernel⟩⟩

/-- One clause each: the least reserved field, both ends of the reserved codes, an INIT cut short, a whole INIT. -/
theorem witness_ReservedWordsAreRefused :
    ParamsLegal coreP.cfg ∧ coreP.fault = none ∧ sourceUnchanged coreP = true ∧
    256 ≤ (256#32 : Word).toNat ∧ (3 ≤ (3#32 : Word).toNat ∧ (3#32 : Word).toNat < 256) ∧
    (3 ≤ (255#32 : Word).toNat ∧ (255#32 : Word).toNat < 256) ∧
    ((1#32 : Word).toNat = 1 ∧ [0#32, (0#32 : Word)].length < 3) := by decide +kernel

theorem witness_StepRunsTheDecodedCommand :
    let s := withWords [2#32, 0#32] coreP
    ParamsLegal s.cfg ∧ s.fault = none ∧ sourceUnchanged s = true ∧ Instr.read.wellFormed = true ∧
    decode s.port = .ok (.read, [0#32]) :=
  ⟨by decide +kernel, rfl, rfl, rfl, rfl⟩

theorem witness_StepWithoutCommandIsIdle : ParamsLegal coreP.cfg ∧ coreP.fault = none ∧ coreP.port = [] := by
  decide +kernel

theorem witness_IllegalParametersAreRefused :
    ¬ParamsLegal (smallConfig 16 0) ∧ ParamsLegal (smallConfig 16 1) ∧ ¬ParamsLegal (smallConfig 16 48) ∧
    ParamsLegal (smallConfig 16 47) := by decide +kernel

theorem witness_RecordedFaultIsFinal :
    let s := { coreP with fault := some .ringOverflow }
    ParamsLegal s.cfg ∧ s.fault = some .ringOverflow := by decide +kernel

theorem witness_ChangedSourceIsRefused :
    ParamsLegal coreP.cfg ∧ coreP.fault = none ∧ exec (.init 0#32 0#32 0#32) coreP = .next (started 0#32 coreP) ∧
    readMany 1 (started 0#32 coreP) = .next (nextOf (readMany 1 (started 0#32 coreP))) ∧
    Memory.write coreP.src 0 0x13#8 ≠ coreP.src ∧ [(2#32 : Word)] ≠ [] :=
  ⟨by decide +kernel, by decide, eq_nextOf (by decide +kernel), eq_nextOf (by decide +kernel), by decide +kernel, by decide⟩

theorem witness_InitOfInvalidMode : 3 ≤ (3#32 : Word).toNat ∧ 3 ≤ (0xffffffff#32 : Word).toNat := by decide

theorem witness_InitOfValidMode : (2#32 : Word).toNat < 3 ∧ SourceUsable coreP.cfg := by decide +kernel

theorem witness_InitCompletes : ParamsLegal coreP.cfg ∧ MemoryOk coreP ∧ SourceUsable coreP.cfg :=
  ⟨coreP_params, coreP_memory, coreP_usable⟩

theorem witness_InitWithoutSourceIsStuck : (2#32 : Word).toNat < 3 ∧ usableSize coreEmpty.cfg = 0 := by decide +kernel

/-- Here and below the hypotheses of one statement are met by one command of one core. -/
theorem witness_StuckOnlyWithoutSource : exec (.init 2#32 0#32 0#32) coreEmpty = .fault .sourceEmpty := rfl

theorem witness_ReadInInvalidReturnsSentinel :
    coreP.mode = .invalid ∧ coreP.Inv ∧ exec .reset coreP = .next (nextOf (exec .reset coreP)) ∧
    (nextOf (exec .reset coreP)).mode = .invalid :=
  ⟨rfl, idle_inv (.inl rfl), rfl, rfl⟩

theorem witness_ReadOfNonEmptyRing :
    let s := { coreP with mode := .mode0, length := 1 }
    s.mode ≠ .invalid ∧ s.length ≠ 0 := by decide

/-- One core for each mode. -/
theorem witness_ReadOfEmptyRingRefills (m : Word) (h : m = 0#32 ∨ m = 1#32 ∨ m = 2#32) :
    let s := started m coreP
    s.Inv ∧ SourceUsable s.cfg ∧ s.mode ≠ .invalid ∧ s.length = 0 ∧
    (m = 0#32 → s.mode = .mode0) ∧ (m = 1#32 → s.mode = .mode1) :=
  ⟨started_inv h (.inl rfl), by rcases h with rfl | rfl | rfl <;> decide +kernel⟩

theorem witness_DefaultPassLeavesThirtyTwoBytes :
    let s := started 2#32 State.reset
    s.Inv ∧ SourceUsable s.cfg ∧ s.mode ≠ .invalid ∧ s.length = 0 ∧ s.cfg.refillThreshold = 32 ∧
    s.mode = .mode2 ∧ s.sideIndex = 0#5 :=
  ⟨started_inv (.inr (.inr rfl)) (.inr rfl), by decide +kernel⟩

theorem witness_ReadFrameByMode (m : Word) (h : m = 0#32 ∨ m = 1#32 ∨ m = 2#32) :
    let s := started m coreP
    exec .read s = .next (nextOf (exec .read s)) ∧ (m = 0#32 → s.mode = .mode0) ∧ (m = 1#32 → s.mode = .mode1) ∧
    (m = 2#32 → s.mode = .mode2) := by
  rcases h with rfl | rfl | rfl <;> exact ⟨eq_nextOf (by decide +kernel), by decide +kernel⟩

theorem witness_InvalidReadsAreAllSentinels : coreP.mode = .invalid := rfl

theorem witness_CommandsKeepSourceAndParameters :
    exec .read coreP = .next (nextOf (exec .read coreP)) ∧ exec .reset coreP = .next (nextOf (exec .reset coreP)) :=
  ⟨rfl, rfl⟩

theorem witness_ModeTransitions :
    isNext (exec .reset coreP) = true ∧ isNext (exec (.init 0#32 0#32 0#32) coreP) = true ∧
    isNext (exec (.init 1#32 0#32 0#32) coreP) = true ∧ isNext (exec (.init 2#32 0#32 0#32) coreP) = true ∧
    3 ≤ (3#32 : Word).toNat ∧ isNext (exec (.init 3#32 0#32 0#32) coreP) = true ∧ isNext (exec .read coreP) = true := by
  decide +kernel

theorem withWords_inv {s : State} (words : List Word) (h : s.Inv) : (withWords words s).Inv :=
  ⟨h.params, ⟨h.memory.src, h.memory.ring, h.memory.kept⟩, ⟨h.ring.length_le, h.ring.read_lt, h.ring.write_lt,
    h.ring.write_eq⟩, h.bound, h.idle, h.contexts,
    fun hm => ⟨(h.arith hm).span_ge, (h.arith hm).val_le, (h.arith hm).bits_pos, (h.arith hm).bits_le⟩,
    ⟨h.order.mode1, h.order.mode2⟩, ⟨h.side.even, h.side.lt⟩⟩

/-- A READ that refills in mode 2. -/
theorem witness_StepKeepsInvariant :
    let s := withWords [2#32] (started 2#32 coreP)
    s.Inv ∧ step s = .next (nextOf (step s)) :=
  ⟨withWords_inv _ (started_inv (.inr (.inr rfl)) (.inl rfl)), eq_nextOf (by decide +kernel)⟩

theorem witness_LegalCoreNeverFaults : coreEmpty.Inv ∧ exec (.init 0#32 0#32 0#32) coreEmpty = .fault .sourceEmpty :=
  ⟨idle_inv (.inr (.inl rfl)), rfl⟩

/-- Two cores with different pasts, and one READ. -/
theorem witness_InitForgetsThePast :
    let s2 := { coreP with out := 0xffffffff#32, lpsHistory := 3#32, mode := .mode1, length := 5 }
    coreP.cfg = s2.cfg ∧ coreP.src = s2.src ∧ ParamsLegal coreP.cfg ∧ MemoryOk coreP ∧ MemoryOk s2 ∧
    exec (.init 0#32 0#32 0#32) coreP = .next (started 0#32 coreP) ∧
    readMany 1 (started 0#32 coreP) = .next (nextOf (readMany 1 (started 0#32 coreP))) :=
  ⟨rfl, rfl, coreP_params, coreP_memory, ⟨by decide +kernel, by decide, nofun⟩, eq_nextOf (by decide +kernel),
    eq_nextOf (by decide +kernel)⟩

/-- Capacity 64 and threshold 1 against capacity 50 and threshold 33. -/
theorem witness_OutputIndependentOfRing :
    let s2 := { coreP with cfg := { coreP.cfg with ringCapacity := 50, refillThreshold := 33 } }
    s2.cfg = { coreP.cfg with ringCapacity := 50, refillThreshold := 33 } ∧ coreP.src = s2.src ∧
    ParamsLegal coreP.cfg ∧ ParamsLegal s2.cfg ∧ MemoryOk coreP ∧ MemoryOk s2 ∧
    exec (.init 2#32 0#32 0#32) coreP = .next (started 2#32 coreP) ∧
    readMany 1 (started 2#32 coreP) = .next (nextOf (readMany 1 (started 2#32 coreP))) :=
  ⟨rfl, rfl, coreP_params, by decide +kernel, coreP_memory, ⟨by decide +kernel, by decide, nofun⟩,
    eq_nextOf (by decide +kernel), eq_nextOf (by decide +kernel)⟩

theorem witness_ZeroSourceGivesZeroOutput :
    ParamsLegal State.reset.cfg ∧ MemoryOk State.reset ∧ SourceUsable State.reset.cfg ∧
    (∀ a, State.reset.src.read a = 0x00#8) ∧ (2#32 : Word).toNat < 3 ∧
    exec (.init 2#32 0#32 0#32) State.reset = .next (started 2#32 State.reset) :=
  ⟨by decide +kernel, ⟨by decide, by decide, nofun⟩, by decide, fun _ => rfl, by decide, eq_nextOf (by decide +kernel)⟩

/-! ### Witnesses: fetch, decoder, ring, modes -/

/-- The sizes on both sides of 0x500000, and the one that leaves no source. -/
theorem witness_UsableSizeOfLegalImage :
    0x100000 ≤ (smallConfig 0 1).imageSize ∧ (smallConfig 0 1).imageSize = 0x100000 ∧
    (smallConfig 0x400000 1).imageSize ≤ 0x500000 ∧ 0x500000 < (smallConfig 0x400001 1).imageSize := by decide

theorem witness_FetchReadsAtTheReducedCursor : usableSize coreEmpty.cfg = 0 ∧ usableSize coreP.cfg ≠ 0 := by
  decide +kernel

/-- On each side of the split's boundary (95_test_vectors.md D2 and D3). -/
theorem witness_IntervalSplitOnIntegers :
    let mps := decoderRow 0xff#8 0xa5#8 0#8 8#4 ⟨0#6, false⟩
    let lps := decoderRow 0xff#8 0xa6#8 0#8 8#4 ⟨0#6, false⟩
    1 ≤ (0x5a#8 : Byte).toNat ∧ (0x5a#8 : Byte).toNat ≤ 0x7e ∧ 0x7f ≤ mps.span.toNat ∧ mps.val.toNat ≤ mps.span.toNat ∧
    (intervalSplit 0x5a#8 mps).1 = false ∧ lps.val.toNat ≤ lps.span.toNat ∧ (intervalSplit 0x5a#8 lps).1 = true := by
  decide +kernel

theorem witness_RenormalizationEnds : SourceUsable coreP.cfg := coreP_usable

/-- An iteration with one bit left, and one with more. -/
theorem witness_RenormalizationIteration :
    let s := decoderRow 0x7e#8 0x7e#8 0xff#8 1#4 ⟨0#6, false⟩
    let t := decoderRow 0x7e#8 0x7e#8 0xff#8 8#4 ⟨0#6, false⟩
    s.inputBitsRemaining.toNat = 1 ∧ renormStep s = .done () (renormStep s).final ∧
    1 ≤ t.inputBitsRemaining.toNat ∧ t.inputBitsRemaining.toNat ≠ 1 ∧ renormStep t = .done () (renormStep t).final := by
  decide +kernel

/-- A decode that shifts less than the bits left, and one that uses them up (95_test_vectors.md D5 and D8). -/
theorem witness_SymbolFetchesAtMostOneByte :
    let s := decoderRow 0x80#8 0x10#8 0xff#8 8#4 ⟨1#6, false⟩
    let t := decoderRow 0xff#8 0xff#8 0x00#8 1#4 ⟨5#6, false⟩
    decodeSymbol 0 s = .done ⟨false, false, 1⟩ (decodeSymbol 0 s).final ∧ 1 < s.inputBitsRemaining.toNat ∧
    s.inputBitsRemaining.toNat ≤ 8 ∧ decodeSymbol 0 t = .done ⟨true, false, 7⟩ (decodeSymbol 0 t).final ∧
    1 ≤ t.inputBitsRemaining.toNat ∧ t.inputBitsRemaining.toNat ≤ 7 := by decide +kernel

theorem witness_DecoderInvariantIsKept :
    let s := decoderRow 0x7e#8 0x7e#8 0xff#8 1#4 ⟨0#6, false⟩
    let t := decoderRow 0x80#8 0x10#8 0xff#8 8#4 ⟨1#6, false⟩
    prime coreP = .done () (prime coreP).final ∧ s.span.toNat < 0x7f ∧ s.val.toNat ≤ s.span.toNat ∧
    renormStep s = .done () (renormStep s).final ∧ ParamsLegal t.cfg ∧ ArithOk t ∧
    decodeSymbol 0 t = .done ⟨false, false, 1⟩ (decodeSymbol 0 t).final :=
  ⟨by decide +kernel, by decide +kernel, by decide +kernel, by decide +kernel, by decide +kernel,
    ⟨by decide, by decide, by decide, by decide⟩, by decide +kernel⟩

/-- An LPS, an MPS with a shift and an MPS without one. -/
theorem witness_DecodeUpdatesItsContext :
    let r := decoderRow 0xff#8 0xa6#8 0x80#8 8#4 ⟨0#6, false⟩
    let s := decoderRow 0x80#8 0x10#8 0xff#8 8#4 ⟨1#6, false⟩
    let t := decoderRow 0xff#8 0xa5#8 0x00#8 8#4 ⟨0#6, false⟩
    decodeSymbol 0 r = .done ⟨true, false, 1⟩ (decodeSymbol 0 r).final ∧
    decodeSymbol 0 s = .done ⟨false, false, 1⟩ (decodeSymbol 0 s).final ∧
    decodeSymbol 0 t = .done ⟨false, false, 0⟩ (decodeSymbol 0 t).final := by decide +kernel

theorem witness_FaultsArePrecise :
    { coreP with length := 64 }.length = coreP.cfg.ringCapacity ∧ coreP.length = 0 ∧ 31 < 32 ∧
    (4#4 : BitVec 4) ∉ (#v[0#4, 1#4, 2#4, 3#4]).toList := by decide

theorem witness_RingWriteStoresAtWriteOffset : coreP.ringData.wf = true ∧ coreP.length ≠ coreP.cfg.ringCapacity := by
  decide

theorem witness_RingIsFirstInFirstOut :
    let t := (ringWrite 0xaa#8 coreP).final
    RingOk coreP ∧ coreP.ringData.wf = true ∧ ringWrite 0xaa#8 coreP = .done () t ∧ RingOk t ∧
    ringRead t = .done 0xaa#8 (ringRead t).final :=
  ⟨(idle_inv (.inl rfl)).ring, rfl, by decide +kernel, ⟨by decide, by decide, by decide, by decide⟩, by decide +kernel⟩

/-- One unit of each mode, in mode 2 with the side buffer starting and with it one unit short of full. -/
theorem witness_UnitsAppendTheirPlanes :
    let s := (started 0#32 coreP)
    let t := (started 1#32 coreP)
    let u := (started 2#32 coreP)
    let v := { started 2#32 coreP with sideIndex := 14#5 }
    (RingOk s ∧ s.ringData.wf = true ∧ mode0Unit s = .done () (mode0Unit s).final) ∧
    (RingOk t ∧ t.ringData.wf = true ∧ mode1Unit t = .done () (mode1Unit t).final) ∧
    (RingOk u ∧ u.ringData.wf = true ∧ mode2Unit u = .done () (mode2Unit u).final ∧ u.sideIndex ≠ 14#5) ∧
    (RingOk v ∧ v.ringData.wf = true ∧ mode2Unit v = .done () (mode2Unit v).final ∧ v.sideIndex = 14#5) :=
  ⟨⟨(started_inv (.inl rfl) (.inl rfl)).ring, by decide +kernel⟩,
    ⟨(started_inv (.inr (.inl rfl)) (.inl rfl)).ring, by decide +kernel⟩,
    ⟨(started_inv (.inr (.inr rfl)) (.inl rfl)).ring, by decide +kernel⟩,
    ⟨⟨by decide +kernel, by decide +kernel, by decide +kernel, by decide +kernel⟩, by decide +kernel⟩⟩

theorem witness_ModeZeroContexts : 3 < 4 ∧ 4 ≤ 4 ∧ 4 < 8 ∧ 4 ≤ 7 ∧ 7 < 8 := by decide

theorem witness_ModeZeroBitEntersAccumulator :
    mode0Bit 0 (started 0#32 coreP) = .done 1 (mode0Bit 0 (started 0#32 coreP)).final := by decide +kernel

/-- One triple for each case (95_test_vectors.md section 5). -/
theorem witness_RefconByCases :
    (0#4 = 0#4 ∧ 0#4 = 0#4) ∧ (2#4 = 2#4 ∧ 2#4 ≠ 1#4) ∧ (1#4 ≠ 3#4 ∧ 3#4 = 3#4) ∧ (1#4 = 1#4 ∧ 1#4 ≠ 2#4) ∧
    (0#4 ≠ 1#4 ∧ 1#4 ≠ 2#4 ∧ 0#4 ≠ 2#4) := by decide

theorem witness_MoveToFrontByIndex :
    let order : Vector (BitVec 4) 4 := #v[3#4, 1#4, 0#4, 2#4]
    order[3] = 2#4 ∧ (∀ (j : Nat) (hj : j < 3), order[j] ≠ 2#4) ∧ ∀ (m : Nat) (hm : m < 4), order[m] ≠ 4#4 := by decide

theorem witness_RankingStartsWithReferences :
    let order : Vector (BitVec 4) 4 := #v[1#4, 2#4, 0#4, 3#4]
    order.toList.Nodup ∧ 1#4 ∈ order.toList ∧ 0#4 ∈ order.toList ∧ 3#4 ∈ order.toList := by decide

theorem witness_ModeOneSecondContext : refcon 0#4 1#4 2#4 ≤ 4 := by decide

theorem witness_ModeOnePixel :
    mode1Pixel () (started 1#32 coreP) = .done () (mode1Pixel () (started 1#32 coreP)).final := by decide +kernel

theorem witness_ModeTwoPixel :
    mode2Pixel () (started 2#32 coreP) = .done () (mode2Pixel () (started 2#32 coreP)).final := by decide +kernel

theorem witness_ModeTwoContextTree : 4 ≤ 4 := by decide

theorem witness_MortonClosedForms : (1 < 2 ∧ 7 < 8) ∧ (3 < 4 ∧ 7 < 8) ∧ (0 < 3 ∧ 3 < 4) := by decide

/-- Planes 0x80 and 0x81 (44_mode1.md R158's example). -/
theorem witness_MortonRoundTrip :
    (∀ k, k < 8 → (0xc001#16).getLsbD (2 * k) = (0x81#8).getLsbD k ∧
      (0xc001#16).getLsbD (2 * k + 1) = (0x80#8).getLsbD k) ∧
    (∀ k, k < 8 → (0xf0000001#32).getLsbD (4 * k) = (0x81#8).getLsbD k ∧
      (0xf0000001#32).getLsbD (4 * k + 1) = (0x80#8).getLsbD k ∧
      (0xf0000001#32).getLsbD (4 * k + 2) = (0x80#8).getLsbD k ∧
      (0xf0000001#32).getLsbD (4 * k + 3) = (0x80#8).getLsbD k) ∧
    7 < 8 ∧ 1 < 2 ∧ 3 < 4 := by decide

end Sys2Proof.Tests
end

section
/-! PROOFS. What no command writes: the parameters, the source, the fault record and the port (10_state.md R34, R35,
20_memory.md R60), and which command returns a byte (30_encoding.md R80). -/

namespace Sys2Proof.Machine

/-- What the core's own operations leave alone: the parameters, the source, the fault record, the port's words and the
bytes returned so far. -/
structure HostSideKept (s t : State) : Prop where
  cfg : t.cfg = s.cfg
  src : t.src = s.src
  fault : t.fault = s.fault
  port : t.port = s.port
  observed : t.observed = s.observed

theorem HostSideKept.refl (s : State) : HostSideKept s s := ⟨rfl, rfl, rfl, rfl, rfl⟩

theorem HostSideKept.trans {s t u : State} (h1 : HostSideKept s t) (h2 : HostSideKept t u) : HostSideKept s u :=
  ⟨h2.cfg.trans h1.cfg, h2.src.trans h1.src, h2.fault.trans h1.fault, h2.port.trans h1.port,
    h2.observed.trans h1.observed⟩

theorem DecodeFrame.hostSideKept {s t : State} (h : DecodeFrame s t) : HostSideKept s t := by
  rw [h]
  exact ⟨rfl, rfl, rfl, rfl, rfl⟩

theorem ReadFrame.hostSideKept {s t : State} (h : ReadFrame s t) : HostSideKept s t := by
  rw [h]
  exact ⟨rfl, rfl, rfl, rfl, rfl⟩

theorem initCommon_hostSideKept (m off : Word) (s : State) : HostSideKept s (initCommon m off s) :=
  ⟨rfl, rfl, rfl, rfl, rfl⟩

theorem clearModeRegisters_hostSideKept (s : State) : HostSideKept s (clearModeRegisters s) :=
  ⟨rfl, rfl, rfl, rfl, rfl⟩

/-- Whatever the mode operand, the priming included (47_commands.md R202, R203). -/
theorem startStream_hostSideKept {m off : Word} {s t : State} (h : startStream m off s = .done () t) :
    HostSideKept s t := by
  have hc := initCommon_hostSideKept m off s
  unfold startStream at h
  split at h
  · cases h
    exact hc
  · exact (hc.trans (clearModeRegisters_hostSideKept _)).trans (prime_frame h).1.hostSideKept

/-- A skip read discards its byte (47_commands.md R205). -/
theorem skipRead_hostSideKept {a b : Unit} {s t : State} (h : skipRead a s = .done b t) : HostSideKept s t := by
  obtain ⟨_, s', hread, hdone⟩ := Res.bind_eq_done.mp h
  cases hdone
  exact (readByte_frame hread).hostSideKept

theorem resetCommand_hostSideKept {s t : State} (h : resetCommand s = .done () t) : HostSideKept s t := by
  cases h
  exact ⟨rfl, rfl, rfl, rfl, rfl⟩

theorem initCommand_hostSideKept {m off k : Word} {s t : State} (h : initCommand m off k s = .done () t) :
    HostSideKept s t := by
  obtain ⟨_, s', hstart, hskip⟩ := Res.bind_eq_done.mp h
  have hloop : HostSideKept s' t :=
    loop_rel HostSideKept.refl (fun _ _ _ => .trans) (fun _ _ _ _ => skipRead_hostSideKept) _ hskip
  exact (startStream_hostSideKept hstart).trans hloop

/-- READ is a kept host side with one byte appended to what the host has seen (47_commands.md R206). -/
theorem readCommand_appends {s t : State} (h : readCommand s = .done () t) :
    ∃ b u, HostSideKept s u ∧ t = { u with observed := s.observed ++ [b] } := by
  obtain ⟨b, u, hread, hdone⟩ := Res.bind_eq_done.mp h
  have hu := (readByte_frame hread).hostSideKept
  cases hdone
  exact ⟨b, u, hu, by rw [hu.observed]⟩

/-- A command other than READ keeps the whole host side. -/
theorem exec_hostSideKept {i : Instr} {s t : State} (hi : i ≠ .read) (h : exec i s = .next t) : HostSideKept s t := by
  cases i with
  | reset => exact resetCommand_hostSideKept (Res.outcome_eq_next.mp h)
  | init m off k => exact initCommand_hostSideKept (Res.outcome_eq_next.mp h)
  | read => exact absurd rfl hi

/-- Settles O24: RESET and INIT keep the whole host side, and READ all of it but the one byte it appends. -/
theorem commandsKeepSourceAndParameters : Obligations.CommandsKeepSourceAndParameters := by
  intro i s t h
  by_cases hi : i = .read
  · subst hi
    obtain ⟨b, u, hu, rfl⟩ := readCommand_appends (Res.outcome_eq_next.mp h)
    exact ⟨hu.cfg, fun a => congrArg (Memory.read · a) hu.src, hu.src, hu.fault, hu.port, fun hne => absurd rfl hne,
      fun _ => ⟨b, rfl⟩⟩
  · have hk := exec_hostSideKept hi h
    exact ⟨hk.cfg, fun a => congrArg (Memory.read · a) hk.src, hk.src, hk.fault, hk.port, fun _ => hk.observed,
      fun hread => absurd hread hi⟩

end Sys2Proof.Machine
end

section
/-! PROOFS. The source region's usable size, and the refusal of a source that changes during a stream (20_memory.md R66,
R67, 70_reset_and_hazards.md R246). -/

namespace Sys2Proof.Machine

/-! ### The usable size -/

theorem usableSize_of_large {cfg : Config} (h : 0x500000 < cfg.imageSize) :
    usableSize cfg = cfg.imageSize - 0x200000 := if_pos h

theorem usableSize_of_small {cfg : Config} (h : cfg.imageSize ≤ 0x500000) :
    usableSize cfg = cfg.imageSize - 0x100000 := if_neg (Nat.not_lt.mpr h)

/-- Settles O31: on the large side the size is positive, so it is 0 only on the small side, at the least legal image. -/
theorem usableSizeOfLegalImage : Obligations.UsableSizeOfLegalImage := by
  intro cfg hlegal
  rcases Nat.lt_or_ge 0x500000 cfg.imageSize with hlarge | hsmall
  · have hU := usableSize_of_large hlarge
    refine ⟨fun _ => ?_, fun _ => ?_, ?_⟩ <;> omega
  · have hU := usableSize_of_small hsmall
    refine ⟨fun _ => ?_, fun _ => ?_, ?_⟩ <;> omega

/-! ### A changed source -/

/-- The source has changed exactly when one is recorded and it is another. -/
theorem sourceUnchanged_eq_false {s : State} :
    sourceUnchanged s = false ↔ ∃ m, s.srcAtInit = some m ∧ s.src ≠ m := by
  unfold sourceUnchanged
  cases s.srcAtInit <;> simp

/-- Whatever words are waiting, before they are decoded (60_exceptions.md R224; log 18). -/
theorem step_of_sourceChanged {s : State} (hparams : ParamsLegal s.cfg) (hfault : s.fault = none)
    (hwords : s.port ≠ []) (hchanged : sourceUnchanged s = false) : step s = .refused .sourceChanged := by
  have hadm : admission s = .refused .sourceChanged := by
    simp [admission, show parameterRefusal s.cfg = none from hparams, hfault, hwords, hchanged]
  rw [step, hadm]

/-- What the port checks besides the words and the source itself is kept: the parameters, the fault record and the
source recorded at the last INIT. -/
structure PortChecksKept (s t : State) : Prop where
  cfg : t.cfg = s.cfg
  fault : t.fault = s.fault
  srcAtInit : t.srcAtInit = s.srcAtInit

theorem PortChecksKept.refl (s : State) : PortChecksKept s s := ⟨rfl, rfl, rfl⟩

theorem PortChecksKept.trans {s t u : State} (h1 : PortChecksKept s t) (h2 : PortChecksKept t u) :
    PortChecksKept s u :=
  ⟨h2.cfg.trans h1.cfg, h2.fault.trans h1.fault, h2.srcAtInit.trans h1.srcAtInit⟩

theorem DecodeFrame.portChecksKept {s t : State} (h : DecodeFrame s t) : PortChecksKept s t := by
  rw [h]
  exact ⟨rfl, rfl, rfl⟩

theorem ReadFrame.portChecksKept {s t : State} (h : ReadFrame s t) : PortChecksKept s t := by
  rw [h]
  exact ⟨rfl, rfl, rfl⟩

/-- INIT records the source in the part every mode operand shares; its priming leaves the record alone. -/
theorem startStream_portChecksKept {m off : Word} {s t : State} (h : startStream m off s = .done () t) :
    PortChecksKept (initCommon m off s) t := by
  unfold startStream at h
  split at h
  · cases h
    exact .refl _
  · have hclear : PortChecksKept (initCommon m off s) (clearModeRegisters (initCommon m off s)) := ⟨rfl, rfl, rfl⟩
    exact hclear.trans (prime_frame h).1.portChecksKept

theorem skipRead_portChecksKept {a b : Unit} {s t : State} (h : skipRead a s = .done b t) : PortChecksKept s t := by
  obtain ⟨_, s', hread, hdone⟩ := Res.bind_eq_done.mp h
  cases hdone
  exact (readByte_frame hread).portChecksKept

theorem execInit_portChecksKept {m off k : Word} {s t : State} (h : exec (.init m off k) s = .next t) :
    PortChecksKept (initCommon m off s) t := by
  obtain ⟨_, s', hstart, hskip⟩ := Res.bind_eq_done.mp (Res.outcome_eq_next.mp h)
  have hloop : PortChecksKept s' t :=
    loop_rel PortChecksKept.refl (fun _ _ _ => .trans) (fun _ _ _ _ => skipRead_portChecksKept) _ hskip
  exact (startStream_portChecksKept hstart).trans hloop

theorem execRead_portChecksKept {s t : State} (h : exec .read s = .next t) : PortChecksKept s t := by
  obtain ⟨_, s', hread, hdone⟩ := Res.bind_eq_done.mp (Res.outcome_eq_next.mp h)
  have hkept := (readByte_frame hread).portChecksKept
  cases hdone
  exact ⟨hkept.cfg, hkept.fault, hkept.srcAtInit⟩

/-- `n + 1` READs complete exactly when the first does and the `n` after it do. -/
theorem readMany_succ_eq_next {n : Nat} {s u : State} :
    readMany (n + 1) s = .next u ↔ ∃ t, exec .read s = .next t ∧ readMany n t = .next u := by
  rw [readMany]
  cases exec .read s <;> simp

/-- READs that complete relate their ends by any reflexive, transitive relation each READ keeps. -/
theorem readMany_rel {R : State → State → Prop} (hrefl : ∀ s, R s s) (htrans : ∀ s t u, R s t → R t u → R s u)
    (hread : ∀ s t, exec .read s = .next t → R s t) {n : Nat} {s u : State} (h : readMany n s = .next u) : R s u := by
  induction n generalizing s with
  | zero =>
    cases h
    exact hrefl _
  | succ n ih =>
    obtain ⟨t, hfirst, hrest⟩ := readMany_succ_eq_next.mp h
    exact htrans _ _ _ (hread s t hfirst) (ih hrest)

/-- Settles O8: INIT records its source, no READ changes the record, and the port compares the source with it. -/
theorem changedSourceIsRefused : Obligations.ChangedSourceIsRefused := by
  intro s t u m off k n src' words hparams hfault hinit hreads hsrc hwords
  have hreadsKept : PortChecksKept t u :=
    readMany_rel .refl (fun _ _ _ => .trans) (fun _ _ => execRead_portChecksKept) hreads
  obtain ⟨hcfg, hflt, hrec⟩ := (execInit_portChecksKept hinit).trans hreadsKept
  have hlegal : ParamsLegal u.cfg := by rw [hcfg]; exact hparams
  exact step_of_sourceChanged hlegal (hflt.trans hfault) hwords (sourceUnchanged_eq_false.mpr ⟨s.src, hrec, hsrc⟩)

end Sys2Proof.Machine
end

section
/-! PROOFS. The command encoding (30_encoding.md R80, R81, R89): what the decoder answers for every word 0, that it is
the encoder's inverse, and what a step does with its answer (60_exceptions.md R224, R225). -/

namespace Sys2Proof

/-! ### The fields of word 0 -/

theorem wordRsv_toNat (w : Word) : (wordRsv w).toNat = w.toNat / 256 := by
  have hw := w.isLt
  rw [wordRsv, BitVec.extractLsb'_toNat, Nat.shiftRight_eq_div_pow]
  omega

theorem wordOp_toNat (w : Word) : (wordOp w).toNat = w.toNat % 256 := by
  rw [wordOp, BitVec.extractLsb'_toNat, Nat.shiftRight_zero]

/-- The reserved field is 0 exactly in the words below 256. -/
theorem wordRsv_eq_zero {w : Word} : wordRsv w = 0#24 ↔ w.toNat < 256 := by
  rw [← BitVec.toNat_inj, wordRsv_toNat, BitVec.toNat_ofNat]
  omega

/-- A word without reserved bits is its code. -/
theorem wordOp_ne {w : Word} {c : BitVec 8} (hrsv : w.toNat < 256) (hne : w.toNat ≠ c.toNat) : wordOp w ≠ c := by
  intro h
  rw [← h, wordOp_toNat] at hne
  omega

/-! ### What the decoder answers -/

@[simp] theorem decode_resetWord (rest : List Word) : decode (0x00000000#32 :: rest) = .ok (.reset, rest) := rfl

@[simp] theorem decode_initWords (mode off k : Word) (rest : List Word) :
    decode (0x00000001#32 :: mode :: off :: k :: rest) = .ok (.init mode off k, rest) := rfl

@[simp] theorem decode_readWord (rest : List Word) : decode (0x00000002#32 :: rest) = .ok (.read, rest) := rfl

theorem decode_reservedField {w : Word} (h : 256 ≤ w.toNat) (rest : List Word) :
    decode (w :: rest) = .error .reservedField :=
  if_pos (mt wordRsv_eq_zero.mp (Nat.not_lt.mpr h))

theorem decode_reservedCode {w : Word} (hlow : 3 ≤ w.toNat) (hhigh : w.toNat < 256) (rest : List Word) :
    decode (w :: rest) = .error .reservedCode := by
  have hreset : wordOp w ≠ 0x00#8 := wordOp_ne hhigh (by simp; omega)
  have hinit : wordOp w ≠ 0x01#8 := wordOp_ne hhigh (by simp; omega)
  have hread : wordOp w ≠ 0x02#8 := wordOp_ne hhigh (by simp; omega)
  simp [decode, wordRsv_eq_zero.mpr hhigh, hreset, hinit, hread]

theorem decode_truncatedInit {operands : List Word} (h : operands.length < 3) :
    decode (0x00000001#32 :: operands) = .error .truncatedInit := by
  match operands, h with
  | [], _ => rfl
  | [_], _ => rfl
  | [_, _], _ => rfl

/-- The five kinds of word 0 (30_encoding.md R80, R89). -/
theorem word0_cases (w : Word) :
    w = 0x00000000#32 ∨ w = 0x00000001#32 ∨ w = 0x00000002#32 ∨ (3 ≤ w.toNat ∧ w.toNat < 256) ∨ 256 ≤ w.toNat := by
  bv_omega

/-! ### Decoder and encoder -/

theorem decode_encode_append (i : Instr) (rest : List Word) : decode (encode i ++ rest) = .ok (i, rest) := by
  cases i with
  | reset => exact decode_resetWord rest
  | init mode off k => exact decode_initWords mode off k rest
  | read => exact decode_readWord rest

/-- What follows an INIT's word 0 is short of three words, or three operands and a rest. -/
theorem eq_encode_append_of_decode_init {operands rest : List Word} {i : Instr}
    (h : decode (0x00000001#32 :: operands) = .ok (i, rest)) : 0x00000001#32 :: operands = encode i ++ rest := by
  match operands with
  | mode :: off :: k :: rest' =>
    cases h
    rfl
  | [] | [_] | [_, _] =>
    rw [decode_truncatedInit (by simp)] at h
    cases h

theorem eq_encode_append_of_decode {ws rest : List Word} {i : Instr} (h : decode ws = .ok (i, rest)) :
    ws = encode i ++ rest := by
  cases ws with
  | nil => cases h
  | cons w operands =>
    obtain rfl | rfl | rfl | ⟨hlow, hhigh⟩ | hrsv := word0_cases w
    · cases h
      rfl
    · exact eq_encode_append_of_decode_init h
    · cases h
      rfl
    · rw [decode_reservedCode hlow hhigh] at h
      cases h
    · rw [decode_reservedField hrsv] at h
      cases h

/-- Settles O1: the decoder undoes the encoder, and of the five kinds of word 0 it answers only the three commands'. -/
theorem decodeInvertsEncode : Obligations.DecodeInvertsEncode := by
  intro ws i rest
  constructor
  · exact eq_encode_append_of_decode
  · rintro rfl
    exact decode_encode_append i rest

/-- Settles O2: the three words are the encoder's. -/
theorem writtenOutWordsDecode : Obligations.WrittenOutWordsDecode :=
  ⟨decode_resetWord [], decode_initWords _ _ _ [], decode_readWord _⟩

end Sys2Proof

namespace Sys2Proof.Machine

/-! ### What a step does with the decoder's answer -/

/-- With the parameters, the fault record and the source in order, waiting words alone decide what the port answers
(60_exceptions.md R225; log 18). -/
theorem admission_of_words {s : State} (hparams : ParamsLegal s.cfg) (hfault : s.fault = none)
    (hsrc : sourceUnchanged s = true) (hwords : s.port ≠ []) : admission s = admissionOfWords s.port := by
  simp [admission, show parameterRefusal s.cfg = none from hparams, hfault, hwords, hsrc]

theorem step_of_decode_ok {s : State} {i : Instr} {rest : List Word} (hparams : ParamsLegal s.cfg)
    (hfault : s.fault = none) (hsrc : sourceUnchanged s = true) (hdecode : decode s.port = .ok (i, rest)) :
    step s = exec i { s with port := rest } := by
  have hwords : s.port ≠ [] := by
    intro hempty
    rw [hempty] at hdecode
    cases hdecode
  have hadm : admission s = .run i rest := by
    rw [admission_of_words hparams hfault hsrc hwords, admissionOfWords, hdecode]
  rw [step, hadm]
  rfl

/-- The error is one of R89's, so words are waiting. -/
theorem step_of_decode_error {s : State} {e : DecodeError} {r : Refusal} (hparams : ParamsLegal s.cfg)
    (hfault : s.fault = none) (hsrc : sourceUnchanged s = true) (hdecode : decode s.port = .error e)
    (hrefusal : decodeRefusal e = some r) : step s = .refused r := by
  have hwords : s.port ≠ [] := by
    intro hempty
    rw [hempty] at hdecode
    cases hdecode
    cases hrefusal
  have hadm : admission s = .refused r := by
    simp [admission_of_words hparams hfault hsrc hwords, admissionOfWords, hdecode, hrefusal]
  rw [step, hadm]

/-- Settles O3: each clause is the decoder's answer for that kind of word 0, carried through the port. -/
theorem reservedWordsAreRefused : Obligations.ReservedWordsAreRefused := by
  intro s w rest hparams hfault hsrc hport
  have hinit : w.toNat = 1 → w = 0x00000001#32 := fun hw => BitVec.eq_of_toNat_eq hw
  have hrefused {e : DecodeError} {r : Refusal} (hdecode : decode (w :: rest) = .error e)
      (hr : decodeRefusal e = some r) : step s = .refused r :=
    step_of_decode_error hparams hfault hsrc (hport ▸ hdecode) hr
  refine ⟨fun hrsv => ?_, fun hlow hhigh => ?_, fun hw hshort => ?_, fun mode off k rest' hw hrest => ?_⟩
  · exact hrefused (decode_reservedField hrsv rest) rfl
  · exact hrefused (decode_reservedCode hlow hhigh rest) rfl
  · exact hrefused (hinit hw ▸ decode_truncatedInit hshort) rfl
  · have hdecode : decode s.port = .ok (.init mode off k, rest') := by
      rw [hport, hinit hw, hrest, decode_initWords]
    exact step_of_decode_ok hparams hfault hsrc hdecode

end Sys2Proof.Machine
end

section
/-! PROOFS. The source fetch, and how many of them one symbol decode makes (40_source_fetch.md R101, R103). -/

namespace Sys2Proof.Machine

/-! ### One fetch -/

/-- A register takes its low 32 bits whether or not the number is reduced first. -/
theorem word_ofNat_mod (n : Nat) : BitVec.ofNat 32 (n % 2 ^ 32) = BitVec.ofNat 32 n :=
  BitVec.eq_of_toNat_eq (by rw [BitVec.toNat_ofNat, BitVec.toNat_ofNat, Nat.mod_mod])

/-- Settles O32: the two laws of a fetch, with the stored cursor's reduction written out. -/
theorem fetchReadsAtTheReducedCursor : Obligations.FetchReadsAtTheReducedCursor := by
  refine fun s => ⟨fetch_stuck, fun hU => ?_⟩
  rw [word_ofNat_mod]
  exact fetch_done hU

/-! ### Fetches of a run of shifts -/

/-- From `s` to `t` the cursor and the bit count changed as `n` shifts change them: the cursor by no fetch while bits are
left, by one fetch once they are used up, with the count reloaded at that shift (40_source_fetch.md R103). -/
def ShiftedBits (n : Nat) (s t : State) : Prop :=
  (n < s.inputBitsRemaining.toNat →
    t.cursor = s.cursor ∧ t.inputBitsRemaining.toNat = s.inputBitsRemaining.toNat - n) ∧
  (s.inputBitsRemaining.toNat ≤ n →
    t.cursor = BitVec.ofNat 32 (s.cursor.toNat % usableSize s.cfg + 1) ∧
      t.inputBitsRemaining.toNat = 8 - (n - s.inputBitsRemaining.toNat))

theorem ShiftedBits.zero {s : State} (hpos : 1 ≤ s.inputBitsRemaining.toNat) : ShiftedBits 0 s s :=
  ⟨fun _ => ⟨rfl, rfl⟩, fun hused => by omega⟩

/-- An iteration with more than one bit left takes one of them and fetches nothing (41_arith_decoder.md R114). -/
theorem renormStep_of_bits_left {s t : State} (hbits : 1 < s.inputBitsRemaining.toNat)
    (h : renormStep s = .done () t) :
    t.cursor = s.cursor ∧ t.inputBitsRemaining.toNat = s.inputBitsRemaining.toNat - 1 := by
  have hcount : (s.inputBitsRemaining - 1#4).toNat = s.inputBitsRemaining.toNat - 1 := by bv_omega
  have hleft : s.inputBitsRemaining - 1#4 ≠ 0#4 := by bv_omega
  rw [renormStep, if_neg hleft] at h
  cases h
  exact ⟨rfl, hcount⟩

/-- An iteration on the last bit makes one fetch and reloads the count (41_arith_decoder.md R114). -/
theorem renormStep_of_last_bit {s t : State} (hbits : s.inputBitsRemaining.toNat = 1)
    (h : renormStep s = .done () t) :
    t.cursor = BitVec.ofNat 32 (s.cursor.toNat % usableSize s.cfg + 1) ∧ t.inputBitsRemaining = 8#4 := by
  have hused : s.inputBitsRemaining - 1#4 = 0#4 := by bv_omega
  rw [renormStep, if_pos hused] at h
  obtain ⟨b, u, hfetch, hdone⟩ := Res.bind_eq_done.mp h
  cases hdone
  by_cases hU : usableSize s.cfg = 0
  · rw [fetch_stuck (by exact hU)] at hfetch
    cases hfetch
  · rw [fetch_done (by exact hU)] at hfetch
    cases hfetch
    exact ⟨rfl, rfl⟩

/-- Up to eight iterations reload the bit count at most once: a reload leaves 8 bits, and at most 7 iterations follow it. -/
theorem renormSteps_shiftedBits {n : Nat} {s t : State} (hn : n ≤ 8) (hpos : 1 ≤ s.inputBitsRemaining.toNat)
    (h : loop (fun _ : Unit => renormStep) n () s = .done () t) : ShiftedBits n s t := by
  induction n generalizing s with
  | zero =>
    cases h
    exact .zero hpos
  | succ n ih =>
    obtain ⟨_, s1, hstep, hrest⟩ := Res.bind_eq_done.mp h
    have hcfg : s1.cfg = s.cfg := (renormStep_frame hstep).cfg_eq
    rcases Nat.eq_or_lt_of_le hpos with hlast | hmore
    · obtain ⟨hcursor, hreload⟩ := renormStep_of_last_bit hlast.symm hstep
      have hbits : s1.inputBitsRemaining.toNat = 8 := by rw [hreload]; rfl
      obtain ⟨hkeep, -⟩ := ih (by omega) (by omega) hrest
      obtain ⟨hcursor', hbits'⟩ := hkeep (by omega)
      exact ⟨fun hfew => by omega, fun _ => ⟨hcursor'.trans hcursor, by omega⟩⟩
    · obtain ⟨hcursor, hbits⟩ := renormStep_of_bits_left hmore hstep
      obtain ⟨hkeep, hfetch⟩ := ih (by omega) (by omega) hrest
      rw [hcursor, hcfg] at hfetch
      rw [hcursor] at hkeep
      refine ⟨fun hfew => ?_, fun hused => ?_⟩
      · obtain ⟨hcursor', hbits'⟩ := hkeep (by omega)
        exact ⟨hcursor', by omega⟩
      · obtain ⟨hcursor', hbits'⟩ := hfetch (by omega)
        exact ⟨hcursor', by omega⟩

/-! ### Renormalization and the whole decode -/

/-- Renormalization counts no more iterations than its fuel, whatever state it starts in. -/
theorem renormLoop_count_le {fuel shift n : Nat} {s t : State} (h : renormLoop fuel shift s = .done n t) :
    n ≤ shift + fuel := by
  induction fuel generalizing shift s with
  | zero =>
    cases h
    exact le_rfl
  | succ fuel ih =>
    rw [renormLoop] at h
    split at h
    · obtain ⟨_, _, _, hrest⟩ := Res.bind_eq_done.mp h
      have hle := ih hrest
      omega
    · cases h
      omega

/-- Seven shifts are at most one fetch (40_source_fetch.md R103). -/
theorem renormalize_shiftedBits {n : Nat} {s t : State} (hpos : 1 ≤ s.inputBitsRemaining.toNat)
    (h : renormalize s = .done n t) : ShiftedBits n s t := by
  have hcount : n ≤ 0 + 7 := renormLoop_count_le h
  exact renormSteps_shiftedBits (by omega) hpos (renormLoop_iterates h).2

/-- A decode that completes is a lookup, the split by the entry's probability, the renormalization of that split and the
context update (41_arith_decoder.md R116). -/
theorem decodeSymbol_eq_done {con : Nat} {s t : State} {sym : Symbol} (h : decodeSymbol con s = .done sym t) :
    ∃ ce u, lookupContext con s = .done ce s ∧
      renormalize (intervalSplit ce.2.probability s).2 = .done sym.shift u ∧
      sym.flag = (intervalSplit ce.2.probability s).1 ∧ sym.invertUsed = ce.1.invert ∧
      t = updateContext con ce.2 sym.flag sym.shift ce.1 u := by
  obtain ⟨ce, s0, hlookup, hrest⟩ := Res.bind_eq_done.mp h
  obtain ⟨rfl, -⟩ := lookupContext_frame hlookup
  obtain ⟨n, u, hrenorm, hdone⟩ := Res.bind_eq_done.mp hrest
  cases hdone
  exact ⟨ce, u, hlookup, hrenorm, rfl, rfl, rfl⟩

/-- The split leaves the cursor, the bit count and the parameters alone. -/
theorem ShiftedBits.of_intervalSplit {n : Nat} {prob : BitVec 8} {s t : State}
    (h : ShiftedBits n (intervalSplit prob s).2 t) : ShiftedBits n s t := by
  rw [intervalSplit_frame] at h
  exact h

/-- Settles O35: only the renormalization of a decode fetches, and it is at most seven shifts. -/
theorem symbolFetchesAtMostOneByte : Obligations.SymbolFetchesAtMostOneByte := by
  intro con s t sym hpos _ h
  obtain ⟨ce, u, -, hrenorm, -, -, rfl⟩ := decodeSymbol_eq_done h
  have hsplit : (intervalSplit ce.2.probability s).2.inputBitsRemaining = s.inputBitsRemaining := by
    rw [intervalSplit_frame]
  exact (renormalize_shiftedBits (hsplit ▸ hpos) hrenorm).of_intervalSplit

end Sys2Proof.Machine
end

section
/-! PROOFS. The arithmetic decoder: the split and one renormalization iteration on integers, how renormalization ends,
and what one whole decode does to its context and its invariant (41_arith_decoder.md R112 to R119). -/

namespace Sys2Proof.Machine

/-! ### The interval split -/

/-- The split with a legal probability, told by the comparison of R113 on integers; every difference is nonnegative. -/
theorem intervalSplit_on_integers {prob : BitVec 8} {s : State} (h1 : 1 ≤ prob.toNat) (h2 : prob.toNat ≤ 0x7e)
    (hspan : 0x7f ≤ s.span.toNat) (hval : s.val.toNat ≤ s.span.toNat) :
    ((intervalSplit prob s).1 = true ∧ (s.span.toNat : Int) - prob.toNat < s.val.toNat ∧
      ((intervalSplit prob s).2.span.toNat : Int) = prob.toNat - 1 ∧
      ((intervalSplit prob s).2.val.toNat : Int) = s.val.toNat - (s.span.toNat - (prob.toNat - 1))) ∨
    ((intervalSplit prob s).1 = false ∧ ¬ (s.span.toNat : Int) - prob.toNat < s.val.toNat ∧
      ((intervalSplit prob s).2.span.toNat : Int) = s.span.toNat - prob.toNat ∧
      (intervalSplit prob s).2.val = s.val) := by
  obtain ⟨hmps, hlps⟩ := intervalSplit_values h1 h2 hspan hval
  rcases Nat.lt_or_ge s.span.toNat (s.val.toNat + prob.toNat) with habove | hbelow
  · obtain ⟨hflag, hspan', hval'⟩ := hlps habove
    exact .inl ⟨hflag, by omega, by omega, by omega⟩
  · obtain ⟨hflag, hspan', hval'⟩ := hmps hbelow
    exact .inr ⟨hflag, by omega, by omega, hval'⟩

/-- Either part of the interval still holds `val` (41_arith_decoder.md R119). -/
theorem intervalSplit_val_le {prob : BitVec 8} {s : State} (h1 : 1 ≤ prob.toNat) (h2 : prob.toNat ≤ 0x7e)
    (hspan : 0x7f ≤ s.span.toNat) (hval : s.val.toNat ≤ s.span.toNat) :
    (intervalSplit prob s).2.val.toNat ≤ (intervalSplit prob s).2.span.toNat := by
  obtain ⟨-, _, hspan', hval'⟩ | ⟨-, _, hspan', hval'⟩ :=
    intervalSplit_on_integers h1 h2 hspan hval
  · omega
  · rw [hval']
    omega

/-- Settles O33: the two parts of the interval, each excluding the other's clauses. -/
theorem intervalSplitOnIntegers : Obligations.IntervalSplitOnIntegers := by
  intro prob s h1 h2 hspan hval
  have hle := intervalSplit_val_le h1 h2 hspan hval
  refine ⟨(intervalSplit prob s).1, (intervalSplit prob s).2, rfl, intervalSplit_frame prob s, ?_⟩
  obtain ⟨hflag, hcmp, hspan', hval'⟩ | ⟨hflag, hcmp, hspan', hval'⟩ :=
    intervalSplit_on_integers h1 h2 hspan hval
  · simp [hflag, hcmp, hspan', hval', hle]
  · simp [hflag, hcmp, hspan', hval', hval' ▸ hle]

/-! ### One renormalization iteration -/

/-- The registers one iteration shifts, before the fetch that the last bit brings (41_arith_decoder.md R114). -/
def shiftRegisters (s : State) : State :=
  { s with
    span := s.span * 2#8 + 1#8
    val := s.val * 2#8 + (BitVec.ofBool s.inputByte.msb).setWidth 8
    inputByte := s.inputByte <<< 1
    inputBitsRemaining := s.inputBitsRemaining - 1#4 }

/-- The registers the fetch on the last bit loads (40_source_fetch.md R101, 41_arith_decoder.md R114). -/
def reloadInputByte (s : State) : State :=
  { s with
    inputByte := s.src.read (s.cfg.baseOffset + s.cursor.toNat % usableSize s.cfg)
    inputBitsRemaining := 8#4
    cursor := BitVec.ofNat 32 (s.cursor.toNat % usableSize s.cfg + 1) }

theorem renormStep_eq_of_not_last_bit {s : State} (hbits : s.inputBitsRemaining.toNat ≠ 1) :
    renormStep s = .done () (shiftRegisters s) := by
  have hleft : s.inputBitsRemaining - 1#4 ≠ 0#4 := by bv_omega
  rw [renormStep, if_neg hleft]
  rfl

theorem renormStep_eq_of_last_bit {s : State} (hU : SourceUsable s.cfg) (hbits : s.inputBitsRemaining.toNat = 1) :
    renormStep s = .done () (reloadInputByte (shiftRegisters s)) := by
  have hused : s.inputBitsRemaining - 1#4 = 0#4 := by bv_omega
  rw [renormStep, if_pos hused, fetch_done (by exact hU)]
  rfl

theorem renormStep_stuck {s : State} (hU : usableSize s.cfg = 0) (hbits : s.inputBitsRemaining.toNat = 1) :
    renormStep s = .stop .sourceEmpty (shiftRegisters s) := by
  have hused : s.inputBitsRemaining - 1#4 = 0#4 := by bv_omega
  rw [renormStep, if_pos hused, fetch_stuck (by exact hU)]
  rfl

/-- An iteration that completes shifted the registers, and on the last bit also reloaded `inputByte` by one fetch. -/
theorem renormStep_cases {s t : State} (h : renormStep s = .done () t) :
    (s.inputBitsRemaining.toNat ≠ 1 ∧ t = shiftRegisters s) ∨
    (s.inputBitsRemaining.toNat = 1 ∧ t = reloadInputByte (shiftRegisters s)) := by
  by_cases hbits : s.inputBitsRemaining.toNat = 1
  · by_cases hU : usableSize s.cfg = 0
    · rw [renormStep_stuck hU hbits] at h
      cases h
    · rw [renormStep_eq_of_last_bit hU hbits] at h
      cases h
      exact .inr ⟨hbits, rfl⟩
  · rw [renormStep_eq_of_not_last_bit hbits] at h
    cases h
    exact .inl ⟨hbits, rfl⟩

/-- The fetch touches neither end of the interval. -/
theorem renormStep_interval {s t : State} (h : renormStep s = .done () t) :
    t.span = (shiftRegisters s).span ∧ t.val = (shiftRegisters s).val := by
  obtain ⟨-, rfl⟩ | ⟨-, rfl⟩ := renormStep_cases h <;> exact ⟨rfl, rfl⟩

theorem toNat_msb_eq_div (b : Byte) : b.msb.toNat = b.toNat / 128 := by
  have hb := b.isLt
  rw [BitVec.msb_eq_decide]
  rcases Nat.lt_or_ge b.toNat 128 with hlow | hhigh
  · rw [decide_eq_false (Nat.not_le.mpr hlow), Bool.toNat_false]
    omega
  · rw [decide_eq_true hhigh, Bool.toNat_true]
    omega

@[simp] theorem shiftRegisters_span_toNat (s : State) :
    (shiftRegisters s).span.toNat = (2 * s.span.toNat + 1) % 256 := by
  simp [shiftRegisters, Nat.mul_comm]

@[simp] theorem shiftRegisters_val_toNat (s : State) :
    (shiftRegisters s).val.toNat = (2 * s.val.toNat + s.inputByte.msb.toNat) % 256 := by
  simp [shiftRegisters, Nat.mul_comm]

/-- Settles O55: the shift on integers, then what the last bit and what the others do. -/
theorem renormalizationIteration : Obligations.RenormalizationIteration := by
  intro s t hpos h
  obtain ⟨hspan, hval⟩ := renormStep_interval h
  refine ⟨by rw [hspan, shiftRegisters_span_toNat],
    by rw [hval, shiftRegisters_val_toNat, toNat_msb_eq_div], ?_⟩
  obtain ⟨hbits, rfl⟩ | ⟨hbits, rfl⟩ := renormStep_cases h
  · refine ⟨fun hlast => absurd hlast hbits, fun _ => ⟨?_, ?_, rfl⟩, rfl⟩
    · simp [shiftRegisters, Nat.shiftLeft_eq, Nat.mul_comm]
    · show (s.inputBitsRemaining - 1#4).toNat = _
      bv_omega
  · exact ⟨fun _ => ⟨rfl, rfl, rfl⟩, fun hmore => absurd hbits hmore, rfl⟩

/-! ### Renormalization -/

theorem renormLoop_of_span_ge {fuel shift : Nat} {s : State} (h : 0x7f ≤ s.span.toNat) :
    renormLoop fuel shift s = .done shift s := by
  cases fuel with
  | zero => rfl
  | succ fuel => exact if_neg (Nat.not_lt.mpr h)

theorem renormStep_completes {s : State} (hU : SourceUsable s.cfg) : ∃ t, renormStep s = .done () t := by
  by_cases hbits : s.inputBitsRemaining.toNat = 1
  · exact ⟨_, renormStep_eq_of_last_bit hU hbits⟩
  · exact ⟨_, renormStep_eq_of_not_last_bit hbits⟩

/-- Below 0x7f an iteration doubles `span + 1` without a wrap. -/
theorem renormStep_doubles {s t : State} (hlt : s.span.toNat < 0x7f) (h : renormStep s = .done () t) :
    t.span.toNat = 2 * s.span.toNat + 1 := by
  rw [(renormStep_interval h).1, shiftRegisters_span_toNat]
  omega

/-- With fuel enough to double `span + 1` up to 0x80, the loop ends because `span` is there. -/
theorem renormLoop_ends {fuel shift : Nat} {s : State} (hU : SourceUsable s.cfg)
    (hfuel : 0x80 ≤ (s.span.toNat + 1) * 2 ^ fuel) :
    ∃ k t, renormLoop fuel shift s = .done (shift + k) t ∧ 0x7f ≤ t.span.toNat ∧
      t.span.toNat + 1 = (s.span.toNat + 1) * 2 ^ k := by
  induction fuel generalizing shift s with
  | zero => exact ⟨0, s, rfl, by omega, by omega⟩
  | succ fuel ih =>
    rcases Nat.lt_or_ge s.span.toNat 0x7f with hlt | hge
    · obtain ⟨u, hstep⟩ := renormStep_completes hU
      have hU' : SourceUsable u.cfg := by rwa [(renormStep_frame hstep).cfg_eq]
      have hdouble (m : Nat) : (u.span.toNat + 1) * 2 ^ m = (s.span.toNat + 1) * 2 ^ (m + 1) := by
        rw [renormStep_doubles hlt hstep]
        ring
      obtain ⟨k, t, hloop, hspan, hpow⟩ := ih (shift := shift + 1) hU' (hdouble fuel ▸ hfuel)
      refine ⟨k + 1, t, ?_, hspan, hpow.trans (hdouble k)⟩
      rw [renormLoop, if_pos hlt, hstep, Res.bind_done, hloop]
      congr 1
      omega
    · exact ⟨0, s, renormLoop_of_span_ge hge, hge, by omega⟩

/-- Settles O34: seven doublings of `span + 1` reach 0x80 from 1, so the fuel never ends the loop (log 15). -/
theorem renormalizationEnds : Obligations.RenormalizationEnds := by
  intro s hU
  obtain ⟨n, t, hloop, hspan, hpow⟩ := renormLoop_ends (fuel := 7) (shift := 0) hU (by omega)
  rw [Nat.zero_add] at hloop
  have hcount : n ≤ 0 + 7 := renormLoop_count_le hloop
  refine ⟨n, t, hloop, (renormLoop_iterates hloop).2, by omega, hspan, hpow, fun hidle => ?_⟩
  rw [renormLoop_of_span_ge hidle] at hloop
  cases hloop
  exact ⟨rfl, rfl⟩

/-! ### The whole decode -/

/-- A lookup that completes was of a context in range whose state index is an entry of the table, and answers both. -/
theorem lookupContext_eq_done {con : Nat} {s t : State} {ce : Context × EvolutionEntry}
    (h : lookupContext con s = .done ce t) :
    ∃ (hc : con < 32) (he : s.ctx[con].stateIndex.toNat < 53),
      ce = (s.ctx[con], s.cfg.evolutionTable[s.ctx[con].stateIndex.toNat]) := by
  unfold lookupContext at h
  split at h
  · rename_i hc
    split at h
    · rename_i he
      cases h
      exact ⟨hc, he, rfl⟩
    · cases h
  · cases h

/-- Priming that completes had a source region, and starts the interval whole (41_arith_decoder.md R118). -/
theorem prime_arithOk {s t : State} (h : prime s = .done () t) : ArithOk t ∧ t.span = 0xff#8 := by
  by_cases hU : usableSize s.cfg = 0
  · rw [prime_stuck hU] at h
    cases h
  · rw [prime_done hU] at h
    cases h
    exact ⟨⟨(by decide : 0x7f ≤ (0xff#8).toNat), Nat.le_of_lt_succ (BitVec.isLt _), (by decide : 1 ≤ (8#4).toNat),
      (by decide : (8#4).toNat ≤ 8)⟩, rfl⟩

/-- Below 0x7f the new bit enters `val` without a wrap. -/
theorem renormStep_val {s t : State} (hlt : s.span.toNat < 0x7f) (hval : s.val.toNat ≤ s.span.toNat)
    (h : renormStep s = .done () t) : t.val.toNat = 2 * s.val.toNat + s.inputByte.msb.toNat := by
  have hbit := Bool.toNat_le s.inputByte.msb
  rw [(renormStep_interval h).2, shiftRegisters_val_toNat]
  omega

/-- The split keeps `val ≤ span`, and from there renormalization restores the invariant (41_arith_decoder.md R119). -/
theorem decodeSymbol_arithOk {con : Nat} {s t : State} {sym : Symbol} (hparams : ParamsLegal s.cfg) (ha : ArithOk s)
    (h : decodeSymbol con s = .done sym t) : ArithOk t := by
  obtain ⟨ce, u, hlookup, hrenorm, -, -, rfl⟩ := decodeSymbol_eq_done h
  obtain ⟨hc, he, rfl⟩ := lookupContext_eq_done hlookup
  obtain ⟨-, -, hprob1, hprob2⟩ := entry_legal hparams _ he
  have hval := intervalSplit_val_le hprob1 hprob2 ha.span_ge ha.val_le
  have hbits (prob : BitVec 8) : (intervalSplit prob s).2.inputBitsRemaining = s.inputBitsRemaining := by
    rw [intervalSplit_frame]
  have hsat := renormalize_sat hval (hbits _ ▸ ha.bits_pos) (hbits _ ▸ ha.bits_le)
  rw [hrenorm] at hsat
  obtain ⟨hu, -⟩ := hsat
  exact ⟨hu.span_ge, hu.val_le, hu.bits_pos, hu.bits_le⟩

/-- Settles O36: priming, the split, an iteration and a whole decode, each by its own lemma. -/
theorem decoderInvariantIsKept : Obligations.DecoderInvariantIsKept := by
  refine ⟨fun s t => prime_arithOk, fun prob s h1 h2 hspan hval => ?_, fun s t hlt hval h => ?_,
    fun con s t sym => decodeSymbol_arithOk⟩
  · refine ⟨intervalSplit_val_le h1 h2 hspan hval, ?_⟩
    obtain ⟨-, hcmp, hvalues⟩ | ⟨-, hcmp, hvalues⟩ :=
    intervalSplit_on_integers h1 h2 hspan hval
    · exact ⟨fun _ => hvalues, fun hmps => absurd hcmp hmps⟩
    · exact ⟨fun hlps => absurd hlps hcmp, fun _ => hvalues⟩
  · have hspan' := renormStep_doubles hlt h
    have hval' := renormStep_val hlt hval h
    have hbit := Bool.toNat_le s.inputByte.msb
    exact ⟨by omega, hspan', hval'⟩

/-! ### The context's update -/

/-- After an LPS (41_arith_decoder.md R117). -/
theorem contextAfter_lps (e : EvolutionEntry) (shift : Nat) (c : Context) :
    contextAfter e true shift c = ⟨BitVec.ofNat 6 e.nextOnLPS, c.invert ^^ e.toggleInvertOnLPS⟩ := by
  cases htoggle : e.toggleInvertOnLPS <;> simp [contextAfter, htoggle]

/-- After an MPS that shifted (41_arith_decoder.md R117). -/
theorem contextAfter_mps_shifted (e : EvolutionEntry) {shift : Nat} (c : Context) (h : 0 < shift) :
    contextAfter e false shift c = ⟨BitVec.ofNat 6 e.nextOnMPS, c.invert⟩ := by
  simp [contextAfter, h]

/-- After an MPS that did not (41_arith_decoder.md R117). -/
theorem contextAfter_mps_idle (e : EvolutionEntry) (c : Context) : contextAfter e false 0 c = c := rfl

theorem contextAfter_mps_invert (e : EvolutionEntry) (shift : Nat) (c : Context) :
    (contextAfter e false shift c).invert = c.invert := rfl

theorem updateContext_getElem_self {con : Nat} (hc : con < 32) (e : EvolutionEntry) (flag : Bool) (shift : Nat)
    (c : Context) (s : State) : (updateContext con e flag shift c s).ctx[con] = contextAfter e flag shift c := by
  rw [updateContext_ctx, Vector.getElem_setIfInBounds_self]

/-- Settles O37: the lookup, the split and the renormalization are the decode's own; the rest is the context update. -/
theorem decodeUpdatesItsContext : Obligations.DecodeUpdatesItsContext := by
  intro con s t sym h
  obtain ⟨hframe, -, hothers⟩ := decodeSymbol_frame h
  obtain ⟨ce, u, hlookup, hrenorm, hflag, hinvert, rfl⟩ := decodeSymbol_eq_done h
  obtain ⟨hc, he, rfl⟩ := lookupContext_eq_done hlookup
  refine ⟨hc, he, hflag, hinvert, ⟨u, hrenorm, rfl, rfl, rfl, rfl, rfl⟩, ?_, ?_, ?_, ?_, hothers, hframe⟩
  all_goals rw [updateContext_getElem_self hc]
  · intro hlps
    rw [hlps, contextAfter_lps]
    exact ⟨rfl, rfl⟩
  · intro hmps
    rw [hmps, contextAfter_mps_invert]
  · intro hmps hshift
    rw [hmps, contextAfter_mps_shifted _ _ hshift]
  · intro hmps hidle
    rw [hmps, hidle, contextAfter_mps_idle]

end Sys2Proof.Machine
end

section
/-! PROOFS. The ring buffer: what a write, a read and a clear do to the bytes it holds (42_ring_buffer.md R130 to R134). -/

namespace Sys2Proof.Machine

/-! ### One write -/

/-- A write that completes found room, and this is the state it leaves. -/
theorem ringWrite_eq_done {b : Byte} {s t : State} (h : ringWrite b s = .done () t) :
    s.length ≠ s.cfg.ringCapacity ∧
    t = { s with
      ringData := s.ringData.write s.writeOffset b
      writeOffset := (s.writeOffset + 1) % s.cfg.ringCapacity
      length := s.length + 1 } := by
  by_cases hfull : s.length = s.cfg.ringCapacity
  · rw [ringWrite, if_pos hfull] at h
    cases h
  · rw [ringWrite_done b hfull] at h
    cases h
    exact ⟨hfull, rfl⟩

/-- Settles O39: the storage's own laws of a write, at the write offset. -/
theorem ringWriteStoresAtWriteOffset : Obligations.RingWriteStoresAtWriteOffset := by
  intro b s hwf hroom
  exact ⟨_, ringWrite_done b hroom, Memory.read_write_same hwf _ _,
    fun a hne => Memory.read_write_other _ _ hne, Memory.wf_write hwf _ _, rfl⟩

/-! ### The bytes the ring holds -/

/-- A ring that meets its invariant, on canonical storage. -/
structure RingReady (s : State) : Prop where
  ok : RingOk s
  wf : s.ringData.wf = true

/-- Only the capacity, the offsets, the length and the storage matter. -/
theorem RingReady.congr {s t : State} (h : RingReady s) (hcap : t.cfg.ringCapacity = s.cfg.ringCapacity)
    (hread : t.readOffset = s.readOffset) (hwrite : t.writeOffset = s.writeOffset) (hlen : t.length = s.length)
    (hdata : t.ringData = s.ringData) : RingReady t := by
  obtain ⟨⟨length_le, read_lt, write_lt, write_eq⟩, wf⟩ := h
  rw [← hcap, ← hlen] at length_le
  rw [← hcap, ← hread] at read_lt
  rw [← hcap, ← hwrite] at write_lt
  rw [← hcap, ← hwrite, ← hread, ← hlen] at write_eq
  exact ⟨⟨length_le, read_lt, write_lt, write_eq⟩, hdata ▸ wf⟩

/-- The byte `i` places after the oldest, live or not. -/
def ringByte (s : State) (i : Nat) : Byte :=
  s.ringData.read ((s.readOffset + i) % s.cfg.ringCapacity)

theorem ringContents_eq_map (s : State) : ringContents s = (List.range s.length).map (ringByte s) := rfl

/-- Two places less than a capacity apart are two addresses. -/
theorem ringPlace_ne {start i j capacity : Nat} (hij : i < j) (hj : j < capacity) :
    (start + i) % capacity ≠ (start + j) % capacity := by
  intro heq
  have hmod : i ≡ j [MOD capacity] := Nat.ModEq.add_left_cancel' start heq
  have := hmod.eq_of_lt_of_lt (hij.trans hj) hj
  omega

/-- The live bytes stay, since the write offset is the place after the last of them (42_ring_buffer.md R134). -/
theorem ringWrite_appends {b : Byte} {s t : State} (hs : RingReady s) (h : ringWrite b s = .done () t) :
    RingReady t ∧ ringContents t = ringContents s ++ [b] := by
  obtain ⟨hok, hwf⟩ := hs
  obtain ⟨hfull, ht⟩ := ringWrite_eq_done h
  have hroom : s.length < s.cfg.ringCapacity := lt_of_le_of_ne hok.length_le hfull
  have hsat := ringWrite_sat b (fun _ _ => False) hok hwf hroom
  rw [h] at hsat
  obtain ⟨-, -, hok', hwf'⟩ := hsat
  refine ⟨⟨hok', hwf'⟩, ?_⟩
  have hold (i : Nat) (hi : i < s.length) : ringByte t i = ringByte s i := by
    subst ht
    refine Memory.read_write_other _ _ ?_
    rw [hok.write_eq]
    exact ringPlace_ne hi hroom
  have hnew : ringByte t s.length = b := by
    subst ht
    show (s.ringData.write s.writeOffset b).read ((s.readOffset + s.length) % s.cfg.ringCapacity) = b
    rw [← hok.write_eq, Memory.read_write_same hwf]
  have hlen : t.length = s.length + 1 := by rw [ht]
  rw [ringContents_eq_map, hlen, List.range_succ, List.map_append, List.map_singleton, hnew, ringContents_eq_map]
  congr 1
  exact List.map_congr_left fun i hi => hold i (List.mem_range.mp hi)

theorem ringWriteAll_appends {bs : List Byte} {s t : State} (hs : RingReady s) (h : ringWriteAll bs s = .done () t) :
    RingReady t ∧ ringContents t = ringContents s ++ bs := by
  induction bs generalizing s with
  | nil =>
    cases h
    exact ⟨hs, (List.append_nil _).symm⟩
  | cons b bs ih =>
    obtain ⟨_, s1, hfirst, hrest⟩ := Res.bind_eq_done.mp h
    obtain ⟨hs1, hc1⟩ := ringWrite_appends hs hfirst
    obtain ⟨ht, hc⟩ := ih hs1 hrest
    exact ⟨ht, by rw [hc, hc1, List.append_assoc, List.singleton_append]⟩

/-- The read answers place 0; place `i` after it was place `i + 1` before it. -/
theorem ringRead_takes_first {b : Byte} {s t : State} (hs : RingOk s) (h : ringRead s = .done b t) :
    RingOk t ∧ ringContents s = b :: ringContents t := by
  obtain ⟨-, hlive, hb⟩ := ringRead_frame h
  rw [ringRead_done hlive] at h
  cases h
  refine ⟨ringRead_keeps hs hlive, ?_⟩
  obtain ⟨n, hn⟩ := Nat.exists_eq_succ_of_ne_zero hlive
  simp only [ringContents, hn, List.range_succ_eq_map, List.map_cons, List.map_map, Nat.succ_eq_add_one,
    Nat.add_zero, Nat.mod_eq_of_lt hs.read_lt, Nat.add_sub_cancel]
  congr 1
  refine List.map_congr_left fun i _ => ?_
  simp only [Function.comp_apply, Nat.mod_add_mod]
  rw [Nat.add_assoc, Nat.add_comm 1 i]

/-- Clearing empties the ring and leaves the capacity, so only that must be positive. -/
theorem ringClear_ok {s : State} (hcap : 0 < s.cfg.ringCapacity) :
    RingOk (ringClear s) ∧ ringContents (ringClear s) = [] :=
  ⟨⟨Nat.zero_le _, hcap, hcap, (Nat.zero_mod _).symm⟩, rfl⟩

/-- Settles O40: a write appends at the place after the last, a read takes place 0. -/
theorem ringIsFirstInFirstOut : Obligations.RingIsFirstInFirstOut := by
  refine ⟨fun b s t hok hwf h => ?_, fun b s t => ringRead_takes_first, fun s hok => ?_⟩
  · obtain ⟨ht, hcontents⟩ := ringWrite_appends ⟨hok, hwf⟩ h
    exact ⟨ht.ok, hcontents⟩
  · exact ringClear_ok (Nat.zero_lt_of_lt hok.read_lt)

end Sys2Proof.Machine
end

section
/-! PROOFS. Every command, and so every step, keeps the core's invariant (42_ring_buffer.md R134, R135,
41_arith_decoder.md R119, 47_commands.md R212). -/

namespace Sys2Proof.Machine

/-- The invariant speaks neither of the words waiting on the port nor of the bytes the host has read. -/
theorem State.Inv.withPortAndObserved {s : State} (h : s.Inv) (words : List Word) (bytes : List Byte) :
    { s with port := words, observed := bytes }.Inv := by
  obtain ⟨params, ⟨src, ring, kept⟩, ⟨length_le, read_lt, write_lt, write_eq⟩, bound, idle, contexts, arith,
    ⟨order1, order2⟩, ⟨even, lt⟩⟩ := h
  refine ⟨params, ⟨src, ring, kept⟩, ⟨length_le, read_lt, write_lt, write_eq⟩, bound, idle, contexts, fun hm => ?_,
    ⟨order1, order2⟩, ⟨even, lt⟩⟩
  obtain ⟨span_ge, val_le, bits_pos, bits_le⟩ := arith hm
  exact ⟨span_ge, val_le, bits_pos, bits_le⟩

/-- An Invalid core with an empty ring at offset 0 has no stream to keep an invariant of. -/
theorem resetCommand_inv {s t : State} (hs : s.Inv) (h : resetCommand s = .done () t) : t.Inv := by
  have hcap : 0 < s.cfg.ringCapacity := Nat.zero_lt_of_lt hs.ring.read_lt
  have ringOk := (ringClear_ok (s := { s with mode := .invalid, srcAtInit := none }) hcap).1
  cases h
  exact ⟨hs.params, ⟨hs.memory.src, hs.memory.ring, nofun⟩, ringOk, Nat.zero_le _, fun _ => rfl,
    hs.contexts, fun hactive => absurd rfl hactive, ⟨nofun, nofun⟩, ⟨nofun, nofun⟩⟩

theorem readByte_inv {s t : State} {b : Byte} (hs : s.Inv) (h : readByte s = .done b t) : t.Inv := by
  have hsat := readByte_sat hs
  rw [h] at hsat
  exact hsat.1

theorem skipRead_inv {a b : Unit} {s t : State} (hs : s.Inv) (h : skipRead a s = .done b t) : t.Inv := by
  obtain ⟨_, _, hread, hdone⟩ := Res.bind_eq_done.mp h
  cases hdone
  exact readByte_inv hs hread

theorem startStream_inv {m off : Word} {s t : State} (hparams : ParamsLegal s.cfg) (hmem : MemoryOk s)
    (h : startStream m off s = .done () t) : t.Inv := by
  have hsat := startStream_sat m off hparams hmem
  rw [h] at hsat
  exact hsat.1

/-- Whatever the state before: INIT starts a stream that meets the invariant, and its skip reads keep it. -/
theorem initCommand_inv {m off k : Word} {s t : State} (hparams : ParamsLegal s.cfg) (hmem : MemoryOk s)
    (h : initCommand m off k s = .done () t) : t.Inv := by
  obtain ⟨_, u, hstart, hskips⟩ := Res.bind_eq_done.mp h
  have hu : u.Inv := startStream_inv hparams hmem hstart
  exact loop_rel (R := fun a b => a.Inv → b.Inv) (fun _ => id) (fun _ _ _ hab hbc ha => hbc (hab ha))
    (fun _ _ _ _ hskip ha => skipRead_inv ha hskip) _ hskips hu

theorem readCommand_inv {s t : State} (hs : s.Inv) (h : readCommand s = .done () t) : t.Inv := by
  obtain ⟨_, u, hread, hdone⟩ := Res.bind_eq_done.mp h
  cases hdone
  exact (readByte_inv hs hread).withPortAndObserved u.port _

theorem exec_inv {i : Instr} {s t : State} (hs : s.Inv) (h : exec i s = .next t) : t.Inv := by
  cases i with
  | reset => exact resetCommand_inv hs (Res.outcome_eq_next.mp h)
  | init m off k => exact initCommand_inv hs.params hs.memory (Res.outcome_eq_next.mp h)
  | read => exact readCommand_inv hs (Res.outcome_eq_next.mp h)

/-- A step that answers a next state was idle, or ran the command at the front of the port. -/
theorem step_eq_next {s t : State} (h : step s = .next t) :
    t = s ∨ ∃ i rest, exec i (withPort s rest) = .next t := by
  unfold step at h
  split at h
  · cases h
    exact .inl rfl
  · cases h
  · cases h
  · exact .inr ⟨_, _, h⟩

/-- Settles O26: an idle step changes nothing, and every command keeps the invariant. -/
theorem stepKeepsInvariant : Obligations.StepKeepsInvariant := by
  intro s t hs h
  obtain rfl | ⟨i, rest, hexec⟩ := step_eq_next h
  · exact hs
  · exact exec_inv (hs.withPortAndObserved rest s.observed) hexec

end Sys2Proof.Machine
end

section
/-! PROOFS. A refill pass with threshold 32 (42_ring_buffer.md R135, 47_commands.md R207, 45_mode2.md R179). -/

namespace Sys2Proof.Machine

/-- A refill loop keeps what each of its units, started below the threshold, keeps. -/
theorem refillLoop_induction {P : State → Prop} {fuel : Nat} {s t : State}
    (hunit : ∀ u v, P u → u.length < u.cfg.refillThreshold → modeUnit u = .done () v → P v)
    (h : refillLoop fuel s = .done () t) (hs : P s) : P t := by
  induction fuel generalizing s with
  | zero =>
    cases h
    exact hs
  | succ fuel ih =>
    rw [refillLoop] at h
    split at h
    · rename_i hbelow
      obtain ⟨_, u, hfirst, hrest⟩ := Res.bind_eq_done.mp h
      exact ih hrest (hunit s u hs hbelow hfirst)
    · cases h
      exact hs

/-- What a unit adds to the ring, by mode, and what it does to mode 2's side index. -/
theorem modeUnit_adds {s t : State} (h : modeUnit s = .done () t) :
    (s.mode = .mode0 → t.length = s.length + 1) ∧
    (s.mode = .mode1 → t.length = s.length + 2) ∧
    (s.mode = .mode2 → s.sideIndex = 14#5 → t.length = s.length + 18 ∧ t.sideIndex = 0#5) ∧
    (s.mode = .mode2 → s.sideIndex ≠ 14#5 → t.length = s.length + 2 ∧ t.sideIndex = s.sideIndex + 2#5) := by
  refine ⟨fun hm => ?_, fun hm => ?_, fun hm => ?_, fun hm => ?_⟩ <;> simp only [modeUnit, hm] at h
  · exact (mode0Unit_frame h).2
  · exact (mode1Unit_frame h).2.2
  · exact (mode2Unit_frame h).2.1
  · exact (mode2Unit_frame h).2.2

/-- How far a pass of threshold 32 that began with an empty ring has come: in mode 1 by pairs of bytes; in mode 2 with
as many bytes in the ring as in the side buffer, until the side buffer's flush ends the pass. -/
structure PassAligned (s : State) : Prop where
  le : s.length ≤ 32
  pairs : s.mode = .mode1 → s.length % 2 = 0
  side : s.mode = .mode2 →
    (s.length = s.sideIndex.toNat ∧ s.length % 2 = 0 ∧ s.length < 16) ∨ (s.length = 32 ∧ s.sideIndex = 0#5)

theorem PassAligned.of_empty {s : State} (hempty : s.length = 0) (hside : s.mode = .mode2 → s.sideIndex = 0#5) :
    PassAligned s where
  le := by omega
  pairs _ := by omega
  side hm := .inl ⟨by rw [hempty, hside hm]; rfl, by omega, by omega⟩

/-- In mode 2 the eighth unit brings 18 bytes to the 14 there are, every other one 2. -/
theorem PassAligned.after_mode2Unit {s t : State} (hs : PassAligned s) (hm : s.mode = .mode2) (hbelow : s.length < 32)
    (h : modeUnit s = .done () t) :
    (t.length = t.sideIndex.toNat ∧ t.length % 2 = 0 ∧ t.length < 16) ∨ (t.length = 32 ∧ t.sideIndex = 0#5) := by
  obtain ⟨-, -, hflush, hmore⟩ := modeUnit_adds h
  obtain ⟨hlen, heven, hlt⟩ : s.length = s.sideIndex.toNat ∧ s.length % 2 = 0 ∧ s.length < 16 := by
    obtain haligned | ⟨hfull, -⟩ := hs.side hm
    · exact haligned
    · omega
  by_cases h14 : s.sideIndex = 14#5
  · obtain ⟨hlen', hidx⟩ := hflush hm h14
    rw [h14] at hlen
    exact .inr ⟨by rw [hlen', hlen]; rfl, hidx⟩
  · obtain ⟨hlen', hidx⟩ := hmore hm h14
    have hne : s.sideIndex.toNat ≠ 14 := fun hc => h14 (BitVec.eq_of_toNat_eq hc)
    have hnext : (s.sideIndex + 2#5).toNat = s.sideIndex.toNat + 2 := by bv_omega
    exact .inl ⟨by rw [hidx, hnext, hlen', hlen], by omega, by omega⟩

theorem PassAligned.after_unit {s t : State} (hs : PassAligned s) (hactive : s.mode ≠ .invalid) (hbelow : s.length < 32)
    (h : modeUnit s = .done () t) : PassAligned t := by
  obtain ⟨hframe, -⟩ := modeUnit_frame h
  have hmode : t.mode = s.mode := by rw [hframe]
  obtain ⟨hadd0, hadd1, -⟩ := modeUnit_adds h
  cases hm : s.mode with
  | mode0 =>
    have hlen := hadd0 hm
    exact ⟨by omega, by simp [hmode, hm], by simp [hmode, hm]⟩
  | mode1 =>
    have hlen := hadd1 hm
    have hpairs := hs.pairs hm
    exact ⟨by omega, fun _ => by omega, by simp [hmode, hm]⟩
  | mode2 =>
    have hside := hs.after_mode2Unit hm hbelow h
    exact ⟨by omega, by simp [hmode, hm], fun _ => hside⟩
  | invalid => exact absurd hm hactive

/-- A pass that reaches the threshold has run exactly to it. -/
theorem refillPass_thirtyTwo {s t : State} (hs : s.Inv) (hactive : s.mode ≠ .invalid) (hempty : s.length = 0)
    (hT : s.cfg.refillThreshold = 32) (hside : s.mode = .mode2 → s.sideIndex = 0#5)
    (h : refillPass s = .done () t) : t.length = 32 ∧ (t.mode = .mode2 → t.sideIndex = 0#5) := by
  have hsat := refillPass_sat (hs.activeOk hactive) hempty
  rw [h] at hsat
  obtain ⟨-, hreached, -⟩ := hsat
  obtain ⟨haligned, -, -⟩ : PassAligned t ∧ t.mode ≠ .invalid ∧ t.cfg.refillThreshold = 32 := by
    refine refillLoop_induction (P := fun u => PassAligned u ∧ u.mode ≠ .invalid ∧ u.cfg.refillThreshold = 32) ?_ h
      ⟨.of_empty hempty hside, hactive, hT⟩
    intro u v ⟨hu, hactive, hT⟩ hbelow hunit
    obtain ⟨hframe, -⟩ := modeUnit_frame hunit
    have hmode : v.mode = u.mode := by rw [hframe]
    have hcfg : v.cfg = u.cfg := by rw [hframe]
    exact ⟨hu.after_unit hactive (hT ▸ hbelow) hunit, hmode ▸ hactive, hcfg ▸ hT⟩
  have hle := haligned.le
  refine ⟨by omega, fun hm => ?_⟩
  obtain ⟨-, -, hshort⟩ | ⟨-, hidx⟩ := haligned.side hm
  · omega
  · exact hidx

/-- With a source region a READ completes from every state that meets the invariant (47_commands.md R206). -/
theorem exec_read_completes {s : State} (hs : s.Inv) (hU : SourceUsable s.cfg) : ∃ t, exec .read s = .next t := by
  obtain ⟨b, u, hread, -⟩ := (readByte_sat hs).completes hU
  exact ⟨_, Res.outcome_eq_next.mpr (Res.bind_eq_done.mpr ⟨b, u, hread, rfl⟩)⟩

/-- A READ of a valid mode that completes takes a byte from the ring, after a refill pass where the ring was empty
(47_commands.md R206). -/
theorem exec_read_eq_next {s t : State} (hactive : s.mode ≠ .invalid) (h : exec .read s = .next t) :
    ∃ u v b, ((s.length = 0 ∧ refillPass s = .done () u) ∨ (s.length ≠ 0 ∧ u = s)) ∧ ringRead u = .done b v ∧
      t = { v with observed := v.observed ++ [b] } := by
  obtain ⟨b, v, hread, hdone⟩ := Res.bind_eq_done.mp (Res.outcome_eq_next.mp h)
  cases hdone
  unfold readByte at hread
  split at hread
  · rename_i hm
    exact absurd hm hactive
  · split at hread
    · rename_i hempty
      obtain ⟨_, u, hpass, htake⟩ := Res.bind_eq_done.mp hread
      exact ⟨u, v, b, .inl ⟨hempty, hpass⟩, htake, rfl⟩
    · rename_i hlive
      exact ⟨s, v, b, .inr ⟨hlive, rfl⟩, hread, rfl⟩

/-- Settles O21: the pass ends at 32 bytes, and the READ takes one of them. -/
theorem defaultPassLeavesThirtyTwoBytes : Obligations.DefaultPassLeavesThirtyTwoBytes := by
  intro s hs hU hactive hempty hT hside
  obtain ⟨t, ht⟩ := exec_read_completes hs hU
  obtain ⟨u, v, b, ⟨-, hpass⟩ | ⟨hlive, -⟩, htake, rfl⟩ := exec_read_eq_next hactive ht
  case inr => exact absurd hempty hlive
  obtain ⟨hlen, hidx⟩ := refillPass_thirtyTwo hs hactive hempty hT hside hpass
  obtain ⟨hframe, -⟩ := refillLoop_frame hpass
  have hmode : u.mode = s.mode := by rw [hframe]
  rw [ringRead_done (by omega)] at htake
  cases htake
  refine ⟨_, ht, ?_, fun hm => hidx (hmode.trans hm)⟩
  show u.length - 1 = 31
  omega

end Sys2Proof.Machine
end

section
/-! PROOFS. The decoder does not see its surroundings: what symbols and pixels decode to is the same whatever the ring,
the ring's two parameters, the side buffer and the host's records hold (42_ring_buffer.md R136). -/

namespace Sys2Proof.Machine

/-- The decoder of `s` in the surroundings of `h`: in place of its own the parameters of `h`'s ring, `h`'s ring and side
buffer, and `h`'s records for the host. -/
def placedIn (h s : State) : State :=
  { s with
    cfg := { s.cfg with ringCapacity := h.cfg.ringCapacity, refillThreshold := h.cfg.refillThreshold }
    sideBuffer := h.sideBuffer, sideIndex := h.sideIndex
    ringData := h.ringData, readOffset := h.readOffset, writeOffset := h.writeOffset, length := h.length
    fault := h.fault, observed := h.observed, port := h.port, srcAtInit := h.srcAtInit }

@[simp] theorem placedIn_self (s : State) : placedIn s s = s := rfl

/-- Where `f` completes, it completes in all surroundings with the same result, and leaves the surroundings alone. -/
def Blind {α : Type} (f : State → Res α) : Prop :=
  ∀ h s a t, f s = .done a t → f (placedIn h s) = .done a (placedIn h t)

theorem Blind.of_done {α : Type} {value : State → α} {update : State → State}
    (hvalue : ∀ h s, value (placedIn h s) = value s) (hupdate : ∀ h s, update (placedIn h s) = placedIn h (update s)) :
    Blind fun s => .done (value s) (update s) := by
  intro h s a t hdone
  cases hdone
  exact congrArg₂ Res.done (hvalue h s) (hupdate h s)

theorem Blind.bind {α β : Type} {f : State → Res α} {g : α → State → Res β} (hf : Blind f) (hg : ∀ a, Blind (g a)) :
    Blind fun s => (f s).bind g := by
  intro h s b t hdone
  obtain ⟨a, u, hfirst, hrest⟩ := Res.bind_eq_done.mp hdone
  exact Res.bind_eq_done.mpr ⟨a, placedIn h u, hf h s a u hfirst, hg a h u b t hrest⟩

theorem Blind.loop {α : Type} {body : α → State → Res α} (hbody : ∀ a, Blind (body a)) (n : Nat) (a : α) :
    Blind (loop body n a) := by
  induction n generalizing a with
  | zero => exact .of_done (fun _ _ => rfl) (fun _ _ => rfl)
  | succ n ih => exact .bind (hbody a) ih

theorem Blind.ite {α : Type} {c : State → Prop} [DecidablePred c] {f g : State → Res α}
    (hc : ∀ h s, c (placedIn h s) ↔ c s) (hf : Blind f) (hg : Blind g) : Blind fun s => if c s then f s else g s := by
  intro h s a t hdone
  by_cases hs : c s
  · simp only [if_pos hs] at hdone
    simp only [if_pos ((hc h s).mpr hs)]
    exact hf h s a t hdone
  · simp only [if_neg hs] at hdone
    simp only [if_neg (mt (hc h s).mp hs)]
    exact hg h s a t hdone

theorem raise_blind {α : Type} (r : Fault) : Blind (raise r : State → Res α) := by
  intro h s a t hdone
  cases hdone

theorem stuck_blind {α : Type} (r : Fault) : Blind (stuck r : State → Res α) := by
  intro h s a t hdone
  cases hdone

/-! ### Symbols -/

theorem fetch_blind : Blind fetch :=
  .ite (c := fun s => usableSize s.cfg = 0) (fun _ _ => Iff.rfl) (stuck_blind _)
    (.of_done (fun _ _ => rfl) (fun _ _ => rfl))

theorem renormStep_blind : Blind renormStep := by
  have hreload : Blind fun s => (fetch (shiftRegisters s)).bind fun b u =>
      .done () { u with inputByte := b, inputBitsRemaining := 8#4 } :=
    .bind (f := fun s => fetch (shiftRegisters s)) (fun h s => fetch_blind h (shiftRegisters s))
      fun b => .of_done (fun _ _ => rfl) (fun _ _ => rfl)
  exact .ite (c := fun s => (shiftRegisters s).inputBitsRemaining = 0#4) (fun _ _ => Iff.rfl) hreload
    (.of_done (update := shiftRegisters) (fun _ _ => rfl) (fun _ _ => rfl))

theorem renormLoop_blind (fuel shift : Nat) : Blind (renormLoop fuel shift) := by
  induction fuel generalizing shift with
  | zero => exact .of_done (fun _ _ => rfl) (fun _ _ => rfl)
  | succ fuel ih =>
    exact .ite (c := fun s => s.span.toNat < 0x7f) (fun _ _ => Iff.rfl) (.bind renormStep_blind fun _ => ih _)
      (.of_done (fun _ _ => rfl) (fun _ _ => rfl))

theorem lookupContext_blind (con : Nat) : Blind (lookupContext con) := by
  intro h s ce t hdone
  obtain ⟨rfl, -⟩ := lookupContext_frame hdone
  obtain ⟨hc, he, rfl⟩ := lookupContext_eq_done hdone
  exact (dif_pos hc).trans (dif_pos he)

/-- The split reads and writes the interval alone. -/
theorem intervalSplit_placedIn (prob : BitVec 8) (h s : State) :
    intervalSplit prob (placedIn h s) = ((intervalSplit prob s).1, placedIn h (intervalSplit prob s).2) := by
  have hsame : isLPS prob (placedIn h s).span (placedIn h s).val = isLPS prob s.span s.val := rfl
  unfold intervalSplit
  rw [hsame]
  cases isLPS prob s.span s.val <;> rfl

theorem decodeSymbol_blind (con : Nat) : Blind (decodeSymbol con) := by
  refine .bind (lookupContext_blind con) fun ce => ?_
  intro h s sym t hdone
  obtain ⟨n, u, hrenorm, hlast⟩ := Res.bind_eq_done.mp hdone
  cases hlast
  simp only [intervalSplit_placedIn]
  exact Res.bind_eq_done.mpr ⟨n, placedIn h u, renormLoop_blind 7 0 h _ n u hrenorm, rfl⟩

/-! ### Bits and pixels -/

/-- The context is made of the histories alone (43_mode0.md R142). -/
theorem mode0Bit_blind (bitIdx : Nat) : Blind (mode0Bit bitIdx) := by
  intro h s j t hdone
  obtain ⟨sym, u, hdecode, hlast⟩ := Res.bind_eq_done.mp hdone
  cases hlast
  exact Res.bind_eq_done.mpr ⟨sym, placedIn h u, decodeSymbol_blind _ h s sym u hdecode, rfl⟩

theorem moveToFront_blind {n : Nat} (order : Vector (BitVec 4) n) (v : BitVec 4) : Blind (moveToFront order v) := by
  intro h s r t hdone
  obtain ⟨rfl, hr⟩ := moveToFront_frame hdone
  rw [moveToFront, hr]

theorem realOrder_blind {n : Nat} (order : Vector (BitVec 4) n) (r : RefPixels) : Blind (realOrder order r) :=
  .bind (moveToFront_blind order r.c) fun o1 => .bind (moveToFront_blind o1 r.b) fun o2 => moveToFront_blind o2 r.a

theorem mode1Symbol_blind (con : Nat) : Blind (mode1Symbol con) :=
  .bind (decodeSymbol_blind con) fun _ => .of_done (fun _ _ => rfl) (fun _ _ => rfl)

theorem mode2Symbol_blind (rc con : Nat) : Blind (mode2Symbol rc con) := by
  unfold mode2Symbol
  split
  · exact .bind (decodeSymbol_blind con) fun _ => .of_done (fun _ _ => rfl) (fun _ _ => rfl)
  · exact raise_blind _

/-- The reference pixels and the order they are looked up in are the decoder's. -/
theorem mode1Pixel_blind (a : Unit) : Blind (mode1Pixel a) := by
  intro h s b t hdone
  obtain ⟨order, s0, hfront, hrest⟩ := Res.bind_eq_done.mp hdone
  obtain ⟨ranking, s2, hrank, hrest⟩ := Res.bind_eq_done.mp hrest
  obtain ⟨con, s3, hsymbols, hlast⟩ := Res.bind_eq_done.mp hrest
  cases hlast
  refine Res.bind_eq_done.mpr ⟨order, placedIn h s0, moveToFront_blind _ _ h s order s0 hfront, ?_⟩
  refine Res.bind_eq_done.mpr ⟨ranking, placedIn h s2, realOrder_blind _ _ h _ ranking s2 hrank, ?_⟩
  exact Res.bind_eq_done.mpr ⟨con, placedIn h s3, Blind.loop mode1Symbol_blind 2 _ h s2 con s3 hsymbols, rfl⟩

theorem mode2Pixel_blind (a : Unit) : Blind (mode2Pixel a) := by
  intro h s b t hdone
  obtain ⟨order, s0, hfront, hrest⟩ := Res.bind_eq_done.mp hdone
  obtain ⟨ranking, s2, hrank, hrest⟩ := Res.bind_eq_done.mp hrest
  obtain ⟨con, s3, hsymbols, hlast⟩ := Res.bind_eq_done.mp hrest
  cases hlast
  refine Res.bind_eq_done.mpr ⟨order, placedIn h s0, moveToFront_blind _ _ h s order s0 hfront, ?_⟩
  refine Res.bind_eq_done.mpr ⟨ranking, placedIn h s2, realOrder_blind _ _ h _ ranking s2 hrank, ?_⟩
  exact Res.bind_eq_done.mpr ⟨con, placedIn h s3, Blind.loop (mode2Symbol_blind _) 4 0 h s2 con s3 hsymbols, rfl⟩

end Sys2Proof.Machine
end

section
/-! PROOFS. Two cores whose decoders stand at the same place of the same stream: a unit appends the same bytes to both
rings, wherever those stand, and leaves the decoders at the same place again (42_ring_buffer.md R136). -/

namespace Sys2Proof.Machine

/-! ### The same decoder in two surroundings -/

/-- `s` is the decoder of `r` in surroundings of its own. -/
def SameDecoder (r s : State) : Prop := placedIn s r = s

theorem SameDecoder.refl (s : State) : SameDecoder s s := rfl

theorem SameDecoder.symm {r s : State} (h : SameDecoder r s) : SameDecoder s r :=
  (congrArg (placedIn r) h).symm

theorem SameDecoder.trans {r s t : State} (h1 : SameDecoder r s) (h2 : SameDecoder s t) : SameDecoder r t :=
  (congrArg (placedIn t) h1).trans h2

theorem SameDecoder.congr {r s r' s' : State} (h : SameDecoder r s) (hr : SameDecoder r r') (hs : SameDecoder s s') :
    SameDecoder r' s' :=
  (hr.symm.trans h).trans hs

theorem SameDecoder.mode_eq {r s : State} (h : SameDecoder r s) : s.mode = r.mode :=
  (congrArg State.mode h).symm

/-- From `s` to `t` only the ring and the host's records changed, and the ring is still in order. -/
structure RingMoved (s t : State) : Prop where
  decoder : SameDecoder s t
  sideIndex : t.sideIndex = s.sideIndex
  sideBuffer : t.sideBuffer = s.sideBuffer
  ready : RingReady t

theorem RingGrown.ringMoved {s t : State} (h : RingGrown s t) (ready : RingReady t) : RingMoved s t := by
  refine ⟨?_, ?_, ?_, ready⟩ <;> rw [h]
  rfl

/-- Two cores at the same place of the same stream: the same decoder, and the same waiting bytes in the side buffer.
What the side buffer holds at its index and above is never read (45_mode2.md R179). -/
structure InStep (r s : State) : Prop where
  decoder : SameDecoder r s
  sideIndex : s.sideIndex = r.sideIndex
  waiting : ∀ (j : Nat) (hj : j < 16), j < r.sideIndex.toNat → s.sideBuffer[j] = r.sideBuffer[j]
  readyLeft : RingReady r
  readyRight : RingReady s

theorem InStep.move {r s r' s' : State} (h : InStep r s) (hr : RingMoved r r') (hs : RingMoved s s') :
    InStep r' s' where
  decoder := h.decoder.congr hr.decoder hs.decoder
  sideIndex := by rw [hs.sideIndex, hr.sideIndex, h.sideIndex]
  waiting j hj hlt := by
    rw [hr.sideIndex] at hlt
    rw [hs.sideBuffer, hr.sideBuffer]
    exact h.waiting j hj hlt
  readyLeft := hr.ready
  readyRight := hs.ready

/-! ### Operations in step -/

/-- The two rings have grown by the same bytes. -/
def GrownAlike (r s r' s' : State) : Prop :=
  ∃ bytes, ringContents r' = ringContents r ++ bytes ∧ ringContents s' = ringContents s ++ bytes

theorem GrownAlike.of_eq {r s r' s' : State} (hr : ringContents r' = ringContents r)
    (hs : ringContents s' = ringContents s) : GrownAlike r s r' s' :=
  ⟨[], by rw [hr, List.append_nil], by rw [hs, List.append_nil]⟩

theorem GrownAlike.trans {r s r' s' r'' s'' : State} (h1 : GrownAlike r s r' s') (h2 : GrownAlike r' s' r'' s'') :
    GrownAlike r s r'' s'' := by
  obtain ⟨bytes, hr, hs⟩ := h1
  obtain ⟨more, hr', hs'⟩ := h2
  exact ⟨bytes ++ more, by rw [hr', hr, List.append_assoc], by rw [hs', hs, List.append_assoc]⟩

/-- Run on two cores in step, `f` answers the same on both, keeps them in step and appends the same bytes to both rings. -/
def KeepsStep {α : Type} (f : State → Res α) : Prop :=
  ∀ r s a b r' s', InStep r s → f r = .done a r' → f s = .done b s' → a = b ∧ InStep r' s' ∧ GrownAlike r s r' s'

theorem KeepsStep.bind {α β : Type} {f : State → Res α} {g : α → State → Res β} (hf : KeepsStep f)
    (hg : ∀ a, KeepsStep (g a)) : KeepsStep fun s => (f s).bind g := by
  intro r s a b r' s' hstep hr hs
  obtain ⟨x, r1, hr1, hr2⟩ := Res.bind_eq_done.mp hr
  obtain ⟨y, s1, hs1, hs2⟩ := Res.bind_eq_done.mp hs
  obtain ⟨rfl, hstep1, hgrown1⟩ := hf r s x y r1 s1 hstep hr1 hs1
  obtain ⟨hab, hstep2, hgrown2⟩ := hg x r1 s1 a b r' s' hstep1 hr2 hs2
  exact ⟨hab, hstep2, hgrown1.trans hgrown2⟩

/-- An operation that uses what the decoder holds when it begins. -/
theorem KeepsStep.reading {α β : Type} {read : State → α} {g : α → State → Res β}
    (hread : ∀ h s, read (placedIn h s) = read s) (hg : ∀ a, KeepsStep (g a)) : KeepsStep fun s => g (read s) s := by
  intro r s a b r' s' hstep hr hs
  have hsame : read s = read r := by rw [← hread s r, hstep.decoder]
  have hs : g (read r) s = .done b s' := hsame ▸ hs
  exact hg (read r) r s a b r' s' hstep hr hs

/-- An operation that does not see its surroundings does to two cores in step the same, and nothing to their rings. -/
theorem Blind.keepsStep {α : Type} {f : State → Res α} (hf : Blind f) : KeepsStep f := by
  intro r s a b r' s' hstep hr hs
  have hr' : placedIn r r' = r' := by
    have hself := hf r r a r' hr
    rw [placedIn_self, hr] at hself
    injection hself with _ hself
    exact hself.symm
  have hplaced := hf s r a r' hr
  rw [hstep.decoder, hs] at hplaced
  injection hplaced with hab hs'
  subst hab
  subst hs'
  have hside : r'.sideIndex = r.sideIndex := by rw [← hr']; rfl
  have hbuffer : r'.sideBuffer = r.sideBuffer := by rw [← hr']; rfl
  have hready : RingReady r' := by
    rw [← hr']
    exact hstep.readyLeft.congr rfl rfl rfl rfl rfl
  refine ⟨rfl, ⟨rfl, by rw [hside]; exact hstep.sideIndex, fun j hj hlt => ?_, hready,
    hstep.readyRight.congr rfl rfl rfl rfl rfl⟩, .of_eq ?_ rfl⟩
  · rw [hside] at hlt
    rw [hbuffer]
    exact hstep.waiting j hj hlt
  · rw [← hr']
    rfl

theorem ringWriteAll_keepsStep (bytes : List Byte) : KeepsStep (ringWriteAll bytes) := by
  intro r s _ _ r' s' hstep hr hs
  obtain ⟨hready, hcontents⟩ := ringWriteAll_appends hstep.readyLeft hr
  obtain ⟨hready', hcontents'⟩ := ringWriteAll_appends hstep.readyRight hs
  exact ⟨rfl, hstep.move ((ringWriteAll_frame hr).1.ringMoved hready) ((ringWriteAll_frame hs).1.ringMoved hready'),
    bytes, hcontents, hcontents'⟩

theorem ringWrite_keepsStep (b : Byte) : KeepsStep (ringWrite b) := by
  intro r s _ _ r' s' hstep hr hs
  obtain ⟨hready, hcontents⟩ := ringWrite_appends hstep.readyLeft hr
  obtain ⟨hready', hcontents'⟩ := ringWrite_appends hstep.readyRight hs
  exact ⟨rfl, hstep.move ((ringWrite_frame hr).1.ringMoved hready) ((ringWrite_frame hs).1.ringMoved hready'),
    [b], hcontents, hcontents'⟩

/-! ### The side buffer -/

/-- An append that completes had two places left, and this is the state it leaves. -/
theorem sideAppend_eq_done {hi lo : Byte} {s t : State} (h : sideAppend hi lo s = .done () t) :
    s.sideIndex.toNat + 1 < 16 ∧
    t = { s with
      sideBuffer := (s.sideBuffer.setIfInBounds s.sideIndex.toNat hi).setIfInBounds (s.sideIndex.toNat + 1) lo
      sideIndex := s.sideIndex + 2#5 } := by
  unfold sideAppend at h
  split at h
  · rename_i hroom
    cases h
    exact ⟨hroom, rfl⟩
  · cases h

/-- The two bytes enter both side buffers at the same index. -/
theorem sideAppend_keepsStep (hi lo : Byte) : KeepsStep (sideAppend hi lo) := by
  intro r s _ _ r' s' hstep hr hs
  obtain ⟨hroom, rfl⟩ := sideAppend_eq_done hr
  obtain ⟨-, rfl⟩ := sideAppend_eq_done hs
  have hindex : (r.sideIndex + 2#5).toNat = r.sideIndex.toNat + 2 := by bv_omega
  refine ⟨rfl, ⟨hstep.decoder.congr rfl rfl, ?_, fun j hj hlt => ?_, hstep.readyLeft.congr rfl rfl rfl rfl rfl,
    hstep.readyRight.congr rfl rfl rfl rfl rfl⟩, .of_eq rfl rfl⟩
  · show s.sideIndex + 2#5 = r.sideIndex + 2#5
    rw [hstep.sideIndex]
  · simp only [hindex] at hlt
    simp only [hstep.sideIndex, Vector.getElem_setIfInBounds]
    split_ifs with hlo hhi
    · rfl
    · rfl
    · exact hstep.waiting j hj (by omega)

/-- Emptying the side buffer leaves nothing waiting in it. -/
theorem sideIndexZero_keepsStep : KeepsStep fun s => .done () { s with sideIndex := 0#5 } := by
  intro r s _ _ r' s' hstep hr hs
  cases hr
  cases hs
  exact ⟨rfl, ⟨hstep.decoder.congr rfl rfl, rfl, fun j _ hlt => absurd hlt (Nat.not_lt_zero j),
    hstep.readyLeft.congr rfl rfl rfl rfl rfl, hstep.readyRight.congr rfl rfl rfl rfl rfl⟩, .of_eq rfl rfl⟩

/-- Both side buffers are full at once, and then they hold the same sixteen bytes. -/
theorem sideFlush_keepsStep : KeepsStep sideFlush := by
  intro r s _ _ r' s' hstep hr hs
  unfold sideFlush at hr hs
  rw [hstep.sideIndex] at hs
  by_cases hfull : r.sideIndex = 16#5
  · have hwaiting : s.sideBuffer = r.sideBuffer := by
      ext j hj : 1
      exact hstep.waiting j hj (by rw [hfull]; exact hj)
    rw [if_pos hfull] at hr hs
    rw [hwaiting] at hs
    exact (ringWriteAll_keepsStep r.sideBuffer.toList).bind (fun _ => sideIndexZero_keepsStep) r s _ _ r' s' hstep hr hs
  · rw [if_neg hfull] at hr hs
    cases hr
    cases hs
    exact ⟨rfl, hstep, .of_eq rfl rfl⟩

/-! ### Units -/

theorem mode0Unit_keepsStep : KeepsStep mode0Unit :=
  .bind (Blind.loop mode0Bit_blind 8 0).keepsStep fun _ =>
    .reading (read := fun s => s.out.extractLsb' 0 8) (fun _ _ => rfl) ringWrite_keepsStep

theorem mode1Unit_keepsStep : KeepsStep mode1Unit :=
  .bind (Blind.loop mode1Pixel_blind 8 ()).keepsStep fun _ =>
    .reading (read := fun s => morton2 (s.out.extractLsb' 0 16)) (fun _ _ => rfl)
      fun d => ringWriteAll_keepsStep [d.extractLsb' 8 8, d.extractLsb' 0 8]

/-- What a mode 2 unit writes once its eight pixels are in `out0` (45_mode2.md R179). -/
theorem mode2Planes_keepsStep (d : BitVec 32) :
    KeepsStep fun s => (ringWriteAll [d.extractLsb' 24 8, d.extractLsb' 16 8] s).bind fun _ u =>
      (sideAppend (d.extractLsb' 8 8) (d.extractLsb' 0 8) u).bind fun _ v => sideFlush v :=
  .bind (ringWriteAll_keepsStep _) fun _ => .bind (sideAppend_keepsStep _ _) fun _ => sideFlush_keepsStep

theorem mode2Unit_keepsStep : KeepsStep mode2Unit :=
  .bind (Blind.loop mode2Pixel_blind 8 ()).keepsStep fun _ =>
    .reading (read := fun s => morton4 s.out0) (fun _ _ => rfl) mode2Planes_keepsStep

theorem modeUnit_keepsStep : KeepsStep modeUnit := by
  intro r s a b r' s' hstep hr hs
  unfold modeUnit at hr hs
  rw [hstep.decoder.mode_eq] at hs
  cases hm : r.mode <;> simp only [hm] at hr hs
  case mode0 => exact mode0Unit_keepsStep r s a b r' s' hstep hr hs
  case mode1 => exact mode1Unit_keepsStep r s a b r' s' hstep hr hs
  case mode2 => exact mode2Unit_keepsStep r s a b r' s' hstep hr hs
  case invalid =>
    cases hr
    cases hs
    exact ⟨rfl, hstep, .of_eq rfl rfl⟩

end Sys2Proof.Machine
end

section
/-! PROOFS. The bytes READs return do not depend on the ring: whatever its capacity and threshold, they are the first
bytes of one sequence, the outputs of unit after unit from the start of the stream (42_ring_buffer.md R136). -/

namespace Sys2Proof.Machine

/-! ### The stream of a decoder -/

/-- The state after one more unit, run on an emptied ring: the ring then holds this unit's bytes and no others. -/
def afterUnit (r : State) : State := (modeUnit (ringClear r)).final

/-- The bytes of the first `k` units from `r` on. -/
def streamOf (r : State) : Nat → List Byte
  | 0 => []
  | k + 1 => streamOf r k ++ ringContents (afterUnit^[k + 1] r)

theorem streamOf_isPrefix (r : State) {j k : Nat} (h : j ≤ k) : streamOf r j <+: streamOf r k := by
  induction k, h using Nat.le_induction with
  | base => exact List.prefix_rfl
  | succ k _ ih => exact ih.trans (List.prefix_append _ _)

/-- An active stream with a source region, from which every unit completes. -/
structure Running (r : State) : Prop where
  active : ActiveOk r
  source : SourceUsable r.cfg

theorem State.Inv.running {s : State} (hs : s.Inv) (hactive : s.mode ≠ .invalid) (hU : SourceUsable s.cfg) :
    Running s :=
  ⟨hs.activeOk hactive, hU⟩

theorem Running.capacity_ge {r : State} (h : Running r) : 18 ≤ r.cfg.ringCapacity := by
  have hbounds := bounds_of_paramsLegal h.active.params
  omega

theorem Running.cleared {r : State} (h : Running r) : ActiveOk (ringClear r) := by
  have hcap := h.capacity_ge
  obtain ⟨active, params, ⟨-, ⟨span_ge, val_le, bits_pos, bits_le⟩, contexts⟩, ⟨order1, order2⟩, ⟨even, lt⟩, -, ringWf⟩ :=
    h.active
  exact ⟨active, params, ⟨rfl, ⟨span_ge, val_le, bits_pos, bits_le⟩, contexts⟩, ⟨order1, order2⟩, ⟨even, lt⟩,
    (ringClear_ok (by omega)).1, ringWf⟩

/-- An emptied ring has room for the largest unit (42_ring_buffer.md R135). -/
theorem Running.unit_completes {r : State} (h : Running r) :
    modeUnit (ringClear r) = .done () (afterUnit r) ∧ Running (afterUnit r) := by
  have hcap := h.capacity_ge
  have hsat := modeUnit_sat h.cleared (by simpa using hcap)
  obtain ⟨_, t, hdone, ⟨hactive, -⟩, hframe⟩ := hsat.completes (by simpa using h.source)
  have ht : afterUnit r = t := by rw [afterUnit, hdone]; rfl
  have hcfg : t.cfg = r.cfg := by rw [hframe]; rfl
  rw [ht]
  exact ⟨hdone, hactive, hcfg ▸ h.source⟩

theorem Running.iterate {r : State} (h : Running r) (k : Nat) : Running (afterUnit^[k] r) := by
  induction k with
  | zero => exact h
  | succ k ih =>
    rw [Function.iterate_succ_apply']
    exact ih.unit_completes.2

/-! ### A core that follows a stream -/

/-- Some units on from the start `r`, `s` stands at the same place as the stream, and the bytes taken so far with those
still in its ring are the stream's. -/
def Follows (r s : State) (taken : List Byte) : Prop :=
  ∃ k, InStep (afterUnit^[k] r) s ∧ taken ++ ringContents s = streamOf r k

theorem Follows.taken_isPrefix {r s : State} {taken : List Byte} (h : Follows r s taken) : ∃ k, taken <+: streamOf r k := by
  obtain ⟨k, -, hbytes⟩ := h
  exact ⟨k, hbytes ▸ List.prefix_append _ _⟩

/-- A unit on `s` is the stream's next unit. -/
theorem Follows.after_unit {r s t : State} {taken : List Byte} (hr : Running r) (h : Follows r s taken)
    (hunit : modeUnit s = .done () t) : Follows r t taken := by
  obtain ⟨k, hstep, hbytes⟩ := h
  have hk := hr.iterate k
  have hready : RingReady (ringClear (afterUnit^[k] r)) := ⟨hk.cleared.ring, hk.cleared.ringWf⟩
  have hcleared : InStep (ringClear (afterUnit^[k] r)) s :=
    ⟨hstep.decoder, hstep.sideIndex, hstep.waiting, hready, hstep.readyRight⟩
  obtain ⟨-, hnext, bytes, hr', hs'⟩ := modeUnit_keepsStep _ _ _ _ _ _ hcleared hk.unit_completes.1 hunit
  have hnew : bytes = ringContents (afterUnit (afterUnit^[k] r)) := hr'.symm
  refine ⟨k + 1, ?_, ?_⟩
  · rw [Function.iterate_succ_apply']
    exact hnext
  · rw [streamOf, Function.iterate_succ_apply', ← hnew, ← hbytes, hs', List.append_assoc]

theorem Follows.after_pass {r s t : State} {taken : List Byte} (hr : Running r) (h : Follows r s taken)
    (hpass : refillPass s = .done () t) : Follows r t taken :=
  refillLoop_induction (P := fun u => Follows r u taken) (fun _ _ hu _ hunit => hu.after_unit hr hunit) hpass h

theorem ringRead_ringMoved {s t : State} {b : Byte} (hs : RingReady s) (h : ringRead s = .done b t) : RingMoved s t := by
  obtain ⟨hok, -⟩ := ringRead_takes_first hs.ok h
  have hframe := (ringRead_frame h).1
  have hwf : t.ringData.wf = true := by rw [hframe]; exact hs.wf
  refine ⟨?_, ?_, ?_, hok, hwf⟩ <;> rw [hframe]
  rfl

/-- The ring's oldest byte is the stream's next one. -/
theorem Follows.after_ringRead {r s t : State} {b : Byte} {taken : List Byte} (h : Follows r s taken)
    (htake : ringRead s = .done b t) : Follows r t (taken ++ [b]) := by
  obtain ⟨k, hstep, hbytes⟩ := h
  obtain ⟨-, hcontents⟩ := ringRead_takes_first hstep.readyRight.ok htake
  have hleft : RingMoved (afterUnit^[k] r) (afterUnit^[k] r) := ⟨.refl _, rfl, rfl, hstep.readyLeft⟩
  refine ⟨k, hstep.move hleft (ringRead_ringMoved hstep.readyRight htake), ?_⟩
  rw [← hbytes, hcontents, List.append_assoc, List.singleton_append]

/-- What the host has read is no part of the decoder. -/
theorem Follows.withObserved {r s : State} {taken : List Byte} (h : Follows r s taken) (bytes : List Byte) :
    Follows r { s with observed := bytes } taken := by
  obtain ⟨k, ⟨hdecoder, hindex, hwaiting, hleft, hright⟩, hbytes⟩ := h
  exact ⟨k, ⟨hdecoder.congr rfl rfl, hindex, hwaiting, hleft, hright.congr rfl rfl rfl rfl rfl⟩, hbytes⟩

theorem Follows.after_read {r s t : State} {taken : List Byte} (hr : Running r) (hactive : s.mode ≠ .invalid)
    (h : Follows r s taken) (hread : exec .read s = .next t) :
    ∃ b, t.observed = s.observed ++ [b] ∧ t.mode = s.mode ∧ Follows r t (taken ++ [b]) := by
  obtain ⟨u, v, b, hrefill, htake, rfl⟩ := exec_read_eq_next hactive hread
  have hu : Follows r u taken ∧ UnitFrame s u := by
    obtain ⟨-, hpass⟩ | ⟨-, rfl⟩ := hrefill
    · exact ⟨h.after_pass hr hpass, (refillLoop_frame hpass).1⟩
    · exact ⟨h, rfl⟩
  obtain ⟨hfollows, hframe⟩ := hu
  have hobserved : v.observed = s.observed := by rw [(ringRead_frame htake).1, hframe]
  have hmode : v.mode = s.mode := by rw [(ringRead_frame htake).1, hframe]
  exact ⟨b, by rw [hobserved], hmode, (hfollows.after_ringRead htake).withObserved _⟩

/-- `n` READs take the next `n` bytes of the stream. -/
theorem Follows.after_reads {r s u : State} {taken : List Byte} {n : Nat} (hr : Running r) (hactive : s.mode ≠ .invalid)
    (h : Follows r s taken) (hreads : readMany n s = .next u) :
    ∃ bytes, bytes.length = n ∧ u.observed = s.observed ++ bytes ∧ Follows r u (taken ++ bytes) := by
  induction n generalizing s taken with
  | zero =>
    cases hreads
    exact ⟨[], rfl, (List.append_nil _).symm, by rwa [List.append_nil]⟩
  | succ n ih =>
    obtain ⟨t, hfirst, hrest⟩ := readMany_succ_eq_next.mp hreads
    obtain ⟨b, hobserved, hmode, ht⟩ := h.after_read hr hactive hfirst
    obtain ⟨bytes, hlen, hobserved', hu⟩ := ih (hmode ▸ hactive) ht hrest
    refine ⟨b :: bytes, by rw [List.length_cons, hlen], ?_, ?_⟩
    · rw [hobserved', hobserved, List.append_assoc, List.singleton_append]
    · rwa [List.append_assoc, List.singleton_append] at hu

/-- Two cores that follow one stream have taken the same bytes, if equally many. -/
theorem Follows.taken_eq {r s t : State} {bytes bytes' : List Byte} (h : Follows r s bytes) (h' : Follows r t bytes')
    (hlen : bytes.length = bytes'.length) : bytes = bytes' := by
  obtain ⟨j, hj⟩ := h.taken_isPrefix
  obtain ⟨k, hk⟩ := h'.taken_isPrefix
  have hcommon := hj.trans (streamOf_isPrefix r (le_max_left j k))
  have hcommon' := hk.trans (streamOf_isPrefix r (le_max_right j k))
  exact (List.prefix_of_prefix_length_le hcommon hcommon' hlen.le).eq_of_length hlen

/-! ### READs that complete, and READs of the Invalid state -/

theorem readMany_completes {n : Nat} {s : State} (hs : s.Inv) (hU : SourceUsable s.cfg) : ∃ u, readMany n s = .next u := by
  induction n generalizing s with
  | zero => exact ⟨s, rfl⟩
  | succ n ih =>
    obtain ⟨t, ht⟩ := exec_read_completes hs hU
    have hcfg : t.cfg = s.cfg := (execRead_portChecksKept ht).cfg
    obtain ⟨u, hu⟩ := ih (exec_inv hs ht) (hcfg ▸ hU)
    exact ⟨u, readMany_succ_eq_next.mpr ⟨t, ht, hu⟩⟩

theorem exec_read_of_invalid {s : State} (h : s.mode = .invalid) :
    exec .read s = .next { s with observed := s.observed ++ [s.cfg.sentinel] } := by
  have hread : readByte s = .done s.cfg.sentinel s := by rw [readByte, h]
  exact Res.outcome_eq_next.mpr (Res.bind_eq_done.mpr ⟨_, _, hread, rfl⟩)

/-- From the Invalid state every READ returns the sentinel (47_commands.md R208). -/
theorem readMany_of_invalid {n : Nat} {s : State} (h : s.mode = .invalid) :
    readMany n s = .next { s with observed := s.observed ++ List.replicate n s.cfg.sentinel } := by
  induction n generalizing s with
  | zero => simp [readMany]
  | succ n ih =>
    refine readMany_succ_eq_next.mpr ⟨_, exec_read_of_invalid h, ?_⟩
    rw [ih (by exact h)]
    simp [List.replicate_succ]

/-! ### The start of a stream -/

theorem exec_init_eq_next_of_noSkip {m off : Word} {s t : State} :
    exec (.init m off 0#32) s = .next t ↔ startStream m off s = .done () t := by
  refine Res.outcome_eq_next.trans (Res.bind_eq_done.trans ⟨?_, fun h => ⟨(), t, h, rfl⟩⟩)
  rintro ⟨_, u, hstart, hskips⟩
  cases hskips
  exact hstart

theorem startStream_of_invalid {m off : Word} {s : State} (hm : modeOfOperand m = .invalid) :
    startStream m off s = .done () (initCommon m off s) := by
  rw [startStream, hm]

theorem startStream_of_valid {m off : Word} {s : State} (hm : modeOfOperand m ≠ .invalid) :
    startStream m off s = prime (clearModeRegisters (initCommon m off s)) := by
  unfold startStream
  split
  · rename_i hinvalid
    exact absurd hinvalid hm
  · rfl

/-- A stream of a valid mode that starts has a source region. -/
theorem sourceUsable_of_startStream {m off : Word} {s t : State} (hm : modeOfOperand m ≠ .invalid)
    (h : startStream m off s = .done () t) : SourceUsable s.cfg := by
  intro hU
  rw [startStream_of_valid hm, prime_stuck (by exact hU)] at h
  cases h

/-- What a started stream holds outside its decoder. -/
theorem startStream_fields {m off : Word} {s t : State} (h : startStream m off s = .done () t)
    (hm : modeOfOperand m ≠ .invalid) :
    t.cfg = s.cfg ∧ t.mode = modeOfOperand m ∧ t.length = 0 ∧ t.sideIndex = 0#5 := by
  rw [startStream_of_valid hm] at h
  obtain ⟨hframe, -⟩ := prime_frame h
  rw [hframe]
  exact ⟨rfl, rfl, rfl, rfl⟩

/-- Two cores that differ in their pasts and in the ring's parameters start the same decoder (47_commands.md R204). -/
theorem startStream_sameDecoder {m off : Word} {s1 s2 t1 t2 : State} {capacity threshold : Nat}
    (hcfg : s2.cfg = { s1.cfg with ringCapacity := capacity, refillThreshold := threshold }) (hsrc : s1.src = s2.src)
    (hm : modeOfOperand m ≠ .invalid) (h1 : startStream m off s1 = .done () t1) (h2 : startStream m off s2 = .done () t2) :
    SameDecoder t1 t2 := by
  have hU1 := sourceUsable_of_startStream hm h1
  have hU2 := sourceUsable_of_startStream hm h2
  rw [startStream_of_valid hm, prime_done (by exact hU1)] at h1
  rw [startStream_of_valid hm, prime_done (by exact hU2)] at h2
  cases h1
  cases h2
  cases s1
  cases s2
  cases hcfg
  cases hsrc
  rfl

/-- `n` READs complete from both states and return the same bytes. -/
def SameOutput (n : Nat) (t1 t2 : State) : Prop :=
  ∃ u1 u2 bytes, readMany n t1 = .next u1 ∧ readMany n t2 = .next u2 ∧ u1.observed = t1.observed ++ bytes ∧
    u2.observed = t2.observed ++ bytes

/-- In the Invalid state both return the sentinel. -/
theorem sameOutput_of_invalid {n : Nat} {t1 t2 : State} (h1 : t1.mode = .invalid) (h2 : t2.mode = .invalid)
    (hsentinel : t2.cfg.sentinel = t1.cfg.sentinel) : SameOutput n t1 t2 :=
  ⟨_, _, List.replicate n t1.cfg.sentinel, readMany_of_invalid h1, readMany_of_invalid h2, rfl, by rw [hsentinel]⟩

/-- A started stream is at its own start. -/
theorem follows_of_inStep {r s : State} (h : InStep r s) (hempty : s.length = 0) : Follows r s [] :=
  ⟨0, h, by rw [ringContents, hempty]; rfl⟩

/-- In step with empty rings, both follow the stream of the first. -/
theorem sameOutput_of_inStep {n : Nat} {t1 t2 : State} (hinv1 : t1.Inv) (hinv2 : t2.Inv) (hactive : t1.mode ≠ .invalid)
    (hU1 : SourceUsable t1.cfg) (hU2 : SourceUsable t2.cfg) (hempty1 : t1.length = 0) (hempty2 : t2.length = 0)
    (h : InStep t1 t2) : SameOutput n t1 t2 := by
  have hr := hinv1.running hactive hU1
  have hself : InStep t1 t1 := ⟨.refl t1, rfl, fun _ _ _ => rfl, h.readyLeft, h.readyLeft⟩
  have hactive2 : t2.mode ≠ .invalid := h.decoder.mode_eq ▸ hactive
  obtain ⟨u1, hreads1⟩ := readMany_completes (n := n) hinv1 hU1
  obtain ⟨u2, hreads2⟩ := readMany_completes (n := n) hinv2 hU2
  obtain ⟨bytes1, hlen1, hobs1, hu1⟩ := (follows_of_inStep hself hempty1).after_reads hr hactive hreads1
  obtain ⟨bytes2, hlen2, hobs2, hu2⟩ := (follows_of_inStep h hempty2).after_reads hr hactive2 hreads2
  have hsame : bytes1 = bytes2 := hu1.taken_eq hu2 (hlen1.trans hlen2.symm)
  exact ⟨u1, u2, bytes1, hreads1, hreads2, hobs1, hsame ▸ hobs2⟩

section

variable {s1 s2 : State} {capacity threshold : Nat}
  (hcfg : s2.cfg = { s1.cfg with ringCapacity := capacity, refillThreshold := threshold }) (hsrc : s1.src = s2.src)
  (hparams1 : ParamsLegal s1.cfg) (hparams2 : ParamsLegal s2.cfg) (hmem1 : MemoryOk s1) (hmem2 : MemoryOk s2)
include hcfg hsrc hparams1 hparams2 hmem1 hmem2

/-- INIT of a valid mode leaves both cores at the same place, with empty rings and nothing waiting in the side buffer. -/
theorem sameOutput_of_started {n : Nat} {m off : Word} {t1 t2 : State} (hm : modeOfOperand m ≠ .invalid)
    (h1 : startStream m off s1 = .done () t1) (h2 : startStream m off s2 = .done () t2) : SameOutput n t1 t2 := by
  have hU1 := sourceUsable_of_startStream hm h1
  have hU2 := sourceUsable_of_startStream hm h2
  obtain ⟨hcfg1, hmode1, hempty1, hindex1⟩ := startStream_fields h1 hm
  obtain ⟨hcfg2, -, hempty2, hindex2⟩ := startStream_fields h2 hm
  have hinv1 := startStream_inv hparams1 hmem1 h1
  have hinv2 := startStream_inv hparams2 hmem2 h2
  have hwaiting (j : Nat) (hj : j < 16) (hlt : j < t1.sideIndex.toNat) : t2.sideBuffer[j] = t1.sideBuffer[j] := by
    rw [hindex1] at hlt
    exact absurd hlt (Nat.not_lt_zero j)
  have hstep : InStep t1 t2 := ⟨startStream_sameDecoder hcfg hsrc hm h1 h2, hindex2.trans hindex1.symm, hwaiting,
    ⟨hinv1.ring, hinv1.memory.ring⟩, ⟨hinv2.ring, hinv2.memory.ring⟩⟩
  exact sameOutput_of_inStep hinv1 hinv2 (hmode1 ▸ hm) (hcfg1 ▸ hU1) (hcfg2 ▸ hU2) hempty1 hempty2 hstep

/-- Whatever the mode operand: what starts on one core starts on the other, and their READs return the same bytes. -/
theorem startStream_sameOutput {m off : Word} {t1 : State} (n : Nat) (h1 : startStream m off s1 = .done () t1) :
    ∃ t2, startStream m off s2 = .done () t2 ∧ SameOutput n t1 t2 := by
  by_cases hm : modeOfOperand m = .invalid
  · rw [startStream_of_invalid hm] at h1
    cases h1
    exact ⟨_, startStream_of_invalid hm, sameOutput_of_invalid hm hm (by simp [hcfg])⟩
  · have hU1 := sourceUsable_of_startStream hm h1
    have hU2 : SourceUsable s2.cfg := by rw [hcfg]; exact hU1
    obtain ⟨_, t2, h2, -⟩ := (startStream_sat m off hparams2 hmem2).completes hU2
    exact ⟨t2, h2, sameOutput_of_started hcfg hsrc hparams1 hparams2 hmem1 hmem2 hm h1 h2⟩

end

/-- Settles O29: both cores follow one stream from the start that INIT gives them. -/
theorem outputIndependentOfRing : Obligations.OutputIndependentOfRing := by
  intro s1 s2 t1 u1 m off n capacity threshold hcfg hsrc hparams1 hparams2 hmem1 hmem2 hinit hreads
  have h1 := exec_init_eq_next_of_noSkip.mp hinit
  obtain ⟨t2, h2, v1, u2, bytes, hreads1, hreads2, hout1, hout2⟩ :=
    startStream_sameOutput hcfg hsrc hparams1 hparams2 hmem1 hmem2 n h1
  have hsame : u1 = v1 := by
    rw [hreads1] at hreads
    cases hreads
    rfl
  refine ⟨t2, u2, bytes, exec_init_eq_next_of_noSkip.mpr h2, hreads2, ?_, ?_⟩
  · rw [hsame, hout1, (startStream_hostSideKept h1).observed]
  · rw [hout2, (startStream_hostSideKept h2).observed]

end Sys2Proof.Machine
end

section
/-! PROOFS. Mode 0's contexts, and how one bit enters the accumulator and the histories (43_mode0.md R141 to R143). -/

namespace Sys2Proof.Machine

/-! ### The context of a bit -/

/-- The mask of R142: a one for each bit of the nibble already decoded. -/
theorem nibbleMask_toNat {k : Nat} (hk : k < 4) : ((1#32 <<< k) - 1#32).toNat = 2 ^ k - 1 := by
  match k, hk with
  | 0, _ | 1, _ | 2, _ | 3, _ => decide

/-- Masking both histories and then combining them keeps the low bits of the combined history. -/
theorem xor_and_nibbleMask_toNat (x y : Word) {k : Nat} (hk : k < 4) :
    ((x &&& ((1#32 <<< k) - 1#32)) ^^^ (y &&& ((1#32 <<< k) - 1#32))).toNat = (x ^^^ y).toNat % 2 ^ k := by
  rw [BitVec.toNat_xor, BitVec.toNat_and, BitVec.toNat_and, nibbleMask_toNat hk, Nat.and_two_pow_sub_one_eq_mod,
    Nat.and_two_pow_sub_one_eq_mod, BitVec.toNat_xor, Nat.xor_mod_two_pow]

/-- The context on numbers, for every bit index (43_mode0.md R142). -/
theorem mode0Context_eq (bitIdx : Nat) (s : State) :
    mode0Context bitIdx s = (if 3 < bitIdx then 15 else 0) + (2 ^ (bitIdx % 4) - 1) +
      (s.invertHistory ^^^ s.lpsHistory).toNat % 2 ^ (bitIdx % 4) := by
  have hk : bitIdx % 4 < 4 := Nat.mod_lt _ (by omega)
  simp only [mode0Context, nibbleMask_toNat hk, xor_and_nibbleMask_toNat _ _ hk]
  split <;> omega

/-- Settles O42: the general context, with the nibble's bit index in place of the remainder. -/
theorem modeZeroContexts : Obligations.ModeZeroContexts := by
  refine fun bitIdx s => ⟨fun hlow => ?_, fun hhigh hlt => ?_, mode0Context_lt bitIdx s⟩
  · rw [mode0Context_eq, Nat.mod_eq_of_lt hlow, if_neg (by omega), Nat.zero_add]
  · have hnibble : bitIdx % 4 = bitIdx - 4 := by omega
    rw [mode0Context_eq, hnibble, if_pos (by omega)]

/-! ### One bit -/

/-- A shift register on numbers (10_state.md R27). -/
theorem shiftIn_toNat (h : Word) (b : Bool) : (shiftIn h b).toNat = (2 * h.toNat + b.toNat) % 2 ^ 32 := by
  have hb : ((BitVec.ofBool b).setWidth 32).toNat = b.toNat := by cases b <;> rfl
  rw [shiftIn, BitVec.toNat_add, BitVec.toNat_mul, hb]
  simp [Nat.mul_comm]

/-- A mode 0 bit that completes is one decode against its context, and this is the state it leaves. -/
theorem mode0Bit_eq_done {i j : Nat} {s t : State} (h : mode0Bit i s = .done j t) :
    ∃ sym u, decodeSymbol (mode0Context i s) s = .done sym u ∧ j = i + 1 ∧
      t = recordSymbol sym
        { u with out := shiftIn s.out (s.out.getLsbD s.cfg.mode0MpsTap ^^ sym.invertUsed ^^ sym.flag) } := by
  obtain ⟨sym, u, hdecode, hdone⟩ := Res.bind_eq_done.mp h
  obtain ⟨hframe, -⟩ := decodeSymbol_frame hdecode
  have hcfg : u.cfg = s.cfg := hframe.cfg_eq
  have hout : u.out = s.out := by rw [hframe]
  cases hdone
  exact ⟨sym, u, hdecode, rfl, by rw [hcfg, hout]; rfl⟩

/-- Settles O43: the decode leaves `out` and the histories, and answers the context's `invert` from before. -/
theorem modeZeroBitEntersAccumulator : Obligations.ModeZeroBitEntersAccumulator := by
  intro i j s t h
  obtain ⟨sym, u, hdecode, rfl, rfl⟩ := mode0Bit_eq_done h
  obtain ⟨hframe, ⟨hc, hinvert⟩, -⟩ := decodeSymbol_frame hdecode
  have hlps : u.lpsHistory = s.lpsHistory := by rw [hframe]
  have hinv : u.invertHistory = s.invertHistory := by rw [hframe]
  refine ⟨hc, sym, u, hdecode, rfl, ?_, ?_, ?_, rfl⟩
  · rw [← hinvert]
    exact shiftIn_toNat _ _
  · rw [← hlps]
    exact shiftIn_toNat _ _
  · rw [← hinvert, ← hinv]
    exact shiftIn_toNat _ _

end Sys2Proof.Machine
end

section
/-! PROOFS. A mode 1 unit on a pixel order that is no permutation: a value above 3 carries out of the two bits its pixel
has in the accumulator (44_mode1.md R157, 10_state.md R30). -/

namespace Sys2Proof.Machine

/-- A mode 1 core whose pixel order holds 12 at index 3. On its source of zeros every symbol is an MPS against a context
with `invert` set, so each pixel selects index 3, and `out` stands at the fixed point of `4 * out + 12`. -/
def strayPixelCore : State :=
  { State.reset with
    mode := .mode1, span := 0xff#8, inputBitsRemaining := 8#4
    ctx := Vector.replicate 32 ⟨0#6, true⟩
    out := 0xfffffffc#32
    pixelOrder := withFirstFour identityOrder #v[3#4, 0#4, 1#4, 12#4] }

theorem strayPixelCore_ringOk : RingOk strayPixelCore :=
  ⟨by decide, by decide, by decide, by decide⟩

theorem strayPixelCore_unit_completes :
    mode1Unit strayPixelCore = .done () (mode1Unit strayPixelCore).final := by
  decide +kernel

/-- The unit leaves the accumulator as it was, so its high half is not the low half from before. -/
theorem strayPixelCore_unit_out : (mode1Unit strayPixelCore).final.out = 0xfffffffc#32 := by
  decide +kernel

/-- Refutes O41: its mode 1 part asks nothing of the pixel order, and on an order that holds 12 the eight pixels do not
push `out[15:0]` into `out[31:16]`: from 0xfffffffc that half becomes 0xffff and not 0xfffc. -/
theorem not_unitsAppendTheirPlanes : ¬ Obligations.UnitsAppendTheirPlanes := by
  rintro ⟨-, hmode1, -⟩
  obtain ⟨u, -, -, hhalf, -⟩ := hmode1 strayPixelCore _ strayPixelCore_ringOk rfl strayPixelCore_unit_completes
  rw [strayPixelCore_unit_out] at hhalf
  exact absurd hhalf (by decide)

end Sys2Proof.Machine
end

section
/-! PROOFS. What a READ leaves alone, by mode (43_mode0.md R141, 44_mode1.md R151, 45_mode2.md R171). -/

namespace Sys2Proof.Machine

/-- A READ of a valid mode writes what units of that mode write, the ring's read side and the record of returned
bytes. -/
theorem exec_read_frame {s t : State} (hactive : s.mode ≠ .invalid) (h : exec .read s = .next t) :
    ∃ u, ((s.mode = .mode0 → Mode0Frame s u) ∧ (s.mode = .mode1 → Mode1Frame s u ∧ UpperOrderKept s u) ∧
      (s.mode = .mode2 → Mode2Frame s u)) ∧
      t = { u with readOffset := t.readOffset, length := t.length, observed := t.observed } := by
  obtain ⟨u, v, b, hrefill, htake, rfl⟩ := exec_read_eq_next hactive h
  refine ⟨u, ?_, ?_⟩
  · obtain ⟨-, hpass⟩ | ⟨-, rfl⟩ := hrefill
    · exact (refillLoop_frame hpass).2
    · exact ⟨fun _ => rfl, fun _ => ⟨rfl, fun _ _ _ => rfl⟩, fun _ => rfl⟩
  · rw [(ringRead_frame htake).1]

/-- Settles O22: the frame of the mode's units, followed by the ring's read. -/
theorem readFrameByMode : Obligations.ReadFrameByMode := by
  refine fun s t h => ⟨fun hm => ?_, fun hm => ?_, fun hm => ?_⟩ <;>
    obtain ⟨u, ⟨hmode0, hmode1, hmode2⟩, ht⟩ := exec_read_frame (by rw [hm]; decide) h
  · rw [ht, hmode0 hm]
  · obtain ⟨hframe, hupper⟩ := hmode1 hm
    refine ⟨by rw [ht, hframe], fun j hlow hj => ?_⟩
    rw [ht]
    exact hupper j hlow hj
  · rw [ht, hmode2 hm]

end Sys2Proof.Machine
end

section
/-! PROOFS. One unit of each mode, taken apart: the bits or pixels it decodes, and the bytes it then appends to the ring
and holds in mode 2's side buffer (43_mode0.md R144, 44_mode1.md R158, 45_mode2.md R179). -/

namespace Sys2Proof.Machine

/-! ### Symbols and pixels -/

/-- From `s` to `t` one symbol was decoded and recorded in the histories (44_mode1.md R156, 45_mode2.md R177). -/
def SymbolDecoded (s t : State) : Prop :=
  ∃ con sym u, decodeSymbol con s = .done sym u ∧ t = recordSymbol sym u

theorem mode1Symbol_decodes {con next : Nat} {s t : State} (h : mode1Symbol con s = .done next t) :
    SymbolDecoded s t := by
  obtain ⟨sym, u, hdecode, hdone⟩ := Res.bind_eq_done.mp h
  cases hdone
  exact ⟨con, sym, u, hdecode, rfl⟩

theorem mode2Symbol_decodes {rc con next : Nat} {s t : State} (h : mode2Symbol rc con s = .done next t) :
    SymbolDecoded s t := by
  unfold mode2Symbol at h
  split at h
  · obtain ⟨sym, u, hdecode, hdone⟩ := Res.bind_eq_done.mp h
    cases hdone
    exact ⟨con, sym, u, hdecode, rfl⟩
  · cases h

/-- Move-to-front puts its value at index 0 (44_mode1.md R153). -/
theorem mtf_getElem_zero {n : Nat} {o r : Vector (BitVec 4) (n + 1)} {v : BitVec 4} (h : mtf o v = some r) :
    r[0] = v := by
  obtain ⟨-, hr⟩ := mtf_toList h
  rw [← Vector.getElem_toList (by simp)]
  simp [hr]

/-- The ranking begins with the first reference pixel (44_mode1.md R154). -/
theorem realOrder_getElem_zero {n : Nat} {o q : Vector (BitVec 4) (n + 1)} {r : RefPixels} {s t : State}
    (h : realOrder o r s = .done q t) : q[0] = r.a := by
  obtain ⟨o1, s1, -, hrest⟩ := Res.bind_eq_done.mp h
  obtain ⟨o2, s2, -, hlast⟩ := Res.bind_eq_done.mp hrest
  exact mtf_getElem_zero (moveToFront_frame hlast).2

/-- A mode 1 pixel that completes: a new pixel order, two symbols, and the value they select from a ranking that begins
with reference pixel `a` (44_mode1.md R151). -/
theorem mode1Pixel_eq_done {a b : Unit} {s t : State} (h : mode1Pixel a s = .done b t) :
    ∃ order con con' u, ∃ ranking : Vector (BitVec 4) 4,
      loop mode1Symbol 2 con { s with pixelOrder := order } = .done con' u ∧ ranking[0] = (mode1Pixels s).a ∧
      t = { u with out := u.out * 4#32 + (mode1Value ranking u).setWidth 32 } := by
  obtain ⟨order, s0, hfront, hrest⟩ := Res.bind_eq_done.mp h
  obtain ⟨ranking, s2, hrank, hrest⟩ := Res.bind_eq_done.mp hrest
  obtain ⟨con', u, hsymbols, hdone⟩ := Res.bind_eq_done.mp hrest
  obtain ⟨rfl, -⟩ := moveToFront_frame hfront
  cases realOrder_frame hrank
  cases hdone
  exact ⟨_, _, con', u, ranking, hsymbols, realOrder_getElem_zero hrank, rfl⟩

/-- A mode 2 pixel that completes, likewise with four symbols (45_mode2.md R171). -/
theorem mode2Pixel_eq_done {a b : Unit} {s t : State} (h : mode2Pixel a s = .done b t) :
    ∃ order rc con' u, ∃ ranking : Vector (BitVec 4) 16,
      loop (mode2Symbol rc) 4 0 { s with pixelOrder := order } = .done con' u ∧ ranking[0] = (mode2Pixels s).a ∧
      t = { u with
        out1 := u.out1 * 16#32 + (u.out0.extractLsb' 28 4).setWidth 32
        out0 := u.out0 * 16#32 + (mode2Value ranking u).setWidth 32 } := by
  obtain ⟨order, s0, hfront, hrest⟩ := Res.bind_eq_done.mp h
  obtain ⟨ranking, s2, hrank, hrest⟩ := Res.bind_eq_done.mp hrest
  obtain ⟨con', u, hsymbols, hdone⟩ := Res.bind_eq_done.mp hrest
  obtain ⟨rfl, -⟩ := moveToFront_frame hfront
  cases realOrder_frame hrank
  cases hdone
  exact ⟨_, _, con', u, ranking, hsymbols, realOrder_getElem_zero hrank, rfl⟩

/-! ### Units -/

theorem Mode0Bits.ringReady {s t : State} (h : Mode0Bits s t) (hs : RingReady s) : RingReady t := by
  rw [h]
  exact hs.congr rfl rfl rfl rfl rfl

theorem Mode1Pixels.ringReady {s t : State} (h : Mode1Pixels s t) (hs : RingReady s) : RingReady t := by
  rw [h]
  exact hs.congr rfl rfl rfl rfl rfl

theorem Mode2Pixels.ringReady {s t : State} (h : Mode2Pixels s t) (hs : RingReady s) : RingReady t := by
  rw [h]
  exact hs.congr rfl rfl rfl rfl rfl

/-- A mode 0 unit that completes is eight bits to `u`, whose `out` holds the byte it appends. -/
theorem mode0Unit_appends {s t : State} (hs : RingReady s) (h : mode0Unit s = .done () t) :
    ∃ i u, loop mode0Bit 8 0 s = .done i u ∧ RingGrown u t ∧
      ringContents t = ringContents s ++ [u.out.extractLsb' 0 8] := by
  obtain ⟨i, u, hbits, hwrite⟩ := Res.bind_eq_done.mp h
  have hframe : Mode0Bits s u :=
    loop_rel (R := Mode0Bits) (fun _ => rfl) (fun _ _ _ => .trans) (fun _ _ _ _ => mode0Bit_frame) 8 hbits
  have hcontents : ringContents u = ringContents s := by rw [hframe]; rfl
  refine ⟨i, u, hbits, (ringWrite_frame hwrite).1, ?_⟩
  rw [← hcontents]
  exact (ringWrite_appends (hframe.ringReady hs) hwrite).2

/-- A mode 1 unit that completes is eight pixels to `u`, whose `out` holds the planes it appends. -/
theorem mode1Unit_appends {s t : State} (hs : RingReady s) (h : mode1Unit s = .done () t) :
    ∃ u, loop mode1Pixel 8 () s = .done () u ∧ RingGrown u t ∧
      ringContents t = ringContents s ++
        [(morton2 (u.out.extractLsb' 0 16)).extractLsb' 8 8, (morton2 (u.out.extractLsb' 0 16)).extractLsb' 0 8] := by
  obtain ⟨_, u, hpixels, hwrite⟩ := Res.bind_eq_done.mp h
  have hframe := (mode1Pixels_loop_frame hpixels).1
  have hcontents : ringContents u = ringContents s := by rw [hframe]; rfl
  refine ⟨u, hpixels, (ringWriteAll_frame hwrite).1, ?_⟩
  rw [← hcontents]
  exact (ringWriteAll_appends (hframe.ringReady hs) hwrite).2

/-- A side buffer short of full is left alone; a full one is appended to the ring and emptied (45_mode2.md R179). -/
theorem sideFlush_cases {s t : State} (hs : RingReady s) (h : sideFlush s = .done () t) :
    (s.sideIndex ≠ 16#5 ∧ t = s) ∨
    (s.sideIndex = 16#5 ∧ ∃ u, RingGrown s u ∧ t = { u with sideIndex := 0#5 } ∧
      ringContents t = ringContents s ++ s.sideBuffer.toList) := by
  unfold sideFlush at h
  split at h
  · rename_i hfull
    obtain ⟨_, u, hwrite, hdone⟩ := Res.bind_eq_done.mp h
    have hcontents := (ringWriteAll_appends hs hwrite).2
    cases hdone
    exact .inr ⟨hfull, u, (ringWriteAll_frame hwrite).1, rfl, hcontents⟩
  · rename_i hshort
    cases h
    exact .inl ⟨hshort, rfl⟩

/-- A mode 2 unit that completes is eight pixels to `u`, whose `out0` holds the planes: two go to the ring, two through
the side buffer. -/
theorem mode2Unit_appends {s t : State} (hs : RingReady s) (h : mode2Unit s = .done () t) :
    ∃ u v w, loop mode2Pixel 8 () s = .done () u ∧ RingGrown u v ∧ RingReady v ∧
      ringContents v = ringContents s ++ [(morton4 u.out0).extractLsb' 24 8, (morton4 u.out0).extractLsb' 16 8] ∧
      sideAppend ((morton4 u.out0).extractLsb' 8 8) ((morton4 u.out0).extractLsb' 0 8) v = .done () w ∧
      sideFlush w = .done () t := by
  obtain ⟨_, u, hpixels, hrest⟩ := Res.bind_eq_done.mp h
  obtain ⟨_, v, hwrite, hrest⟩ := Res.bind_eq_done.mp hrest
  obtain ⟨_, w, hside, hflush⟩ := Res.bind_eq_done.mp hrest
  have hframe := mode2Pixels_loop_frame hpixels
  have hcontents : ringContents u = ringContents s := by rw [hframe]; rfl
  obtain ⟨hready, happends⟩ := ringWriteAll_appends (hframe.ringReady hs) hwrite
  exact ⟨u, v, w, hpixels, (ringWriteAll_frame hwrite).1, hready, hcontents ▸ happends, hside, hflush⟩

end Sys2Proof.Machine
end

section
/-! PROOFS. On a source of zeros every symbol is an MPS, every pixel is 0 and every byte is 0x00 (the examples of
43_mode0.md R141, 44_mode1.md R151 and 45_mode2.md R171). -/

namespace Sys2Proof.Machine

/-- A stream on a source of zeros: nothing but zeros has entered the decoder, no context is inverted, and the histories,
the accumulators and the bytes waiting in the side buffer are 0. -/
structure Zeroed (s : State) : Prop where
  params : ParamsLegal s.cfg
  source : ∀ a, s.src.read a = 0#8
  span_ge : 0x7f ≤ s.span.toNat
  bits_pos : 1 ≤ s.inputBitsRemaining.toNat
  bits_le : s.inputBitsRemaining.toNat ≤ 8
  indices : ∀ (j : Nat) (hj : j < 32), s.ctx[j].stateIndex.toNat ≤ 52
  val : s.val = 0#8
  input : s.inputByte = 0#8
  invert : ∀ (j : Nat) (hj : j < 32), s.ctx[j].invert = false
  lps : s.lpsHistory = 0#32
  inverts : s.invertHistory = 0#32
  out : s.out = 0#32
  out0 : s.out0 = 0#32
  waiting : ∀ (j : Nat) (hj : j < 16), j < s.sideIndex.toNat → s.sideBuffer[j] = 0#8

theorem Zeroed.arithOk {s : State} (h : Zeroed s) : ArithOk s :=
  ⟨h.span_ge, by rw [h.val]; exact Nat.zero_le _, h.bits_pos, h.bits_le⟩

/-- A loop keeps what each of its rounds keeps. -/
theorem Zeroed.after_loop {α : Type} {body : α → State → Res α}
    (hbody : ∀ a s b t, body a s = .done b t → Zeroed s → Zeroed t) {n : Nat} {a b : α} {s t : State}
    (h : loop body n a s = .done b t) (hs : Zeroed s) : Zeroed t :=
  loop_rel (R := fun s t => Zeroed s → Zeroed t) (fun _ => id) (fun _ _ _ h1 h2 => h2 ∘ h1) hbody n h hs

/-! ### Symbols -/

/-- Only zero bits have entered the decoder, and only zero bytes can. -/
structure ZeroInput (s : State) : Prop where
  source : ∀ a, s.src.read a = 0#8
  val : s.val = 0#8
  input : s.inputByte = 0#8

/-- The bit shifted in is 0, and so is the byte a reload fetches (41_arith_decoder.md R114). -/
theorem ZeroInput.after_renormStep {s t : State} (hs : ZeroInput s) (h : renormStep s = .done () t) :
    ZeroInput t := by
  have hshift : ZeroInput (shiftRegisters s) := by
    refine ⟨hs.source, ?_, ?_⟩ <;> simp [shiftRegisters, hs.val, hs.input]
  obtain ⟨-, rfl⟩ | ⟨-, rfl⟩ := renormStep_cases h
  · exact hshift
  · exact ⟨hshift.source, hshift.val, hshift.source _⟩

theorem ZeroInput.after_renormalize {n : Nat} {s t : State} (hs : ZeroInput s) (h : renormalize s = .done n t) :
    ZeroInput t :=
  loop_rel (R := fun s t => ZeroInput s → ZeroInput t) (fun _ => id) (fun _ _ _ h1 h2 => h2 ∘ h1)
    (fun _ _ _ _ hstep hs => hs.after_renormStep hstep) _ (renormLoop_iterates h).2 hs

/-- With `val = 0` the decode is an MPS: a legal probability is below every `span` (41_arith_decoder.md R113). -/
theorem Zeroed.decode_mps {con : Nat} {s t : State} {sym : Symbol} (hs : Zeroed s)
    (h : decodeSymbol con s = .done sym t) : sym.flag = false ∧ ZeroInput t := by
  obtain ⟨ce, u, hlookup, hrenorm, hflag, -, rfl⟩ := decodeSymbol_eq_done h
  obtain ⟨hc, he, rfl⟩ := lookupContext_eq_done hlookup
  obtain ⟨-, -, hprob1, hprob2⟩ := entry_legal hs.params _ he
  have hval : s.val.toNat = 0 := by rw [hs.val]; rfl
  have hspan := hs.span_ge
  obtain ⟨hmps, -⟩ := intervalSplit_values hprob1 hprob2 hspan hs.arithOk.val_le
  obtain ⟨hsplit, -, hval'⟩ := hmps (by omega)
  have hu : ZeroInput u := by
    refine ZeroInput.after_renormalize ?_ hrenorm
    exact ⟨by rw [intervalSplit_frame]; exact hs.source, hval'.trans hs.val,
      by rw [intervalSplit_frame]; exact hs.input⟩
  exact ⟨hflag.trans hsplit, hu.source, hu.val, hu.input⟩

/-- After an MPS no context is inverted that was not before (41_arith_decoder.md R117). -/
theorem decodeSymbol_mps_invert {con : Nat} {s t : State} {sym : Symbol} (h : decodeSymbol con s = .done sym t)
    (hmps : sym.flag = false) (j : Nat) (hj : j < 32) : t.ctx[j].invert = s.ctx[j].invert := by
  obtain ⟨-, -, hothers⟩ := decodeSymbol_frame h
  by_cases hjc : j = con
  · subst hjc
    obtain ⟨ce, u, hlookup, -, -, -, rfl⟩ := decodeSymbol_eq_done h
    obtain ⟨-, -, rfl⟩ := lookupContext_eq_done hlookup
    rw [updateContext_getElem_self hj, hmps, contextAfter_mps_invert]
  · rw [hothers j hj hjc]

theorem Zeroed.after_decode {con : Nat} {s t : State} {sym : Symbol} (hs : Zeroed s)
    (h : decodeSymbol con s = .done sym t) : sym.flag = false ∧ sym.invertUsed = false ∧ Zeroed t := by
  obtain ⟨hframe, ⟨hc, hinvert⟩, -⟩ := decodeSymbol_frame h
  obtain ⟨hmps, hinput⟩ := hs.decode_mps h
  have hsat := decodeSymbol_sat hs.params hc ⟨rfl, hs.arithOk, hs.indices⟩
  rw [h] at hsat
  obtain ⟨⟨hcfg, harith, hindices⟩, -⟩ := hsat
  refine ⟨hmps, hinvert.trans (hs.invert con hc), ?_⟩
  exact {
    params := hcfg ▸ hs.params
    source := hinput.source
    span_ge := harith.span_ge
    bits_pos := harith.bits_pos
    bits_le := harith.bits_le
    indices := hindices
    val := hinput.val
    input := hinput.input
    invert := fun j hj => (decodeSymbol_mps_invert h hmps j hj).trans (hs.invert j hj)
    lps := by rw [hframe]; exact hs.lps
    inverts := by rw [hframe]; exact hs.inverts
    out := by rw [hframe]; exact hs.out
    out0 := by rw [hframe]; exact hs.out0
    waiting := by rw [hframe]; exact hs.waiting }

/-- Two zeros enter the histories. -/
theorem Zeroed.record {sym : Symbol} {s : State} (hs : Zeroed s) (hflag : sym.flag = false)
    (hinvert : sym.invertUsed = false) : Zeroed (recordSymbol sym s) :=
  { hs with
    lps := by rw [recordSymbol_lpsHistory, hs.lps, hflag]; rfl
    inverts := by rw [recordSymbol_invertHistory, hs.inverts, hinvert]; rfl }

theorem Zeroed.after_symbol {s t : State} (hs : Zeroed s) (h : SymbolDecoded s t) : Zeroed t := by
  obtain ⟨con, sym, u, hdecode, rfl⟩ := h
  obtain ⟨hflag, hinvert, hu⟩ := hs.after_decode hdecode
  exact hu.record hflag hinvert

/-! ### Bits and pixels -/

/-- The tap bit of `out` is 0, so a zero enters `out`. -/
theorem Zeroed.after_mode0Bit {i j : Nat} {s t : State} (h : mode0Bit i s = .done j t) (hs : Zeroed s) : Zeroed t := by
  obtain ⟨sym, u, hdecode, -, rfl⟩ := mode0Bit_eq_done h
  obtain ⟨hflag, hinvert, hu⟩ := hs.after_decode hdecode
  have hout : shiftIn s.out (s.out.getLsbD s.cfg.mode0MpsTap ^^ sym.invertUsed ^^ sym.flag) = 0#32 := by
    simp [hs.out, hflag, hinvert, shiftIn]
  exact { hu.record hflag hinvert with out := hout }

theorem Zeroed.historyXor_eq {s : State} (hs : Zeroed s) : historyXor s = 0#32 := by
  rw [historyXor, hs.lps, hs.inverts]
  rfl

/-- The histories select index 0 of the ranking. -/
theorem Zeroed.mode1Value_eq {s : State} (hs : Zeroed s) (ranking : Vector (BitVec 4) 4) :
    mode1Value ranking s = ranking[0] := by
  simp [mode1Value, hs.historyXor_eq]

theorem Zeroed.mode2Value_eq {s : State} (hs : Zeroed s) (ranking : Vector (BitVec 4) 16) :
    mode2Value ranking s = ranking[0] := by
  simp [mode2Value, hs.historyXor_eq]

/-- Index 0 of the ranking is reference pixel `a`, which is 0. -/
theorem Zeroed.after_mode1Pixel {a b : Unit} {s t : State} (h : mode1Pixel a s = .done b t) (hs : Zeroed s) :
    Zeroed t := by
  obtain ⟨order, con, con', u, ranking, hsymbols, hfirst, rfl⟩ := mode1Pixel_eq_done h
  have hordered : Zeroed { s with pixelOrder := order } := { hs with }
  have hu : Zeroed u :=
    .after_loop (fun _ _ _ _ hsym hz => hz.after_symbol (mode1Symbol_decodes hsym)) hsymbols hordered
  have hvalue : mode1Value ranking u = 0#4 := by
    rw [hu.mode1Value_eq, hfirst, mode1Pixels, hs.out]
    rfl
  exact { hu with out := by rw [hvalue, hu.out]; rfl }

theorem Zeroed.after_mode2Pixel {a b : Unit} {s t : State} (h : mode2Pixel a s = .done b t) (hs : Zeroed s) :
    Zeroed t := by
  obtain ⟨order, rc, con', u, ranking, hsymbols, hfirst, rfl⟩ := mode2Pixel_eq_done h
  have hordered : Zeroed { s with pixelOrder := order } := { hs with }
  have hu : Zeroed u :=
    .after_loop (fun _ _ _ _ hsym hz => hz.after_symbol (mode2Symbol_decodes hsym)) hsymbols hordered
  have hvalue : mode2Value ranking u = 0#4 := by
    rw [hu.mode2Value_eq, hfirst, mode2Pixels, hs.out0]
    rfl
  exact { hu with out0 := by rw [hvalue, hu.out0]; rfl }

/-! ### Units -/

/-- Only bytes 0x00 were appended to the ring. -/
def ZerosAppended (s t : State) : Prop :=
  ∃ bytes, ringContents t = ringContents s ++ bytes ∧ ∀ b ∈ bytes, b = 0#8

theorem Zeroed.ringGrown {s t : State} (hs : Zeroed s) (h : RingGrown s t) : Zeroed t := by
  rw [h]
  exact { hs with }

theorem Zeroed.after_mode0Unit {s t : State} (hs : Zeroed s) (hready : RingReady s) (h : mode0Unit s = .done () t) :
    Zeroed t ∧ ZerosAppended s t := by
  obtain ⟨i, u, hbits, hgrown, hcontents⟩ := mode0Unit_appends hready h
  have hu : Zeroed u := .after_loop (fun _ _ _ _ => .after_mode0Bit) hbits hs
  refine ⟨hu.ringGrown hgrown, _, hcontents, ?_⟩
  rw [hu.out]
  decide

theorem Zeroed.after_mode1Unit {s t : State} (hs : Zeroed s) (hready : RingReady s) (h : mode1Unit s = .done () t) :
    Zeroed t ∧ ZerosAppended s t := by
  obtain ⟨u, hpixels, hgrown, hcontents⟩ := mode1Unit_appends hready h
  have hu : Zeroed u := .after_loop (fun _ _ _ _ => .after_mode1Pixel) hpixels hs
  refine ⟨hu.ringGrown hgrown, _, hcontents, ?_⟩
  rw [hu.out]
  decide

/-- Two zeros join the zeros that wait. -/
theorem Zeroed.after_sideAppend {s t : State} (hs : Zeroed s) (h : sideAppend 0#8 0#8 s = .done () t) : Zeroed t := by
  obtain ⟨hroom, rfl⟩ := sideAppend_eq_done h
  refine { hs with waiting := fun j hj hlt => ?_ }
  have hindex : (s.sideIndex + 2#5).toNat = s.sideIndex.toNat + 2 := by bv_omega
  simp only [hindex] at hlt
  simp only [Vector.getElem_setIfInBounds]
  split_ifs with hlo hhi
  · rfl
  · rfl
  · exact hs.waiting j hj (by omega)

/-- A full side buffer holds sixteen zeros. -/
theorem Zeroed.after_sideFlush {s t : State} (hs : Zeroed s) (hready : RingReady s) (h : sideFlush s = .done () t) :
    Zeroed t ∧ ZerosAppended s t := by
  obtain ⟨-, rfl⟩ | ⟨hfull, u, hgrown, rfl, hcontents⟩ := sideFlush_cases hready h
  · exact ⟨hs, [], (List.append_nil _).symm, nofun⟩
  · have hu := hs.ringGrown hgrown
    refine ⟨{ hu with waiting := fun j _ hlt => absurd hlt (Nat.not_lt_zero j) }, _, hcontents, fun b hb => ?_⟩
    obtain ⟨j, hj, rfl⟩ := Vector.mem_iff_getElem.mp (Vector.mem_toList_iff.mp hb)
    exact hs.waiting j hj (by rw [hfull]; exact hj)

/-- All four planes of pixels 0 are 0. -/
theorem Zeroed.after_mode2Unit {s t : State} (hs : Zeroed s) (hready : RingReady s) (h : mode2Unit s = .done () t) :
    Zeroed t ∧ ZerosAppended s t := by
  obtain ⟨u, v, w, hpixels, hgrown, hreadyv, hcontents, hside, hflush⟩ := mode2Unit_appends hready h
  have hu : Zeroed u := .after_loop (fun _ _ _ _ => .after_mode2Pixel) hpixels hs
  have hplanes : morton4 u.out0 = 0#32 := by rw [hu.out0]; decide
  rw [hplanes] at hcontents hside
  have hw : Zeroed w := (hu.ringGrown hgrown).after_sideAppend hside
  obtain ⟨-, hwv⟩ := sideAppend_eq_done hside
  have hreadyw : RingReady w := by rw [hwv]; exact hreadyv.congr rfl rfl rfl rfl rfl
  have hsame : ringContents w = ringContents v := by rw [hwv]; rfl
  obtain ⟨ht, flushed, hcontents', hzeros⟩ := hw.after_sideFlush hreadyw hflush
  refine ⟨ht, [0#8, 0#8] ++ flushed, ?_, by simpa using hzeros⟩
  rw [hcontents', hsame, hcontents, List.append_assoc]
  rfl

theorem Zeroed.after_unit {s t : State} (hs : Zeroed s) (hready : RingReady s) (hactive : s.mode ≠ .invalid)
    (h : modeUnit s = .done () t) : Zeroed t ∧ ZerosAppended s t := by
  cases hm : s.mode <;> simp only [modeUnit, hm] at h
  case mode0 => exact hs.after_mode0Unit hready h
  case mode1 => exact hs.after_mode1Unit hready h
  case mode2 => exact hs.after_mode2Unit hready h
  case invalid => exact absurd hm hactive

/-! ### The stream -/

/-- The next unit of the stream, run on an emptied ring, leaves zeros in it. -/
theorem Zeroed.of_afterUnit {r : State} (hr : Running r) (hs : Zeroed r) :
    Zeroed (afterUnit r) ∧ ∀ b ∈ ringContents (afterUnit r), b = 0#8 := by
  have hcleared := hr.cleared
  have hs' : Zeroed (ringClear r) := { hs with }
  obtain ⟨hz, bytes, hcontents, hzeros⟩ :=
    hs'.after_unit ⟨hcleared.ring, hcleared.ringWf⟩ hcleared.active hr.unit_completes.1
  refine ⟨hz, fun b hb => hzeros b ?_⟩
  rwa [hcontents] at hb

theorem Zeroed.iterate {r : State} (hr : Running r) (hs : Zeroed r) (k : Nat) : Zeroed (afterUnit^[k] r) := by
  induction k with
  | zero => exact hs
  | succ k ih =>
    rw [Function.iterate_succ_apply']
    exact (ih.of_afterUnit (hr.iterate k)).1

theorem Zeroed.stream_bytes {r : State} (hr : Running r) (hs : Zeroed r) (k : Nat) :
    ∀ b ∈ streamOf r k, b = 0#8 := by
  induction k with
  | zero => exact nofun
  | succ k ih =>
    intro b hb
    rw [streamOf, Function.iterate_succ_apply'] at hb
    obtain hold | hnew := List.mem_append.mp hb
    · exact ih b hold
    · exact ((hs.iterate hr k).of_afterUnit (hr.iterate k)).2 b hnew

/-- What INIT of a valid mode leaves: priming takes two bytes, both 0x00 (47_commands.md R202, 41_arith_decoder.md
R118). -/
theorem Zeroed.of_startStream {m off : Word} {s t : State} (hparams : ParamsLegal s.cfg)
    (hsource : ∀ a, s.src.read a = 0#8) (hm : modeOfOperand m ≠ .invalid) (h : startStream m off s = .done () t) :
    Zeroed t := by
  have hU := sourceUsable_of_startStream hm h
  rw [startStream_of_valid hm, prime_done (by exact hU)] at h
  cases h
  exact {
    params := hparams
    source := hsource
    span_ge := (by decide : 0x7f ≤ (0xff#8).toNat)
    bits_pos := (by decide : 1 ≤ (8#4).toNat)
    bits_le := (by decide : (8#4).toNat ≤ 8)
    indices := (by decide : ∀ (j : Nat) (hj : j < 32), freshContexts[j].stateIndex.toNat ≤ 52)
    val := hsource _
    input := hsource _
    invert := (by decide : ∀ (j : Nat) (hj : j < 32), freshContexts[j].invert = false)
    lps := rfl
    inverts := rfl
    out := rfl
    out0 := rfl
    waiting := fun j _ hlt => absurd hlt (Nat.not_lt_zero j) }

/-- The operands below 3 select a decoder (30_encoding.md R83). -/
theorem modeOfOperand_ne_invalid {m : Word} (h : m.toNat < 3) : modeOfOperand m ≠ .invalid := by
  obtain rfl | rfl | rfl : m = 0#32 ∨ m = 1#32 ∨ m = 2#32 := by bv_omega
  all_goals decide

/-- Settles O30: the READs complete, and what they return begins a stream of zeros. -/
theorem zeroSourceGivesZeroOutput : Obligations.ZeroSourceGivesZeroOutput := by
  intro s t m off n hparams hmem hU hsource hlt hinit
  have hm := modeOfOperand_ne_invalid hlt
  have hstart := exec_init_eq_next_of_noSkip.mp hinit
  have hinv := startStream_inv hparams hmem hstart
  obtain ⟨hcfg, hmode, hempty, -⟩ := startStream_fields hstart hm
  have hactive : t.mode ≠ .invalid := hmode ▸ hm
  have hU' : SourceUsable t.cfg := hcfg ▸ hU
  have hrunning := hinv.running hactive hU'
  have hready : RingReady t := ⟨hinv.ring, hinv.memory.ring⟩
  have hself : InStep t t := ⟨.refl t, rfl, fun _ _ _ => rfl, hready, hready⟩
  obtain ⟨u, hreads⟩ := readMany_completes (n := n) hinv hU'
  obtain ⟨bytes, hlen, hobserved, hfollows⟩ := (follows_of_inStep hself hempty).after_reads hrunning hactive hreads
  obtain ⟨k, hprefix⟩ := hfollows.taken_isPrefix
  have hzeros : bytes = List.replicate n 0#8 := List.eq_replicate_iff.mpr
    ⟨hlen, fun b hb => (Zeroed.of_startStream hparams hsource hm hstart).stream_bytes hrunning k b (hprefix.subset hb)⟩
  exact ⟨u, hreads, by rw [hobserved, (startStream_hostSideKept hstart).observed, hzeros]⟩

end Sys2Proof.Machine
end

section
/-! PROOFS. The per-pixel order of mode 1: the equality class of the reference pixels, move-to-front by index, and the
ranking (44_mode1.md R152 to R154). -/

namespace Sys2Proof.Machine

/-! ### The equality class -/

/-- Settles O44: each case decides the comparisons `refcon` makes. -/
theorem refconByCases : Obligations.RefconByCases := by
  refine fun a b c => ⟨?_, ?_, ?_, ?_, ?_⟩
  · rintro rfl rfl
    simp [refcon]
  · rintro rfl hbc
    simp [refcon, hbc]
  · rintro hab rfl
    simp [refcon, hab]
  · rintro rfl hab
    simp [refcon, hab, hab.symm]
  · intro hab hbc hac
    simp [refcon, hab, hbc, hac]

/-! ### Move-to-front -/

/-- Move-to-front of a value the list holds completes, writes nothing and answers this permutation of the list
(44_mode1.md R153). -/
theorem moveToFront_of_mem {n : Nat} {o : Vector (BitVec 4) n} {v : BitVec 4} (hv : v ∈ o.toList) (s : State) :
    ∃ r, moveToFront o v s = .done r s ∧ r.toList.Perm o.toList ∧ r.toList = v :: o.toList.erase v := by
  obtain ⟨r, hr⟩ := Option.isSome_iff_exists.mp ((mtf_isSome o v).mpr hv)
  exact ⟨r, by rw [moveToFront, hr], mtf_perm hr, (mtf_toList hr).2⟩

/-- Move-to-front of a value the list does not hold raises `OrderMissing` (44_mode1.md R153). -/
theorem moveToFront_of_not_mem {n : Nat} {o : Vector (BitVec 4) n} {v : BitVec 4} (hv : v ∉ o.toList) (s : State) :
    moveToFront o v s = raise .orderMissing s := by
  have hnone : mtf o v = none := Option.not_isSome_iff_eq_none.mp (mt (mtf_isSome o v).mp hv)
  rw [moveToFront, hnone]

/-- Erasing a value takes out its least index. -/
theorem erase_eq_eraseIdx_of_least {l : List (BitVec 4)} {v : BitVec 4} {m : Nat} (hm : m < l.length) (hv : l[m] = v)
    (hleast : ∀ (j : Nat) (hj : j < m), l[j] ≠ v) : l.erase v = l.eraseIdx m :=
  List.erase_eq_eraseIdx_of_idxOf <|
    (List.findIdx_eq hm).mpr ⟨beq_iff_eq.mpr hv, fun j hj => beq_eq_false_iff_ne.mpr (hleast j hj)⟩

/-- A list with the entry of index `m` moved to the front, index by index. -/
theorem getElem_cons_eraseIdx {l : List (BitVec 4)} {v : BitVec 4} {m k : Nat}
    (hk : k < (v :: l.eraseIdx m).length) (hkl : k < l.length) :
    (v :: l.eraseIdx m)[k] = if k = 0 then v else if k ≤ m then l[k - 1] else l[k] := by
  rcases k with _ | k
  · rfl
  · rw [List.getElem_cons_succ, List.getElem_eraseIdx]
    by_cases hkm : k < m <;> simp [hkm]

/-- Settles O45: the value's least index is the one erased, and the value stands before what is left. -/
theorem moveToFrontByIndex : Obligations.MoveToFrontByIndex := by
  refine fun n order v s => ⟨fun m hm hv hleast => ?_, fun habsent => ?_⟩
  · have hmem : v ∈ order.toList := Vector.mem_toList_iff.mpr (Vector.mem_iff_getElem.mpr ⟨m, hm, hv⟩)
    obtain ⟨r, hdone, hperm, hr⟩ := moveToFront_of_mem hmem s
    have herase : order.toList.erase v = order.toList.eraseIdx m :=
      erase_eq_eraseIdx_of_least (by simpa using hm) (by simpa using hv) (by simpa using hleast)
    refine ⟨r, hdone, hperm, fun k hk => ?_⟩
    have hlist : r.toList = v :: order.toList.eraseIdx m := by rw [hr, herase]
    have hklist : k < (v :: order.toList.eraseIdx m).length := by rw [← hlist]; simpa using hk
    calc r[k] = r.toList[k]'(by simpa using hk) := (Vector.getElem_toList _).symm
      _ = (v :: order.toList.eraseIdx m)[k] := by simp only [hlist]
      _ = if k = 0 then v else if k ≤ m then order[k - 1] else order[k] := by
        rw [getElem_cons_eraseIdx hklist (by simpa using hk)]
        simp only [Vector.getElem_toList]
  · have hmem : v ∉ order.toList := fun h =>
      let ⟨m, hm, hv⟩ := Vector.mem_iff_getElem.mp (Vector.mem_toList_iff.mp h)
      habsent m hm hv
    exact moveToFront_of_not_mem hmem s

/-! ### The ranking -/

/-- The ranking on lists: three moves to the front, the last one outermost (44_mode1.md R154). -/
theorem realOrder_of_mem {n : Nat} {o : Vector (BitVec 4) n} {a b c : BitVec 4} (ha : a ∈ o.toList)
    (hb : b ∈ o.toList) (hc : c ∈ o.toList) (s : State) :
    ∃ q, realOrder o ⟨a, b, c⟩ s = .done q s ∧ q.toList.Perm o.toList ∧
      q.toList = a :: (b :: (c :: o.toList.erase c).erase b).erase a := by
  obtain ⟨o1, h1, p1, l1⟩ := moveToFront_of_mem hc s
  obtain ⟨o2, h2, p2, l2⟩ := moveToFront_of_mem (p1.mem_iff.mpr hb) s
  obtain ⟨q, h3, p3, l3⟩ := moveToFront_of_mem (p2.mem_iff.mpr (p1.mem_iff.mpr ha)) s
  exact ⟨q, by simp only [realOrder, h1, h2, h3, Res.bind_done], p3.trans (p2.trans p1), by rw [l3, l2, l1]⟩

theorem nodup_cons_erase {l : List (BitVec 4)} (hl : l.Nodup) (v : BitVec 4) : (v :: l.erase v).Nodup :=
  List.nodup_cons.mpr ⟨hl.not_mem_erase, hl.erase v⟩

theorem erase_eq_filter_ne {l : List (BitVec 4)} (hl : l.Nodup) (v : BitVec 4) :
    l.erase v = l.filter fun x => decide (x ≠ v) := by
  rw [hl.erase_eq_filter]
  exact List.filter_congr fun x _ => by simp [bne, beq_eq_decide]

/-- On a list without repeats, the moves leave each of the three values once in front of the others. -/
theorem threeMoves_eq {l : List (BitVec 4)} (hl : l.Nodup) (a b c : BitVec 4) :
    a :: (b :: (c :: l.erase c).erase b).erase a =
      [a] ++ (if b = a then [] else [b]) ++ (if c = a ∨ c = b then [] else [c]) ++
        l.filter (fun x => decide (x ≠ a) && decide (x ≠ b) && decide (x ≠ c)) := by
  have hc : (c :: l.erase c).Nodup := nodup_cons_erase hl c
  have hb : (b :: (c :: l.erase c).erase b).Nodup := nodup_cons_erase hc b
  rw [erase_eq_filter_ne hb, erase_eq_filter_ne hc, erase_eq_filter_ne hl]
  rcases eq_or_ne b a with rfl | hba
  · rcases eq_or_ne c b with rfl | hcb
    · simp
    · simp [hcb]
  · rcases eq_or_ne c a with rfl | hca
    · simp [hba, hba.symm, Bool.and_assoc]
    · rcases eq_or_ne c b with rfl | hcb
      · simp [hca]
      · simp [hba, hca, hcb, Bool.and_assoc]

/-- Settles O46: the three moves, on the list of the order. -/
theorem rankingStartsWithReferences : Obligations.RankingStartsWithReferences := by
  intro n order a b c s hnodup ha hb hc
  obtain ⟨q, hdone, hperm, hq⟩ := realOrder_of_mem ha hb hc s
  exact ⟨q, hdone, hperm, hq.trans (threeMoves_eq hnodup a b c)⟩

end Sys2Proof.Machine
end

section
/-! PROOFS. One mode 1 pixel: how its symbols enter the histories, the context and the index they select, and the pixel
itself (44_mode1.md R151, R155 to R157, 45_mode2.md R178). -/

namespace Sys2Proof.Machine

/-! ### The combined history -/

/-- A shift register is the register and its new bit, cut to 32 bits (10_state.md R27). -/
theorem shiftIn_eq_concat (h : Word) (b : Bool) : shiftIn h b = (h.concat b).setWidth 32 := by
  apply BitVec.eq_of_toNat_eq
  rw [shiftIn_toNat, BitVec.toNat_setWidth, BitVec.toNat_concat, Nat.mul_comm]

/-- A recorded symbol shifts its bit into the combined history. -/
theorem historyXor_recordSymbol (sym : Symbol) (s : State) :
    historyXor (recordSymbol sym s) = shiftIn (historyXor s) (sym.flag ^^ sym.invertUsed) := by
  simp only [historyXor, recordSymbol_lpsHistory, recordSymbol_invertHistory, shiftIn_eq_concat,
    ← BitVec.setWidth_xor, BitVec.concat_xor_concat]

theorem historyXor_recordSymbol_toNat (sym : Symbol) (s : State) :
    (historyXor (recordSymbol sym s)).toNat =
      (2 * (historyXor s).toNat + (sym.flag ^^ sym.invertUsed).toNat) % 2 ^ 32 := by
  rw [historyXor_recordSymbol, shiftIn_toNat]

/-- A decode leaves the combined history. -/
theorem historyXor_of_decode {con : Nat} {sym : Symbol} {s t : State} (h : decodeSymbol con s = .done sym t) :
    historyXor t = historyXor s := by
  rw [(decodeSymbol_frame h).1]
  rfl

/-- Settles O50: each record doubles what the history holds, below the width. -/
theorem pixelIndexFromHistories : Obligations.PixelIndexFromHistories := by
  intro y1 y2 y3 y4 s
  have h1 := Bool.toNat_le (y1.flag ^^ y1.invertUsed)
  have h2 := Bool.toNat_le (y2.flag ^^ y2.invertUsed)
  have h3 := Bool.toNat_le (y3.flag ^^ y3.invertUsed)
  have h4 := Bool.toNat_le (y4.flag ^^ y4.invertUsed)
  simp only [historyXor_recordSymbol_toNat]
  omega

/-! ### The second context -/

/-- The next context holds the recorded symbol's bit (44_mode1.md R155). -/
theorem mode1NextContext_recordSymbol (con : Nat) (sym : Symbol) (s : State) :
    mode1NextContext con (recordSymbol sym s) = 5 + 2 * con + (sym.flag ^^ sym.invertUsed).toNat := by
  have hbit := Bool.toNat_le (sym.flag ^^ sym.invertUsed)
  have hnewest : (historyXor (recordSymbol sym s) &&& 1#32).toNat = (sym.flag ^^ sym.invertUsed).toNat := by
    rw [BitVec.toNat_and, historyXor_recordSymbol_toNat, BitVec.toNat_one (by decide), Nat.and_one_is_mod]
    omega
  rw [mode1NextContext, hnewest]

/-- Settles O47: a bit is at most 1. -/
theorem modeOneSecondContext : Obligations.ModeOneSecondContext := by
  refine ⟨refcon_le, fun con sym s => ⟨mode1NextContext_recordSymbol con sym s, fun hcon => ?_⟩⟩
  have hbit := Bool.toNat_le (sym.flag ^^ sym.invertUsed)
  rw [mode1NextContext_recordSymbol]
  omega

/-! ### One pixel -/

/-- A mode 1 symbol that completes is one decode against its context, recorded; it answers the next context. -/
theorem mode1Symbol_eq_done {con next : Nat} {s t : State} (h : mode1Symbol con s = .done next t) :
    ∃ sym u, decodeSymbol con s = .done sym u ∧ next = 5 + 2 * con + (sym.flag ^^ sym.invertUsed).toNat ∧
      t = recordSymbol sym u := by
  obtain ⟨sym, u, hdecode, hdone⟩ := Res.bind_eq_done.mp h
  cases hdone
  exact ⟨sym, u, hdecode, mode1NextContext_recordSymbol con sym u, rfl⟩

/-- Decoding and recording a symbol leaves mode 1's accumulator. -/
theorem SymbolDecoded.out_eq {s t : State} (h : SymbolDecoded s t) : t.out = s.out := by
  obtain ⟨con, sym, u, hdecode, rfl⟩ := h
  rw [recordSymbol_out, (decodeSymbol_frame hdecode).1]

/-- The value two recorded symbols select is the ranking's entry at the index their bits spell (44_mode1.md R157). -/
theorem mode1Value_recordSymbol (ranking : Vector (BitVec 4) 4) {y1 y2 : Symbol} {s u : State}
    (hhistory : historyXor u = historyXor (recordSymbol y1 s)) :
    ranking[2 * (y1.flag ^^ y1.invertUsed).toNat + (y2.flag ^^ y2.invertUsed).toNat]? =
      some (mode1Value ranking (recordSymbol y2 u)) := by
  have hindex : ((historyXor (recordSymbol y2 u)).extractLsb' 0 2).toNat =
      2 * (y1.flag ^^ y1.invertUsed).toNat + (y2.flag ^^ y2.invertUsed).toNat := by
    have hbit1 := Bool.toNat_le (y1.flag ^^ y1.invertUsed)
    have hbit2 := Bool.toNat_le (y2.flag ^^ y2.invertUsed)
    rw [BitVec.extractLsb'_toNat, historyXor_recordSymbol_toNat, hhistory, historyXor_recordSymbol_toNat]
    omega
  rw [← hindex]
  exact Vector.getElem?_eq_getElem _

/-- The accumulator with a pixel shifted in, on numbers (44_mode1.md R157). -/
theorem shiftInPixel_toNat (out : Word) (p : BitVec 4) :
    (out * 4#32 + p.setWidth 32).toNat = (4 * out.toNat + p.toNat) % 2 ^ 32 := by
  have hp : (p.setWidth 32).toNat = p.toNat := BitVec.toNat_setWidth_of_le (by decide)
  rw [BitVec.toNat_add, BitVec.toNat_mul, hp]
  simp [Nat.mul_comm]

/-- Settles O48: the pixel's operations in order, none of which but the last writes `out`. -/
theorem modeOnePixel : Obligations.ModeOnePixel := by
  intro s t h
  obtain ⟨order, s0, hfront, hrest⟩ := Res.bind_eq_done.mp h
  obtain ⟨ranking, s1, hrank, hrest⟩ := Res.bind_eq_done.mp hrest
  obtain ⟨con3, u, hsymbols, hdone⟩ := Res.bind_eq_done.mp hrest
  obtain ⟨con2, v1, hfirst, hsymbols⟩ := Res.bind_eq_done.mp hsymbols
  obtain ⟨con3, v2, hsecond, hnone⟩ := Res.bind_eq_done.mp hsymbols
  obtain ⟨rfl, -⟩ := moveToFront_frame hfront
  cases realOrder_frame hrank
  cases hnone
  cases hdone
  have hout := (mode1Symbol_decodes hsecond).out_eq.trans (mode1Symbol_decodes hfirst).out_eq
  obtain ⟨y1, u1, hdecode1, rfl, rfl⟩ := mode1Symbol_eq_done hfirst
  obtain ⟨y2, u2, hdecode2, rfl, rfl⟩ := mode1Symbol_eq_done hsecond
  refine ⟨order, ranking, y1, y2, u1, u2, mode1Value ranking (recordSymbol y2 u2), hfront, hrank, hdecode1, hdecode2,
    mode1Value_recordSymbol ranking (historyXor_of_decode hdecode2), ?_, rfl⟩
  rw [← hout]
  exact shiftInPixel_toNat _ _

end Sys2Proof.Machine
end

section
/-! PROOFS. One mode 2 pixel: the context tree its symbols descend, the index they select, and the pixel itself
(45_mode2.md R171 to R178). -/

namespace Sys2Proof.Machine

/-! ### The context tree -/

/-- The transition with its test on the context instead of the context's number (45_mode2.md R176). -/
theorem mode2NextContext_eq (cfg : Config) (con : Fin 32) (bit : Bool) (rc : Nat) :
    mode2NextContext cfg con bit rc =
      (if bit then cfg.mode2ContextTable[con].2 else cfg.mode2ContextTable[con].1) + (if con = 1 then rc else 0) := by
  have hroot : con.val = 1 ↔ con = 1 := (Fin.ext_iff (b := (1 : Fin 32))).symm
  simp only [mode2NextContext, hroot]

/-- Settles O51: the tree's rows are the table's, level by level, and `refcon` enters the row of context 1 alone. -/
theorem modeTwoContextTree : Obligations.ModeTwoContextTree := by
  intro rc _
  refine ⟨rfl, rfl, rfl, rfl, rfl, rfl, fun j hj => ?_, fun j hj => ?_, rfl, rfl, rfl, rfl, fun j hj bit => ?_⟩
  · interval_cases j <;> exact ⟨rfl, rfl⟩
  · interval_cases j <;> exact ⟨rfl, rfl⟩
  · interval_cases j <;> cases bit <;> rfl

/-! ### One symbol -/

/-- A mode 2 symbol that completes is one decode against its context, which is in range, recorded; it answers the next
context. -/
theorem mode2Symbol_eq_done {rc con next : Nat} {s t : State} (h : mode2Symbol rc con s = .done next t) :
    ∃ (hc : con < 32) (sym : Symbol) (u : State), decodeSymbol con s = .done sym u ∧
      next = mode2NextContext s.cfg ⟨con, hc⟩ (sym.flag ^^ sym.invertUsed) rc ∧ t = recordSymbol sym u := by
  unfold mode2Symbol at h
  split at h
  · rename_i hc
    obtain ⟨sym, u, hdecode, hdone⟩ := Res.bind_eq_done.mp h
    cases hdone
    have hcfg : u.cfg = s.cfg := by rw [(decodeSymbol_frame hdecode).1]
    exact ⟨hc, sym, u, hdecode, by rw [hcfg], rfl⟩
  · cases h

/-- Decoding and recording a symbol leaves the parameters. -/
theorem SymbolDecoded.cfg_eq {s t : State} (h : SymbolDecoded s t) : t.cfg = s.cfg := by
  obtain ⟨con, sym, u, hdecode, rfl⟩ := h
  rw [recordSymbol_cfg, (decodeSymbol_frame hdecode).1]

/-- Decoding and recording a symbol leaves mode 2's accumulators. -/
theorem SymbolDecoded.out01_eq {s t : State} (h : SymbolDecoded s t) : t.out0 = s.out0 ∧ t.out1 = s.out1 := by
  obtain ⟨con, sym, u, hdecode, rfl⟩ := h
  rw [recordSymbol_out0, recordSymbol_out1, (decodeSymbol_frame hdecode).1]
  exact ⟨rfl, rfl⟩

theorem mode2Symbols_out01_eq {rc n con con' : Nat} {s t : State}
    (h : loop (mode2Symbol rc) n con s = .done con' t) : t.out0 = s.out0 ∧ t.out1 = s.out1 :=
  loop_rel (R := fun s t => t.out0 = s.out0 ∧ t.out1 = s.out1) (fun _ => ⟨rfl, rfl⟩)
    (fun _ _ _ h1 h2 => ⟨h2.1.trans h1.1, h2.2.trans h1.2⟩)
    (fun _ _ _ _ hsym => (mode2Symbol_decodes hsym).out01_eq) n h

/-! ### One pixel -/

/-- The value four recorded symbols select is the ranking's entry at the index their bits spell: the decodes between the
records leave the combined history (45_mode2.md R178). -/
theorem mode2Value_recordSymbol (ranking : Vector (BitVec 4) 16) {y1 y2 y3 y4 : Symbol} {u1 u2 u3 u4 : State}
    (h2 : historyXor u2 = historyXor (recordSymbol y1 u1)) (h3 : historyXor u3 = historyXor (recordSymbol y2 u2))
    (h4 : historyXor u4 = historyXor (recordSymbol y3 u3)) :
    ranking[8 * (y1.flag ^^ y1.invertUsed).toNat + 4 * (y2.flag ^^ y2.invertUsed).toNat +
        2 * (y3.flag ^^ y3.invertUsed).toNat + (y4.flag ^^ y4.invertUsed).toNat]? =
      some (mode2Value ranking (recordSymbol y4 u4)) := by
  have hchain : historyXor (recordSymbol y4 u4) =
      historyXor (recordSymbol y4 (recordSymbol y3 (recordSymbol y2 (recordSymbol y1 u1)))) := by
    simp only [historyXor_recordSymbol, h2, h3, h4]
  rw [← (pixelIndexFromHistories y1 y2 y3 y4 u1).2, ← hchain]
  have hindex : ((historyXor (recordSymbol y4 u4)).extractLsb' 0 4).toNat =
      (historyXor (recordSymbol y4 u4)).toNat % 16 := BitVec.extractLsb'_toNat ..
  rw [← hindex]
  exact Vector.getElem?_eq_getElem _

/-- An accumulator of mode 2 with a nibble shifted in, on numbers (45_mode2.md R178). -/
theorem shiftInNibble_toNat (out : Word) (p : BitVec 4) :
    (out * 16#32 + p.setWidth 32).toNat = (16 * out.toNat + p.toNat) % 2 ^ 32 := by
  have hp : (p.setWidth 32).toNat = p.toNat := BitVec.toNat_setWidth_of_le (by decide)
  rw [BitVec.toNat_add, BitVec.toNat_mul, hp]
  simp [Nat.mul_comm]

/-- The nibble that leaves an accumulator, on numbers. -/
theorem topNibble_toNat (out : Word) : (out.extractLsb' 28 4).toNat = out.toNat / 2 ^ 28 := by
  rw [BitVec.extractLsb'_toNat, Nat.shiftRight_eq_div_pow]
  omega

/-- Settles O49: the pixel's operations in order, none of which but the last writes `out0` or `out1`, and none the
table. -/
theorem modeTwoPixel : Obligations.ModeTwoPixel := by
  intro s t h
  obtain ⟨order, s0, hfront, hrest⟩ := Res.bind_eq_done.mp h
  obtain ⟨ranking, s1, hrank, hrest⟩ := Res.bind_eq_done.mp hrest
  obtain ⟨con5, u, hsymbols, hdone⟩ := Res.bind_eq_done.mp hrest
  obtain ⟨hout0, hout1⟩ := mode2Symbols_out01_eq hsymbols
  obtain ⟨con2, v1, hfirst, hsymbols⟩ := Res.bind_eq_done.mp hsymbols
  obtain ⟨con3, v2, hsecond, hsymbols⟩ := Res.bind_eq_done.mp hsymbols
  obtain ⟨con4, v3, hthird, hsymbols⟩ := Res.bind_eq_done.mp hsymbols
  obtain ⟨con5, v4, hfourth, hnone⟩ := Res.bind_eq_done.mp hsymbols
  obtain ⟨rfl, -⟩ := moveToFront_frame hfront
  cases realOrder_frame hrank
  cases hnone
  cases hdone
  have hcfg1 := (mode2Symbol_decodes hfirst).cfg_eq
  have hcfg2 := (mode2Symbol_decodes hsecond).cfg_eq.trans hcfg1
  obtain ⟨_, y1, u1, hdecode1, hnext1, rfl⟩ := mode2Symbol_eq_done hfirst
  obtain ⟨hc2, y2, u2, hdecode2, hnext2, rfl⟩ := mode2Symbol_eq_done hsecond
  obtain ⟨hc3, y3, u3, hdecode3, hnext3, rfl⟩ := mode2Symbol_eq_done hthird
  obtain ⟨hc4, y4, u4, hdecode4, -, rfl⟩ := mode2Symbol_eq_done hfourth
  rw [mode2NextContext_eq] at hnext1 hnext2 hnext3
  rw [hcfg1] at hnext2
  rw [hcfg2] at hnext3
  refine ⟨order, ranking, y1, y2, y3, y4, u1, u2, u3, u4, ⟨con2, hc2⟩, ⟨con3, hc3⟩, ⟨con4, hc4⟩,
    mode2Value ranking (recordSymbol y4 u4), hfront, hrank, hdecode1, hnext1, hdecode2, hnext2, hdecode3, hnext3,
    hdecode4, mode2Value_recordSymbol ranking (historyXor_of_decode hdecode2) (historyXor_of_decode hdecode3)
      (historyXor_of_decode hdecode4), ?_, ?_, rfl⟩
  · rw [← hout0]
    exact shiftInNibble_toNat _ _
  · rw [← hout0, ← hout1, ← topNibble_toNat]
    exact shiftInNibble_toNat _ _

end Sys2Proof.Machine
end

section
/-! PROOFS. The Morton tables bit by bit, the two de-interleaves in closed form and their round trip (46_morton.md R190
to R194). Both tables put bit k of an index byte at a destination of its own, so their sums carry nothing. -/

namespace Sys2Proof.Machine

/-! ### Sums of words that share no bit -/

/-- Words that share no bit are added without a carry. -/
theorem getLsbD_add_of_and_eq_zero {w : Nat} {x y : BitVec w} (h : x &&& y = 0#w) (p : Nat) :
    (x + y).getLsbD p = (x.getLsbD p || y.getLsbD p) := by
  rw [BitVec.add_eq_or_of_and_eq_zero x y h, BitVec.getLsbD_or]

/-- A word that shares no bit with two disjoint words shares none with their sum. -/
theorem add_and_eq_zero {w : Nat} {x y z : BitVec w} (hxy : x &&& y = 0#w) (hxz : x &&& z = 0#w) (hyz : y &&& z = 0#w) :
    (x + y) &&& z = 0#w := by
  rw [BitVec.add_eq_or_of_and_eq_zero x y hxy, BitVec.and_comm, BitVec.and_or_distrib_left, BitVec.and_comm z x,
    BitVec.and_comm z y, hxz, hyz, BitVec.or_zero]

/-- Two words with no common set bit have no common part. -/
theorem and_eq_zero_of_getLsbD {w : Nat} {x y : BitVec w}
    (h : ∀ p < w, x.getLsbD p = true → y.getLsbD p = true → False) : x &&& y = 0#w := by
  refine BitVec.eq_of_getLsbD_eq fun p hp => ?_
  simpa using h p hp

/-- Words are equal when they agree at bit `8j + k` for every plane `j` and every bit `k` of a plane. -/
theorem eq_of_getLsbD_planes {w n : Nat} {x y : BitVec w} (hw : w ≤ 8 * n)
    (h : ∀ j < n, ∀ k < 8, x.getLsbD (8 * j + k) = y.getLsbD (8 * j + k)) : x = y := by
  refine BitVec.eq_of_getLsbD_eq fun p hp => ?_
  have hbit := h (p / 8) (by omega) (p % 8) (by omega)
  rwa [Nat.div_add_mod] at hbit

/-! ### Bits placed one by one -/

/-- The sum of the first `n` bits of `i`, bit `k` placed at bit `dest k`: the common form of the tables `m2` and `m4`. -/
def placeBits (w : Nat) (dest : Nat → Nat) (i : BitVec 8) (n : Nat) : BitVec w :=
  (List.range n).foldl (fun acc k => acc + ((BitVec.ofBool (i.getLsbD k)).setWidth w <<< dest k)) 0#w

theorem m2_eq_placeBits (h : Nat) (i : BitVec 8) :
    m2 h i = placeBits 16 (fun k => 8 * (k % 2) + 4 * h + k / 2) i 8 := rfl

theorem m4_eq_placeBits (h : Nat) (i : BitVec 8) :
    m4 h i = placeBits 32 (fun k => 8 * (k % 4) + 2 * h + k / 4) i 8 := rfl

theorem placeBits_succ (w : Nat) (dest : Nat → Nat) (i : BitVec 8) (n : Nat) :
    placeBits w dest i (n + 1) =
      placeBits w dest i n + ((BitVec.ofBool (i.getLsbD n)).setWidth w <<< dest n) := by
  simp [placeBits, List.range_succ]

/-- One placed bit is set at its destination alone. -/
theorem getLsbD_ofBool_shiftLeft {w p : Nat} (hp : p < w) (b : Bool) (d : Nat) :
    ((BitVec.ofBool b).setWidth w <<< d).getLsbD p = true ↔ d = p ∧ b = true := by
  have hdest : d ≤ p ∧ p - d = 0 ↔ d = p := by omega
  simp only [BitVec.getLsbD_shiftLeft, BitVec.getLsbD_setWidth, BitVec.getLsbD_ofBool, ← hdest]
  simp [hp, show p - d < w by omega, and_assoc]

/-- When no two bits go to the same place, the set bits of the sum are the places of the set bits. -/
theorem getLsbD_placeBits {w : Nat} {dest : Nat → Nat} (i : BitVec 8) {n : Nat}
    (hinj : ∀ a < n, ∀ b < n, dest a = dest b → a = b) :
    ∀ p < w, (placeBits w dest i n).getLsbD p = true ↔ ∃ k < n, dest k = p ∧ i.getLsbD k = true := by
  induction n with
  | zero => simp [placeBits]
  | succ n ih =>
    intro p hp
    have hbits := ih fun a ha b hb => hinj a (by omega) b (by omega)
    have hdisjoint : placeBits w dest i n &&& ((BitVec.ofBool (i.getLsbD n)).setWidth w <<< dest n) = 0#w := by
      refine and_eq_zero_of_getLsbD fun q hq hold hnew => ?_
      obtain ⟨k, hk, hkq, -⟩ := (hbits q hq).mp hold
      have hnq := ((getLsbD_ofBool_shiftLeft hq _ _).mp hnew).1
      have := hinj k (by omega) n (by omega) (hkq.trans hnq.symm)
      omega
    rw [placeBits_succ, getLsbD_add_of_and_eq_zero hdisjoint, Bool.or_eq_true, hbits p hp,
      getLsbD_ofBool_shiftLeft hp, Nat.exists_lt_succ_right]

/-- A bit of the sum to which only bit `source` can be sent, and only when `c` holds. -/
theorem getLsbD_placeBits_eq_and {w : Nat} {dest : Nat → Nat} {i : BitVec 8} {n p source : Nat}
    {c : Prop} [Decidable c]
    (hinj : ∀ a < n, ∀ b < n, dest a = dest b → a = b) (hp : p < w) (hn : source < n)
    (hsource : ∀ a < n, dest a = p ↔ c ∧ a = source) :
    (placeBits w dest i n).getLsbD p = (decide c && i.getLsbD source) := by
  rw [Bool.eq_iff_iff, getLsbD_placeBits i hinj p hp, Bool.and_eq_true, decide_eq_true_iff]
  constructor
  · rintro ⟨a, ha, hdest, hset⟩
    obtain ⟨hc, rfl⟩ := (hsource a ha).mp hdest
    exact ⟨hc, hset⟩
  · rintro ⟨hc, hset⟩
    exact ⟨source, hn, (hsource source hn).mpr ⟨hc, rfl⟩, hset⟩

/-! ### The two tables -/

/-- Bit `8j + k` of `M2[h][i]`: table `h` fills bits `4h` to `4h + 3` of each plane (46_morton.md R190). -/
theorem getLsbD_m2 {h j k : Nat} (i : BitVec 8) (hh : h < 2) (hj : j < 2) (hk : k < 8) :
    (m2 h i).getLsbD (8 * j + k) = (decide (k / 4 = h) && i.getLsbD (2 * (k % 4) + j)) := by
  rw [m2_eq_placeBits]
  refine getLsbD_placeBits_eq_and (by omega) (by omega) (by omega) fun a ha => ⟨fun hdest => ?_, by omega⟩
  have hplane : a % 2 = j := by omega
  omega

/-- Bit `8j + k` of `M4[h][i]`: table `h` fills bits `2h` and `2h + 1` of each plane (46_morton.md R191). -/
theorem getLsbD_m4 {h j k : Nat} (i : BitVec 8) (hh : h < 4) (hj : j < 4) (hk : k < 8) :
    (m4 h i).getLsbD (8 * j + k) = (decide (k / 2 = h) && i.getLsbD (4 * (k % 2) + j)) := by
  rw [m4_eq_placeBits]
  refine getLsbD_placeBits_eq_and (by omega) (by omega) (by omega) fun a ha => ⟨fun hdest => ?_, by omega⟩
  have hplane : a % 4 = j := by omega
  omega

/-- Two different tables of `M2` fill different bits. -/
theorem m2_and_m2 {g h : Nat} (hgh : g < h) (hh : h < 2) (a b : BitVec 8) : m2 g a &&& m2 h b = 0#16 := by
  refine eq_of_getLsbD_planes (n := 2) (by omega) fun j hj k hk => ?_
  simp only [BitVec.getLsbD_and, getLsbD_m2 a (hgh.trans hh) hj hk, getLsbD_m2 b hh hj hk]
  have hdistinct : ¬ (k / 4 = g ∧ k / 4 = h) := by omega
  grind

/-- Two different tables of `M4` fill different bits. -/
theorem m4_and_m4 {g h : Nat} (hgh : g < h) (hh : h < 4) (a b : BitVec 8) : m4 g a &&& m4 h b = 0#32 := by
  refine eq_of_getLsbD_planes (n := 4) (by omega) fun j hj k hk => ?_
  simp only [BitVec.getLsbD_and, getLsbD_m4 a (hgh.trans hh) hj hk, getLsbD_m4 b hh hj hk]
  have hdistinct : ¬ (k / 2 = g ∧ k / 2 = h) := by omega
  grind

/-- The four tables are added without a carry. -/
theorem getLsbD_m4_sum (a b c d : BitVec 8) (p : Nat) :
    (m4 0 a + m4 1 b + m4 2 c + m4 3 d).getLsbD p =
      ((m4 0 a).getLsbD p || (m4 1 b).getLsbD p || (m4 2 c).getLsbD p || (m4 3 d).getLsbD p) := by
  have h01 : m4 0 a &&& m4 1 b = 0#32 := m4_and_m4 (by decide) (by decide) a b
  have h012 : (m4 0 a + m4 1 b) &&& m4 2 c = 0#32 :=
    add_and_eq_zero h01 (m4_and_m4 (by decide) (by decide) a c) (m4_and_m4 (by decide) (by decide) b c)
  have h013 : (m4 0 a + m4 1 b) &&& m4 3 d = 0#32 :=
    add_and_eq_zero h01 (m4_and_m4 (by decide) (by decide) a d) (m4_and_m4 (by decide) (by decide) b d)
  have h0123 : (m4 0 a + m4 1 b + m4 2 c) &&& m4 3 d = 0#32 :=
    add_and_eq_zero h012 h013 (m4_and_m4 (by decide) (by decide) c d)
  rw [getLsbD_add_of_and_eq_zero h0123, getLsbD_add_of_and_eq_zero h012, getLsbD_add_of_and_eq_zero h01]

/-! ### The closed forms -/

/-- `Morton2` in closed form: of the two tables' bits `8j + k`, the one of table `k / 4` is the word's bit `2k + j`. -/
theorem getLsbD_morton2 (x : BitVec 16) {j k : Nat} (hj : j < 2) (hk : k < 8) :
    (morton2 x).getLsbD (8 * j + k) = x.getLsbD (2 * k + j) := by
  rw [morton2, getLsbD_add_of_and_eq_zero (m2_and_m2 (by omega) (by omega) _ _),
    getLsbD_m2 _ (by omega) hj hk, getLsbD_m2 _ (by omega) hj hk]
  have hbit : 2 * (k % 4) + j < 8 := by omega
  have hsource : 2 * k + j = 8 * (k / 4) + (2 * (k % 4) + j) := by omega
  rw [hsource]
  obtain htable | htable : k / 4 = 0 ∨ k / 4 = 1 := by omega
  all_goals simp [htable, hbit]

/-- `Morton4` in closed form: of the four tables' bits `8j + k`, the one of table `k / 2` is the word's bit `4k + j`. -/
theorem getLsbD_morton4 (x : BitVec 32) {j k : Nat} (hj : j < 4) (hk : k < 8) :
    (morton4 x).getLsbD (8 * j + k) = x.getLsbD (4 * k + j) := by
  rw [morton4, getLsbD_m4_sum, getLsbD_m4 _ (by omega) hj hk,
    getLsbD_m4 _ (by omega) hj hk, getLsbD_m4 _ (by omega) hj hk, getLsbD_m4 _ (by omega) hj hk]
  have hbit : 4 * (k % 2) + j < 8 := by omega
  have hsource : 4 * k + j = 8 * (k / 2) + (4 * (k % 2) + j) := by omega
  rw [hsource]
  obtain htable | htable | htable | htable : k / 2 = 0 ∨ k / 2 = 1 ∨ k / 2 = 2 ∨ k / 2 = 3 := by omega
  all_goals simp [htable, hbit]

/-- Settles O52: the bits of the two tables, then the closed form, then the rule's values by evaluation. -/
theorem mortonTwoClosedForm : Obligations.MortonTwoClosedForm :=
  ⟨fun _ => rfl, m2_and_m2 (by omega) (by omega), fun x _ _ => getLsbD_morton2 x, by decide⟩

/-- Settles O53: the bits of the four tables, then the closed form, then the rule's values by evaluation. -/
theorem mortonFourClosedForm : Obligations.MortonFourClosedForm :=
  ⟨fun _ => rfl, fun _ _ a b hgh hh => m4_and_m4 hgh hh a b, fun x _ _ => getLsbD_morton4 x, by decide⟩

/-! ### The round trip -/

/-- The last byte appended is plane 0. -/
theorem getLsbD_append_plane_zero {w k : Nat} (p : BitVec w) (p0 : BitVec 8) (hk : k < 8) :
    (p ++ p0).getLsbD k = p0.getLsbD k := by
  simp [BitVec.getLsbD_append, hk]

/-- A byte appended moves the planes before it up by one. -/
theorem getLsbD_append_plane_succ {w : Nat} (p : BitVec w) (p0 : BitVec 8) (j k : Nat) :
    (p ++ p0).getLsbD (8 * (j + 1) + k) = p.getLsbD (8 * j + k) := by
  rw [BitVec.getLsbD_append, if_neg (by omega)]
  congr 1
  omega

/-- A word interleaved from two planes de-interleaves to them (46_morton.md R194). -/
theorem morton2_eq_append {x : BitVec 16} {p1 p0 : BitVec 8}
    (h : ∀ k, k < 8 → x.getLsbD (2 * k) = p0.getLsbD k ∧ x.getLsbD (2 * k + 1) = p1.getLsbD k) :
    morton2 x = p1 ++ p0 := by
  refine eq_of_getLsbD_planes (w := 8 + 8) (n := 2) (by omega) fun j hj k hk => ?_
  obtain ⟨h0, h1⟩ := h k hk
  rw [getLsbD_morton2 x hj hk]
  obtain rfl | rfl : j = 0 ∨ j = 1 := by omega
  all_goals simp only [getLsbD_append_plane_zero _ _ hk, getLsbD_append_plane_succ, Nat.mul_zero, Nat.zero_add,
    Nat.add_zero, h0, h1]

/-- A word interleaved from four planes de-interleaves to them (46_morton.md R194). -/
theorem morton4_eq_append {x : BitVec 32} {p3 p2 p1 p0 : BitVec 8}
    (h : ∀ k, k < 8 → x.getLsbD (4 * k) = p0.getLsbD k ∧ x.getLsbD (4 * k + 1) = p1.getLsbD k ∧
      x.getLsbD (4 * k + 2) = p2.getLsbD k ∧ x.getLsbD (4 * k + 3) = p3.getLsbD k) :
    morton4 x = (p3 ++ p2 ++ p1 ++ p0 : BitVec 32) := by
  refine eq_of_getLsbD_planes (w := 8 + 8 + 8 + 8) (n := 4) (by omega) fun j hj k hk => ?_
  obtain ⟨h0, h1, h2, h3⟩ := h k hk
  rw [getLsbD_morton4 x hj hk]
  obtain rfl | rfl | rfl | rfl : j = 0 ∨ j = 1 ∨ j = 2 ∨ j = 3 := by omega
  all_goals simp only [getLsbD_append_plane_zero _ _ hk, getLsbD_append_plane_succ, Nat.mul_zero, Nat.zero_add,
    Nat.add_zero, h0, h1, h2, h3]

/-- Settles O54: the closed forms read plane by plane, and at bit `7 - q` for pixel `q`. -/
theorem mortonRoundTrip : Obligations.MortonRoundTrip := by
  refine ⟨fun _ _ _ => morton2_eq_append, fun _ _ _ _ _ => morton4_eq_append, fun x q j hq hj => ?_,
    fun x q j hq hj => ?_⟩
  · rw [getLsbD_morton2 x hj (by omega)]
    simp [hj]
  · rw [getLsbD_morton4 x hj (by omega)]
    simp [hj]

end Sys2Proof.Machine
end

section
/-! PROOFS. The record of the bytes the host has read is written by READ alone and read by nothing: every operation
does the same whatever the record holds (00_scope.md R12; log 6). `Blind` speaks of completions alone; here an operation
also stops for the same reason. -/

namespace Sys2Proof.Machine

/-- The state with `bytes` as the record of what the host has read. -/
def withObserved (bytes : List Byte) (s : State) : State := { s with observed := bytes }

@[simp] theorem withObserved_observed (bytes : List Byte) (s : State) : (withObserved bytes s).observed = bytes := rfl

@[simp] theorem withObserved_mode (bytes : List Byte) (s : State) : (withObserved bytes s).mode = s.mode := rfl

/-- An operation's end with the state it leaves changed by `f`. -/
def Res.mapState {α : Type} (f : State → State) : Res α → Res α
  | .done a s => .done a (f s)
  | .stop r s => .stop r (f s)

/-- `f` does not see the record: it ends in the same way whatever the record holds, and leaves it alone. -/
def RecordBlind {α : Type} (f : State → Res α) : Prop :=
  ∀ bytes s, f (withObserved bytes s) = (f s).mapState (withObserved bytes)

theorem RecordBlind.bind {α β : Type} {f : State → Res α} {g : α → State → Res β} (hf : RecordBlind f)
    (hg : ∀ a, RecordBlind (g a)) : RecordBlind fun s => (f s).bind g := by
  intro bytes s
  simp only [hf bytes s]
  cases f s with
  | done a t => exact hg a bytes t
  | stop r t => rfl

theorem RecordBlind.loop {α : Type} {body : α → State → Res α} (hbody : ∀ a, RecordBlind (body a)) (n : Nat) (a : α) :
    RecordBlind (loop body n a) := by
  induction n generalizing a with
  | zero => exact fun _ _ => rfl
  | succ n ih => exact .bind (hbody a) ih

theorem RecordBlind.ite {α : Type} {c : State → Prop} [DecidablePred c] {f g : State → Res α}
    (hc : ∀ bytes s, c (withObserved bytes s) ↔ c s) (hf : RecordBlind f) (hg : RecordBlind g) :
    RecordBlind fun s => if c s then f s else g s := by
  intro bytes s
  simp only [hc bytes s]
  split
  · exact hf bytes s
  · exact hg bytes s

theorem raise_recordBlind {α : Type} (r : Fault) : RecordBlind (raise r : State → Res α) := fun _ _ => rfl

theorem stuck_recordBlind {α : Type} (r : Fault) : RecordBlind (stuck r : State → Res α) := fun _ _ => rfl

/-! ### Symbols -/

theorem fetch_recordBlind : RecordBlind fetch :=
  .ite (c := fun s => usableSize s.cfg = 0) (fun _ _ => Iff.rfl) (stuck_recordBlind _) fun _ _ => rfl

theorem renormStep_recordBlind : RecordBlind renormStep :=
  .ite (c := fun s => (shiftRegisters s).inputBitsRemaining = 0#4) (fun _ _ => Iff.rfl)
    (fun bytes s => RecordBlind.bind fetch_recordBlind (fun _ _ _ => rfl) bytes (shiftRegisters s))
    (fun _ _ => rfl)

theorem renormLoop_recordBlind (fuel shift : Nat) : RecordBlind (renormLoop fuel shift) := by
  induction fuel generalizing shift with
  | zero => exact fun _ _ => rfl
  | succ fuel ih =>
    exact .ite (c := fun s => s.span.toNat < 0x7f) (fun _ _ => Iff.rfl) (.bind renormStep_recordBlind fun _ => ih _)
      (fun _ _ => rfl)

/-- The lookup reads the contexts and the table alone. -/
theorem lookupContext_recordBlind (con : Nat) : RecordBlind (lookupContext con) := by
  intro bytes s
  by_cases hc : con < 32
  · by_cases he : s.ctx[con].stateIndex.toNat < 53
    · rw [lookupContext.eq_def con s, dif_pos hc, dif_pos he]
      exact (dif_pos hc).trans (dif_pos he)
    · rw [lookupContext.eq_def con s, dif_pos hc, dif_neg he]
      exact (dif_pos hc).trans (dif_neg he)
  · rw [lookupContext.eq_def con s, dif_neg hc]
    exact dif_neg hc

/-- The split reads and writes the interval alone. -/
theorem intervalSplit_withObserved (prob : BitVec 8) (bytes : List Byte) (s : State) :
    intervalSplit prob (withObserved bytes s) =
      ((intervalSplit prob s).1, withObserved bytes (intervalSplit prob s).2) := by
  have hsame : isLPS prob (withObserved bytes s).span (withObserved bytes s).val = isLPS prob s.span s.val := rfl
  unfold intervalSplit
  rw [hsame]
  cases isLPS prob s.span s.val <;> rfl

theorem decodeSymbol_recordBlind (con : Nat) : RecordBlind (decodeSymbol con) := by
  refine .bind (lookupContext_recordBlind con) fun ce bytes s => ?_
  simp only [intervalSplit_withObserved]
  exact RecordBlind.bind (renormLoop_recordBlind 7 0) (fun _ _ _ => rfl) bytes _

/-! ### Bits and pixels -/

theorem mode0Bit_recordBlind (bitIdx : Nat) : RecordBlind (mode0Bit bitIdx) := fun bytes s =>
  RecordBlind.bind (decodeSymbol_recordBlind (mode0Context bitIdx s)) (fun _ _ _ => rfl) bytes s

theorem moveToFront_recordBlind {n : Nat} (order : Vector (BitVec 4) n) (v : BitVec 4) :
    RecordBlind (moveToFront order v) := by
  intro bytes s
  unfold moveToFront
  cases mtf order v <;> rfl

theorem realOrder_recordBlind {n : Nat} (order : Vector (BitVec 4) n) (r : RefPixels) :
    RecordBlind (realOrder order r) :=
  .bind (moveToFront_recordBlind order r.c) fun o1 => .bind (moveToFront_recordBlind o1 r.b) fun o2 =>
    moveToFront_recordBlind o2 r.a

theorem mode1Symbol_recordBlind (con : Nat) : RecordBlind (mode1Symbol con) :=
  .bind (decodeSymbol_recordBlind con) fun _ _ _ => rfl

theorem mode2Symbol_recordBlind (rc con : Nat) : RecordBlind (mode2Symbol rc con) := by
  unfold mode2Symbol
  split
  · exact .bind (decodeSymbol_recordBlind con) fun _ _ _ => rfl
  · exact raise_recordBlind _

theorem mode1Pixel_recordBlind (a : Unit) : RecordBlind (mode1Pixel a) := by
  intro bytes s
  refine RecordBlind.bind (moveToFront_recordBlind (firstFour s.pixelOrder) (mode1Pixels s).a)
    (fun order bytes s0 => ?_) bytes s
  exact RecordBlind.bind (realOrder_recordBlind order _) (fun _ => .bind (.loop mode1Symbol_recordBlind 2 _)
    fun _ _ _ => rfl) bytes { s0 with pixelOrder := withFirstFour s0.pixelOrder order }

theorem mode2Pixel_recordBlind (a : Unit) : RecordBlind (mode2Pixel a) := by
  intro bytes s
  refine RecordBlind.bind (moveToFront_recordBlind s.pixelOrder (mode2Pixels s).a) (fun order bytes s0 => ?_) bytes s
  exact RecordBlind.bind (realOrder_recordBlind order _) (fun _ => .bind (.loop (mode2Symbol_recordBlind _) 4 0)
    fun _ _ _ => rfl) bytes { s0 with pixelOrder := order }

/-! ### The ring and the side buffer -/

theorem ringWrite_recordBlind (b : Byte) : RecordBlind (ringWrite b) :=
  .ite (c := fun s => s.length = s.cfg.ringCapacity) (fun _ _ => Iff.rfl) (raise_recordBlind _) fun _ _ => rfl

theorem ringWriteAll_recordBlind (bs : List Byte) : RecordBlind (ringWriteAll bs) := by
  induction bs with
  | nil => exact fun _ _ => rfl
  | cons b bs ih => exact .bind (ringWrite_recordBlind b) fun _ => ih

theorem ringRead_recordBlind : RecordBlind ringRead :=
  .ite (c := fun s => s.length = 0) (fun _ _ => Iff.rfl) (raise_recordBlind _) fun _ _ => rfl

theorem sideAppend_recordBlind (hi lo : Byte) : RecordBlind (sideAppend hi lo) :=
  .ite (c := fun s => s.sideIndex.toNat + 1 < 16) (fun _ _ => Iff.rfl) (fun _ _ => rfl) (raise_recordBlind _)

theorem sideFlush_recordBlind : RecordBlind sideFlush :=
  .ite (c := fun s => s.sideIndex = 16#5) (fun _ _ => Iff.rfl)
    (fun bytes s => RecordBlind.bind (ringWriteAll_recordBlind s.sideBuffer.toList) (fun _ _ _ => rfl) bytes s)
    (fun _ _ => rfl)

/-! ### Units and READs -/

theorem mode0Unit_recordBlind : RecordBlind mode0Unit :=
  .bind (.loop mode0Bit_recordBlind 8 0) fun _ bytes s => ringWrite_recordBlind _ bytes s

theorem mode1Unit_recordBlind : RecordBlind mode1Unit :=
  .bind (.loop mode1Pixel_recordBlind 8 ()) fun _ bytes s => ringWriteAll_recordBlind _ bytes s

theorem mode2Unit_recordBlind : RecordBlind mode2Unit :=
  .bind (.loop mode2Pixel_recordBlind 8 ()) fun _ bytes s =>
    RecordBlind.bind (ringWriteAll_recordBlind _) (fun _ => .bind (sideAppend_recordBlind _ _) fun _ =>
      sideFlush_recordBlind) bytes s

theorem modeUnit_recordBlind : RecordBlind modeUnit := by
  intro bytes s
  unfold modeUnit
  simp only [withObserved_mode]
  cases s.mode with
  | mode0 => exact mode0Unit_recordBlind bytes s
  | mode1 => exact mode1Unit_recordBlind bytes s
  | mode2 => exact mode2Unit_recordBlind bytes s
  | invalid => rfl

theorem refillLoop_recordBlind (fuel : Nat) : RecordBlind (refillLoop fuel) := by
  induction fuel with
  | zero => exact fun _ _ => rfl
  | succ fuel ih =>
    exact .ite (c := fun s => s.length < s.cfg.refillThreshold) (fun _ _ => Iff.rfl)
      (.bind modeUnit_recordBlind fun _ => ih) fun _ _ => rfl

theorem refillPass_recordBlind : RecordBlind refillPass := fun bytes s =>
  refillLoop_recordBlind s.cfg.refillThreshold bytes s

/-- A READ's byte and its stop do not depend on the bytes read before it. -/
theorem readByte_recordBlind : RecordBlind readByte := by
  have hactive : RecordBlind fun s =>
      if s.length = 0 then (refillPass s).bind fun _ u => ringRead u else ringRead s :=
    .ite (c := fun s => s.length = 0) (fun _ _ => Iff.rfl) (.bind refillPass_recordBlind fun _ => ringRead_recordBlind)
      ringRead_recordBlind
  intro bytes s
  unfold readByte
  simp only [withObserved_mode]
  cases s.mode with
  | invalid => rfl
  | mode0 | mode1 | mode2 => exact hactive bytes s

theorem skipRead_recordBlind (a : Unit) : RecordBlind (skipRead a) :=
  .bind readByte_recordBlind fun _ _ _ => rfl

end Sys2Proof.Machine
end

section
/-! PROOFS. INIT's skip reads are READs whose bytes the host does not see (47_commands.md R205), and so INITs with the
same operands and source give the same following output (R204, R212). -/

namespace Sys2Proof.Machine

/-! ### READs one by one -/

theorem exec_read_of_done {s t : State} {b : Byte} (h : readByte s = .done b t) :
    exec .read s = .next (withObserved (t.observed ++ [b]) t) :=
  Res.outcome_eq_next.mpr (Res.bind_eq_done.mpr ⟨b, t, h, rfl⟩)

theorem exec_read_of_stop {s t : State} {r : Fault} (h : readByte s = .stop r t) : exec .read s = .fault r :=
  Res.outcome_eq_fault.mpr ⟨t, Res.bind_eq_stop.mpr (.inl h)⟩

theorem readMany_succ_of_done {n : Nat} {s t : State} {b : Byte} (h : readByte s = .done b t) :
    readMany (n + 1) s = readMany n (withObserved (t.observed ++ [b]) t) := by
  rw [readMany, exec_read_of_done h]

theorem readMany_succ_of_stop {n : Nat} {s t : State} {r : Fault} (h : readByte s = .stop r t) :
    readMany (n + 1) s = .fault r := by
  rw [readMany, exec_read_of_stop h]

/-- A READ that completes is its byte, appended to what the host has read. -/
theorem exec_read_byte {s t : State} (h : exec .read s = .next t) :
    ∃ b u, readByte s = .done b u ∧ t = withObserved (s.observed ++ [b]) u := by
  obtain ⟨b, u, hread, hdone⟩ := Res.bind_eq_done.mp (Res.outcome_eq_next.mp h)
  have hkept := (readByte_frame hread).hostSideKept.observed
  cases hdone
  exact ⟨b, u, hread, by rw [← hkept]; rfl⟩

/-- `n` READs that complete return `n` bytes, the same whatever the host has read before. -/
theorem readMany_returns {n : Nat} {s u : State} (h : readMany n s = .next u) :
    ∃ out : List Byte, out.length = n ∧ u.observed = s.observed ++ out ∧
      ∀ bytes, readMany n (withObserved bytes s) = .next (withObserved (bytes ++ out) u) := by
  induction n generalizing s with
  | zero =>
    cases h
    exact ⟨[], rfl, (List.append_nil _).symm, fun bytes => by rw [List.append_nil]; rfl⟩
  | succ n ih =>
    obtain ⟨t, hfirst, hrest⟩ := readMany_succ_eq_next.mp h
    obtain ⟨b, v, hread, rfl⟩ := exec_read_byte hfirst
    obtain ⟨out, hlen, hobserved, hout⟩ := ih hrest
    refine ⟨b :: out, by rw [List.length_cons, hlen], ?_, fun bytes => ?_⟩
    · rw [hobserved, withObserved_observed, List.append_assoc, List.singleton_append]
    · have hread' : readByte (withObserved bytes s) = .done b (withObserved bytes v) := by
        rw [readByte_recordBlind, hread]
        rfl
      rw [readMany_succ_of_done hread', List.append_cons bytes]
      exact hout (bytes ++ [b])

/-- `m + n` READs complete exactly when `m` do and then `n`. -/
theorem readMany_add_eq_next {m n : Nat} {s u : State} :
    readMany (m + n) s = .next u ↔ ∃ t, readMany m s = .next t ∧ readMany n t = .next u := by
  induction m generalizing s with
  | zero => simp [readMany]
  | succ m ih =>
    rw [Nat.add_right_comm, readMany_succ_eq_next]
    simp only [readMany_succ_eq_next, ih]
    exact ⟨fun ⟨t, h1, v, h2, h3⟩ => ⟨v, ⟨t, h1, h2⟩, h3⟩, fun ⟨v, ⟨t, h1, h2⟩, h3⟩ => ⟨t, h1, v, h2, h3⟩⟩

/-! ### Skip reads -/

/-- Skip reads end as READs do, but for the record of the bytes (47_commands.md R205). -/
theorem skipReads_eq_reads (n : Nat) (s : State) :
    forgetOutcome (loop skipRead n () s).outcome = forgetOutcome (readMany n s) := by
  induction n generalizing s with
  | zero => rfl
  | succ n ih =>
    cases hread : readByte s with
    | stop r t =>
      rw [loop_succ, skipRead, hread, readMany_succ_of_stop hread]
      rfl
    | done b t =>
      have hrecord : forgetOutcome (loop skipRead n () (withObserved (t.observed ++ [b]) t)).outcome =
          forgetOutcome (loop skipRead n () t).outcome := by
        rw [RecordBlind.loop skipRead_recordBlind n ()]
        cases loop skipRead n () t <;> rfl
      rw [loop_succ, skipRead, hread, readMany_succ_of_done hread, ← ih, hrecord]
      rfl

/-- Outcomes that differ in the record alone complete together. -/
theorem next_of_forgetOutcome_eq {x y : Host.Outcome State Fault Refusal} {s : State}
    (h : forgetOutcome x = forgetOutcome y) (hx : x = .next s) : ∃ bytes, y = .next (withObserved bytes s) := by
  subst hx
  cases y with
  | next t =>
    have hsame : forgetObserved s = forgetObserved t := Host.Outcome.next.inj h
    have ht := congrArg (withObserved t.observed) hsame
    exact ⟨t.observed, congrArg Host.Outcome.next ht.symm⟩
  | fault r => cases h
  | refused r => cases h

/-- Settles O14: the stream starts in the same way, and then the skip reads end as the READs do. -/
theorem initSkipsAreReads : Obligations.InitSkipsAreReads := by
  intro s m off k
  cases hstart : startStream m off s with
  | stop r t =>
    have hinit (k : Word) : exec (.init m off k) s = .fault r :=
      Res.outcome_eq_fault.mpr ⟨t, Res.bind_eq_stop.mpr (.inl hstart)⟩
    rw [hinit, hinit]
  | done a t =>
    have hinit : exec (.init m off k) s = (loop skipRead k.toNat () t).outcome :=
      congrArg (fun x => (Res.bind x _).outcome) hstart
    rw [exec_init_eq_next_of_noSkip.mpr hstart, hinit]
    exact skipReads_eq_reads k.toNat t

/-- Where `k + n` READs return the same bytes, they do so after `k` skip reads too: both sequences have skipped as many
bytes of the same output. -/
theorem SameOutput.after_skipReads {k n : Nat} {v1 v2 t1 : State} (h : SameOutput (k + n) v1 v2)
    (hskips : loop skipRead k () v1 = .done () t1) :
    ∃ t2, loop skipRead k () v2 = .done () t2 ∧ SameOutput n t1 t2 := by
  obtain ⟨x1, x2, bytes, hreads1, hreads2, hbytes1, hbytes2⟩ := h
  obtain ⟨w1, hfirst1, hlater1⟩ := readMany_add_eq_next.mp hreads1
  obtain ⟨w2, hfirst2, hlater2⟩ := readMany_add_eq_next.mp hreads2
  obtain ⟨seen1, hsame1⟩ := next_of_forgetOutcome_eq (skipReads_eq_reads k v1) (Res.outcome_eq_next.mpr hskips)
  obtain ⟨seen2, hsame2⟩ := next_of_forgetOutcome_eq (skipReads_eq_reads k v2).symm hfirst2
  obtain rfl : withObserved seen1 t1 = w1 := Host.Outcome.next.inj (hsame1.symm.trans hfirst1)
  obtain ⟨skipped1, hlen1, hskipped1, -⟩ := readMany_returns hfirst1
  obtain ⟨skipped2, hlen2, hskipped2, -⟩ := readMany_returns hfirst2
  obtain ⟨out1, -, hout1, hany1⟩ := readMany_returns hlater1
  obtain ⟨out2, -, hout2, hany2⟩ := readMany_returns hlater2
  rw [hout1, hskipped1, List.append_assoc, List.append_cancel_left_eq] at hbytes1
  rw [hout2, hskipped2, List.append_assoc, List.append_cancel_left_eq] at hbytes2
  obtain ⟨-, rfl⟩ := List.append_inj (hbytes1.trans hbytes2.symm) (hlen1.trans hlen2.symm)
  exact ⟨_, Res.outcome_eq_next.mp hsame2, _, _, out1, hany1 t1.observed, hany2 seen2, rfl, rfl⟩

/-- INIT returns no byte to the host (30_encoding.md R80). -/
theorem exec_init_observed {m off k : Word} {s t : State} (h : exec (.init m off k) s = .next t) :
    t.observed = s.observed :=
  (exec_hostSideKept Instr.noConfusion h).observed

/-- Settles O28: INIT starts both streams with the same output, of which the skip reads take equally many bytes. -/
theorem initForgetsThePast : Obligations.InitForgetsThePast := by
  intro s1 s2 t1 u1 m off k n hcfg hsrc hparams hmem1 hmem2 hinit hreads
  obtain ⟨_, v1, hstart1, hskips1⟩ := Res.bind_eq_done.mp (Res.outcome_eq_next.mp hinit)
  obtain ⟨v2, hstart2, hout⟩ := startStream_sameOutput (capacity := s1.cfg.ringCapacity)
    (threshold := s1.cfg.refillThreshold) hcfg.symm hsrc hparams (hcfg ▸ hparams) hmem1 hmem2 (k.toNat + n) hstart1
  obtain ⟨t2, hskips2, w1, u2, bytes, hreads1, hreads2, hbytes1, hbytes2⟩ := hout.after_skipReads hskips1
  obtain rfl : w1 = u1 := Host.Outcome.next.inj (hreads1.symm.trans hreads)
  have hinit2 : exec (.init m off k) s2 = .next t2 :=
    Res.outcome_eq_next.mpr (Res.bind_eq_done.mpr ⟨(), v2, hstart2, hskips2⟩)
  exact ⟨t2, u2, bytes, hinit2, hreads2, by rw [hbytes1, exec_init_observed hinit],
    by rw [hbytes2, exec_init_observed hinit2]⟩

end Sys2Proof.Machine
end

section
/-! PROOFS. INIT: the whole state it leaves for each mode operand, that it completes, and the mode after it and after
the other commands (47_commands.md R201 to R209). -/

namespace Sys2Proof.Machine

/-! ### The mode operand -/

/-- Every operand above 2 selects the Invalid state (30_encoding.md R83). -/
theorem modeOfOperand_of_large {m : Word} (h : 3 ≤ m.toNat) : modeOfOperand m = .invalid := by
  have h0 : m ≠ 0#32 := by bv_omega
  have h1 : m ≠ 1#32 := by bv_omega
  have h2 : m ≠ 2#32 := by bv_omega
  rw [modeOfOperand, if_neg h0, if_neg h1, if_neg h2]

theorem modeOfOperand_of_small {m : Word} (h : m.toNat < 3) :
    modeOfOperand m = if m = 0#32 then .mode0 else if m = 1#32 then .mode1 else .mode2 := by
  obtain rfl | rfl | rfl : m = 0#32 ∨ m = 1#32 ∨ m = 2#32 := by bv_omega
  all_goals rfl

/-! ### What INIT leaves -/

theorem skipRead_of_invalid {s : State} (h : s.mode = .invalid) : skipRead () s = .done () s := by
  rw [skipRead, readByte, h]
  rfl

/-- Skip reads of the Invalid state change nothing (47_commands.md R208). -/
theorem skipReads_of_invalid (n : Nat) {s : State} (h : s.mode = .invalid) : loop skipRead n () s = .done () s := by
  induction n with
  | zero => rfl
  | succ n ih => rw [loop_succ, skipRead_of_invalid h, Res.bind_done, ih]

theorem exec_init_of_invalid {m off k : Word} {s : State} (hm : modeOfOperand m = .invalid) :
    exec (.init m off k) s = .next (initCommon m off s) :=
  Res.outcome_eq_next.mpr (Res.bind_eq_done.mpr
    ⟨(), initCommon m off s, startStream_of_invalid hm, skipReads_of_invalid _ hm⟩)

/-- Settles O12: the part of INIT common to all operands is all of it, and no READ leaves the Invalid state. -/
theorem initOfInvalidMode : Obligations.InitOfInvalidMode := by
  intro s m off k hlarge t
  have hm := modeOfOperand_of_large hlarge
  have ht : initCommon m off s = t := by
    rw [initCommon, hm]
    rfl
  exact ⟨ht ▸ exec_init_of_invalid hm, fun n => readMany_of_invalid rfl⟩

/-- Settles O13: the cleared registers, then the two bytes that priming fetches. -/
theorem initOfValidMode : Obligations.InitOfValidMode := by
  intro s m off hsmall hU c1
  have hm := modeOfOperand_ne_invalid hsmall
  have hstart := startStream_of_valid (off := off) (s := s) hm
  rw [prime_done (by exact hU)] at hstart
  refine exec_init_eq_next_of_noSkip.mpr (hstart.trans ?_)
  rw [← modeOfOperand_of_small hsmall]
  rfl

/-- A skip read keeps the core's invariant, and stops for want of a source region alone. -/
theorem skipRead_sat {cfg : Config} {a : Unit} {s : State} (hs : s.Inv ∧ s.cfg = cfg) :
    (skipRead a s).Sat (fun _ t => t.Inv ∧ t.cfg = cfg) (SourceStop cfg) := by
  obtain ⟨hinv, rfl⟩ := hs
  refine (readByte_sat hinv).bind fun _ t ⟨ht, hframe⟩ => ?_
  exact ⟨ht, hframe.hostSideKept.cfg⟩

/-- Settles O15: the stream's start and each skip read keep the invariant, and need only a source region. -/
theorem initCompletes : Obligations.InitCompletes := by
  intro s m off k hparams hmem hU
  have hsat : (initCommand m off k s).Sat (fun _ t => t.Inv ∧ t.cfg = s.cfg) (SourceStop s.cfg) :=
    (startStream_sat m off hparams hmem).bind fun _ u hu => loop_sat (fun _ _ => skipRead_sat) k.toNat () u hu
  obtain ⟨_, t, hdone, hinv, -⟩ := hsat.completes hU
  have hinit : exec (.init m off k) s = .next t := Res.outcome_eq_next.mpr hdone
  exact ⟨t, hinit, hinv, (execInit_portChecksKept hinit).srcAtInit, exec_init_observed hinit⟩

/-! ### The mode after each command -/

theorem readByte_mode {s t : State} {b : Byte} (h : readByte s = .done b t) : t.mode = s.mode := by
  rw [readByte_frame h]

theorem startStream_mode {m off : Word} {s t : State} (h : startStream m off s = .done () t) :
    t.mode = modeOfOperand m := by
  by_cases hm : modeOfOperand m = .invalid
  · rw [startStream_of_invalid hm] at h
    cases h
    rfl
  · exact (startStream_fields h hm).2.1

theorem skipRead_mode {a b : Unit} {s t : State} (h : skipRead a s = .done b t) : t.mode = s.mode := by
  obtain ⟨_, _, hread, hdone⟩ := Res.bind_eq_done.mp h
  cases hdone
  exact readByte_mode hread

/-- INIT leaves the mode its operand selects, and its skip reads keep it. -/
theorem exec_init_mode {m off k : Word} {s t : State} (h : exec (.init m off k) s = .next t) :
    t.mode = modeOfOperand m := by
  obtain ⟨_, u, hstart, hskips⟩ := Res.bind_eq_done.mp (Res.outcome_eq_next.mp h)
  have hkept : t.mode = u.mode := loop_rel (R := fun a b => b.mode = a.mode) (fun _ => rfl)
    (fun _ _ _ hab hbc => hbc.trans hab) (fun _ _ _ _ => skipRead_mode) _ hskips
  exact hkept.trans (startStream_mode hstart)

theorem exec_read_mode {s t : State} (h : exec .read s = .next t) : t.mode = s.mode := by
  obtain ⟨b, u, hread, rfl⟩ := exec_read_byte h
  have hmode := readByte_mode hread
  exact hmode

/-- Settles O11: RESET is these writes. -/
theorem resetEmptiesTheRing : Obligations.ResetEmptiesTheRing := fun _ => rfl

/-- Settles O25: RESET writes Invalid, INIT what its operand selects, and READ no mode. -/
theorem modeTransitions : Obligations.ModeTransitions := by
  refine fun s t => ⟨fun h => ?_, fun _ _ => exec_init_mode, fun _ _ => exec_init_mode, fun _ _ => exec_init_mode,
    fun m off k hlarge h => ?_, exec_read_mode⟩
  · rw [resetEmptiesTheRing s] at h
    cases h
    rfl
  · rw [exec_init_mode h, modeOfOperand_of_large hlarge]

end Sys2Proof.Machine
end

section
/-! PROOFS. What a READ returns: the sentinel in the Invalid state, the ring's oldest byte in the others (47_commands.md
R206, R208). -/

namespace Sys2Proof.Machine

/-- Settles O18: the Invalid state's READ, the default sentinel, and the invariant's empty ring. -/
theorem readInInvalidReturnsSentinel : Obligations.ReadInInvalidReturnsSentinel :=
  ⟨fun _ => exec_read_of_invalid, rfl, fun _ _ _ hs h => (exec_inv hs h).idle⟩

/-- Settles O23, by induction on the number of READs (`readMany_of_invalid`). -/
theorem invalidReadsAreAllSentinels : Obligations.InvalidReadsAreAllSentinels :=
  fun _ _ => readMany_of_invalid

theorem readByte_of_valid {s : State} (h : s.mode ≠ .invalid) :
    readByte s = if s.length = 0 then (refillPass s).bind fun _ u => ringRead u else ringRead s := by
  unfold readByte
  split
  · rename_i hm
    exact absurd hm h
  · rfl

/-- Settles O19: a ring that holds a byte is read at once. -/
theorem readOfNonEmptyRing : Obligations.ReadOfNonEmptyRing := by
  intro s hactive hlive
  have hread := readByte_of_valid hactive
  rw [if_neg hlive, ringRead_done hlive] at hread
  exact exec_read_of_done hread

end Sys2Proof.Machine
end

section
/-! PROOFS. A step of a legal, unfaulted core runs the command waiting on the port, and none where none waits
(47_commands.md R200; log 1). -/

namespace Sys2Proof.Machine

/-- Settles O4: the port hands the decoded command on. -/
theorem stepRunsTheDecodedCommand : Obligations.StepRunsTheDecodedCommand :=
  fun _ _ _ hparams hfault hsrc _ hdecode => step_of_decode_ok hparams hfault hsrc hdecode

/-- Settles O5: with no word waiting the port answers that it is idle. -/
theorem stepWithoutCommandIsIdle : Obligations.StepWithoutCommandIsIdle := by
  intro s hparams hfault hport
  have hadm : admission s = .idle := by
    simp [admission, show parameterRefusal s.cfg = none from hparams, hfault, hport]
  rw [step, hadm]

end Sys2Proof.Machine
end

section
/-! PROOFS. Where a refill pass stores: at consecutive places from the write offset on, and nowhere else in the ring's
storage (42_ring_buffer.md R130, 47_commands.md R207). -/

namespace Sys2Proof.Machine

/-- From `s` to `t` the ring has grown by `n` bytes, stored from the write offset of `s` on; every other place of its
storage reads as before. -/
structure StoredFrom (n : Nat) (s t : State) : Prop where
  cfg : t.cfg = s.cfg
  length : t.length = s.length + n
  write : t.writeOffset = (s.writeOffset + n) % s.cfg.ringCapacity
  kept : ∀ a, (∀ j, j < n → a ≠ (s.writeOffset + j) % s.cfg.ringCapacity) → t.ringData.read a = s.ringData.read a

/-- Started with its write offset below the capacity, the ring has grown by some number of bytes stored so. -/
def StoresAhead (s t : State) : Prop :=
  s.writeOffset < s.cfg.ringCapacity → ∃ n, StoredFrom n s t

/-- Where the ring's write side is left alone nothing is stored. -/
theorem StoresAhead.of_ring_eq {s t : State} (hcfg : t.cfg = s.cfg) (hlen : t.length = s.length)
    (hwrite : t.writeOffset = s.writeOffset) (hdata : t.ringData = s.ringData) : StoresAhead s t := fun hlt =>
  ⟨0, hcfg, hlen, by rw [hwrite, Nat.add_zero, Nat.mod_eq_of_lt hlt], fun _ _ => by rw [hdata]⟩

theorem StoresAhead.refl (s : State) : StoresAhead s s := .of_ring_eq rfl rfl rfl rfl

/-- Place `i` after the first `m` is place `m + i`. -/
theorem StoresAhead.trans {s t u : State} (h1 : StoresAhead s t) (h2 : StoresAhead t u) : StoresAhead s u := by
  intro hlt
  obtain ⟨m, hm⟩ := h1 hlt
  have hlt' : t.writeOffset < t.cfg.ringCapacity := by
    rw [hm.write, hm.cfg]
    exact Nat.mod_lt _ (Nat.zero_lt_of_lt hlt)
  obtain ⟨n, hn⟩ := h2 hlt'
  have hplace (i : Nat) : (t.writeOffset + i) % t.cfg.ringCapacity =
      (s.writeOffset + (m + i)) % s.cfg.ringCapacity := by
    rw [hm.write, hm.cfg, Nat.mod_add_mod, Nat.add_assoc]
  refine ⟨m + n, hn.cfg.trans hm.cfg, ?_, hn.write.trans (hplace n), fun a ha => ?_⟩
  · rw [hn.length, hm.length, Nat.add_assoc]
  · rw [hn.kept a fun j hj => hplace j ▸ ha (m + j) (by omega)]
    exact hm.kept a fun j hj => ha j (by omega)

theorem ringWrite_storesAhead {b : Byte} {s t : State} (h : ringWrite b s = .done () t) : StoresAhead s t := by
  intro hlt
  obtain ⟨-, rfl⟩ := ringWrite_eq_done h
  refine ⟨1, rfl, rfl, rfl, fun a ha => Memory.read_write_other _ _ ?_⟩
  simpa [Nat.mod_eq_of_lt hlt] using ha 0

theorem ringWriteAll_storesAhead {bs : List Byte} {s t : State} (h : ringWriteAll bs s = .done () t) :
    StoresAhead s t := by
  induction bs generalizing s with
  | nil =>
    cases h
    exact .refl _
  | cons b bs ih =>
    obtain ⟨_, u, hfirst, hrest⟩ := Res.bind_eq_done.mp h
    exact (ringWrite_storesAhead hfirst).trans (ih hrest)

/-! ### Units -/

theorem mode0Unit_storesAhead {s t : State} (h : mode0Unit s = .done () t) : StoresAhead s t := by
  obtain ⟨_, u, hbits, hwrite⟩ := Res.bind_eq_done.mp h
  have hframe : Mode0Bits s u :=
    loop_rel (R := Mode0Bits) (fun _ => rfl) (fun _ _ _ => .trans) (fun _ _ _ _ => mode0Bit_frame) 8 hbits
  have hquiet : StoresAhead s u := by
    rw [hframe]
    exact .of_ring_eq rfl rfl rfl rfl
  exact hquiet.trans (ringWrite_storesAhead hwrite)

theorem mode1Unit_storesAhead {s t : State} (h : mode1Unit s = .done () t) : StoresAhead s t := by
  obtain ⟨_, u, hpixels, hwrite⟩ := Res.bind_eq_done.mp h
  have hquiet : StoresAhead s u := by
    rw [(mode1Pixels_loop_frame hpixels).1]
    exact .of_ring_eq rfl rfl rfl rfl
  exact hquiet.trans (ringWriteAll_storesAhead hwrite)

theorem sideFlush_storesAhead {s t : State} (h : sideFlush s = .done () t) : StoresAhead s t := by
  unfold sideFlush at h
  split at h
  · obtain ⟨_, u, hwrite, hdone⟩ := Res.bind_eq_done.mp h
    cases hdone
    exact (ringWriteAll_storesAhead hwrite).trans (.of_ring_eq rfl rfl rfl rfl)
  · cases h
    exact .refl _

theorem mode2Unit_storesAhead {s t : State} (h : mode2Unit s = .done () t) : StoresAhead s t := by
  obtain ⟨_, u, hpixels, hrest⟩ := Res.bind_eq_done.mp h
  obtain ⟨_, v, hwrite, hrest⟩ := Res.bind_eq_done.mp hrest
  obtain ⟨_, w, hside, hflush⟩ := Res.bind_eq_done.mp hrest
  have hpixelsQuiet : StoresAhead s u := by
    rw [mode2Pixels_loop_frame hpixels]
    exact .of_ring_eq rfl rfl rfl rfl
  have hsideQuiet : StoresAhead v w := by
    rw [(sideAppend_eq_done hside).2]
    exact .of_ring_eq rfl rfl rfl rfl
  exact ((hpixelsQuiet.trans (ringWriteAll_storesAhead hwrite)).trans hsideQuiet).trans (sideFlush_storesAhead hflush)

theorem modeUnit_storesAhead {s t : State} (h : modeUnit s = .done () t) : StoresAhead s t := by
  unfold modeUnit at h
  split at h
  · exact mode0Unit_storesAhead h
  · exact mode1Unit_storesAhead h
  · exact mode2Unit_storesAhead h
  · cases h
    exact .refl _

theorem refillPass_storesAhead {s t : State} (h : refillPass s = .done () t) : StoresAhead s t :=
  refillLoop_induction (P := StoresAhead s) (fun _ _ hu _ hunit => hu.trans (modeUnit_storesAhead hunit)) h (.refl s)

end Sys2Proof.Machine
end

section
/-! PROOFS. A READ of a valid mode that finds the ring empty (47_commands.md R206, R207, 42_ring_buffer.md R135). -/

namespace Sys2Proof.Machine

/-- The unit of each valid mode, as a loop's body (47_commands.md R207). -/
def unitOfMode (m : Mode) (_ : Unit) : State → Res Unit :=
  if m = .mode0 then mode0Unit else if m = .mode1 then mode1Unit else mode2Unit

theorem modeUnit_eq_unitOfMode {s : State} (h : s.mode ≠ .invalid) : modeUnit s = unitOfMode s.mode () s := by
  unfold modeUnit unitOfMode
  cases hm : s.mode with
  | mode0 | mode1 | mode2 => rfl
  | invalid => exact absurd hm h

/-- The mode stays, so units of the active mode are units of the first state's mode. -/
theorem loop_unitOfMode (n : Nat) {s : State} (h : s.mode ≠ .invalid) :
    loop (unitOfMode s.mode) n () s = loop (fun _ => modeUnit) n () s := by
  induction n generalizing s with
  | zero => rfl
  | succ n ih =>
    rw [loop_succ, loop_succ, ← modeUnit_eq_unitOfMode h]
    cases hunit : modeUnit s with
    | stop r t => rfl
    | done a t =>
      have hmode : t.mode = s.mode := by rw [(modeUnit_frame hunit).1]
      exact hmode ▸ ih (hmode ▸ h)

/-- A pass whose units add at most `c + 1` bytes each passes the threshold by at most `c`. -/
theorem refillPass_length_le {m : Mode} {c : Nat} {s t : State} (hmode : s.mode = m) (hempty : s.length = 0)
    (hadds : ∀ u v, u.mode = m → modeUnit u = .done () v → v.length ≤ u.length + (c + 1))
    (h : refillPass s = .done () t) : t.length ≤ s.cfg.refillThreshold + c := by
  refine (refillLoop_induction (P := fun u => UnitFrame s u ∧ u.length ≤ s.cfg.refillThreshold + c) ?_ h
    ⟨rfl, by omega⟩).2
  intro u v ⟨hframe, _⟩ hbelow hunit
  have hcfg : u.cfg = s.cfg := by rw [hframe]
  have hadd := hadds u v (by rw [hframe, hmode]) hunit
  rw [hcfg] at hbelow
  exact ⟨hframe.trans (modeUnit_frame hunit).1, by omega⟩

/-- A READ that finds the ring empty takes the first byte its refill pass leaves. -/
theorem exec_read_of_refillPass {s u : State} (hactive : s.mode ≠ .invalid) (hempty : s.length = 0)
    (hpass : refillPass s = .done () u) (hlive : u.length ≠ 0) :
    exec .read s = .next { u with
      readOffset := (s.readOffset + 1) % s.cfg.ringCapacity
      length := u.length - 1
      observed := s.observed ++ [u.ringData.read s.readOffset] } := by
  have hframe := (refillLoop_frame hpass).1
  have hcfg : u.cfg = s.cfg := by rw [hframe]
  have hoffset : u.readOffset = s.readOffset := by rw [hframe]
  have hobserved : u.observed = s.observed := by rw [hframe]
  have hread := readByte_of_valid hactive
  rw [if_pos hempty, hpass, Res.bind_done, ringRead_done hlive] at hread
  rw [exec_read_of_done hread, ← hcfg, ← hoffset, ← hobserved]
  rfl

/-- Settles O20: the pass is whole units that store from the write offset on, and the READ takes the first byte. -/
theorem readOfEmptyRingRefills : Obligations.ReadOfEmptyRingRefills := by
  intro s hs hU hactive hempty unit
  obtain ⟨_, u, hpass, ⟨-, hframe⟩, hlow, hhigh⟩ := (refillPass_sat (hs.activeOk hactive) hempty).completes hU
  obtain ⟨n, hunits, hbelow⟩ := refillLoop_iterates hpass
  have hbody (n : Nat) : loop unit n () s = loop (fun _ => modeUnit) n () s := loop_unitOfMode n hactive
  obtain ⟨k, hstored⟩ := refillPass_storesAhead hpass hs.ring.write_lt
  obtain rfl : u.length = k := by rw [hstored.length, hempty, Nat.zero_add]
  have hT := (bounds_of_paramsLegal hs.params).1
  refine ⟨n, u, _, (hbody n).trans hunits, fun m hm => hbody m ▸ hbelow m hm,
    exec_read_of_refillPass hactive hempty hpass (by omega), rfl, hlow, hhigh, hstored.write, by rw [hframe],
    fun hm => ?_, fun hm => ?_, hstored.kept⟩
  · have hle : u.length ≤ s.cfg.refillThreshold + 0 := refillPass_length_le hm hempty
      (fun v w hv hunit => by rw [(modeUnit_adds hunit).1 hv]) hpass
    omega
  · exact refillPass_length_le hm hempty (fun v w hv hunit => by rw [(modeUnit_adds hunit).2.1 hv]) hpass

end Sys2Proof.Machine
end

section
/-! PROOFS. Which parameters are legal and what the port makes of the others, a recorded fault, and the state after
construction (60_exceptions.md R222, R224, R225, 70_reset_and_hazards.md R240). -/

namespace Sys2Proof.Machine

/-! ### Legal parameters -/

theorem evolutionTableLegal_iff {table : Vector EvolutionEntry 53} :
    evolutionTableLegal table = true ↔ ∀ (i : Nat) (h : i < 53), table[i].nextOnLPS ≤ 52 ∧ table[i].nextOnMPS ≤ 52 ∧
      1 ≤ table[i].probability.toNat ∧ table[i].probability.toNat ≤ 0x7e := by
  simp only [evolutionTableLegal, Vector.all_toList, Vector.all_eq_true, evolutionEntryLegal, Bool.and_eq_true,
    decide_eq_true_eq, and_assoc]

theorem mode2TableLegal_iff {table : Vector (Nat × Nat) 32} :
    mode2TableLegal table = true ↔
      (∀ (i : Nat) (h : i < 32), table[i].1 ≤ 31 ∧ table[i].2 ≤ 31) ∧ table[1].1 + 4 ≤ 31 ∧ table[1].2 + 4 ≤ 31 := by
  simp only [mode2TableLegal, Vector.all_toList, Vector.all_eq_true, Bool.and_eq_true, decide_eq_true_eq, and_assoc]

/-- Parameters are legal exactly when each of the five checks passes. -/
theorem paramsLegal_iff {cfg : Config} :
    ParamsLegal cfg ↔ 1 ≤ cfg.refillThreshold ∧ cfg.refillThreshold + 17 ≤ cfg.ringCapacity ∧
      0x100000 ≤ cfg.imageSize ∧ evolutionTableLegal cfg.evolutionTable = true ∧
      mode2TableLegal cfg.mode2ContextTable = true := by
  constructor
  · intro h
    obtain ⟨hthreshold, hcapacity, himage⟩ := bounds_of_paramsLegal h
    exact ⟨hthreshold, hcapacity, himage, tables_of_paramsLegal h⟩
  · rintro ⟨hthreshold, hcapacity, himage, hevolution, hmode2⟩
    rw [ParamsLegal, parameterRefusal, if_neg (Nat.not_lt.mpr hthreshold), if_neg (Nat.not_lt.mpr hcapacity),
      if_neg (Nat.not_lt.mpr himage), hevolution, hmode2]
    rfl

/-- Parameters are the first thing a step looks at (60_exceptions.md R225). -/
theorem step_of_parameterRefusal {s : State} {r : Refusal} (h : parameterRefusal s.cfg = some r) :
    step s = .refused r := by
  have hadm : admission s = .refused r := by rw [admission, h]
  rw [step, hadm]

/-- Settles O6: the five checks with the two tables' written out by index, and the reason that any other parameters
have. -/
theorem illegalParametersAreRefused : Obligations.IllegalParametersAreRefused := by
  refine ⟨fun cfg => ?_, fun s hillegal => ?_⟩
  · rw [paramsLegal_iff, evolutionTableLegal_iff, mode2TableLegal_iff]
  · obtain ⟨r, hr⟩ := Option.ne_none_iff_exists'.mp hillegal
    exact ⟨r, step_of_parameterRefusal hr⟩

/-! ### A recorded fault -/

/-- Settles O7: the port looks at the fault record before the words. -/
theorem recordedFaultIsFinal : Obligations.RecordedFaultIsFinal := by
  intro s r hparams hfault
  have hadm : admission s = .faulted r := by rw [admission, hparams, hfault]
  rw [step, hadm]

/-- Settles O38: in each primitive the test for the fault comes before any write. -/
theorem faultsArePrecise : Obligations.FaultsArePrecise := by
  refine ⟨fun b s hfull => if_pos hfull, fun s hempty => if_pos hempty, fun con s hcon => ?_,
    fun n order v s hmissing => moveToFront_of_not_mem hmissing s⟩
  have hlookup : lookupContext con s = raise .contextRange s := dif_neg (Nat.not_lt.mpr hcon)
  rw [decodeSymbol, hlookup]
  rfl

/-! ### Construction -/

/-- Settles O9: these are the fields that `State.reset` writes out. -/
theorem constructionLeavesInvalid : Obligations.ConstructionLeavesInvalid :=
  ⟨rfl, rfl, rfl, rfl, rfl⟩

theorem defaultConfig_legal : ParamsLegal defaultConfig := by
  decide

theorem freshContexts_ok (j : Nat) (h : j < 32) : freshContexts[j].stateIndex.toNat ≤ 52 := by
  rw [freshContexts, Vector.getElem_replicate]
  decide

/-- Settles O10: with no stream in the Invalid state, the parameters, the contexts and the empty ring remain. -/
theorem constructionMeetsInvariant : Obligations.ConstructionMeetsInvariant where
  params := defaultConfig_legal
  memory := ⟨reset_memory_wf.1, reset_memory_wf.2, nofun⟩
  ring := (ringClear_ok (s := State.reset) (by decide)).1
  bound := Nat.zero_le _
  idle := fun _ => rfl
  contexts := freshContexts_ok
  arith := fun hactive => absurd rfl hactive
  order := ⟨nofun, nofun⟩
  side := ⟨nofun, nofun⟩

end Sys2Proof.Machine
end

section
/-! PROOFS. The stops of a command: from a state that meets the invariant the stuck fetch alone, and that one only where
the source region is empty (60_exceptions.md R222, R223). -/

namespace Sys2Proof.Machine

/-! ### A core that meets the invariant -/

/-- A command that faults stopped as its operation's law says. -/
theorem Res.Sat.of_outcome_fault {x : Res Unit} {P : Unit → State → Prop} {E : Fault → State → Prop} {r : Fault}
    (hx : x.Sat P E) (h : x.outcome = .fault r) : ∃ t, E r t := by
  obtain ⟨t, rfl⟩ := Res.outcome_eq_fault.mp h
  exact ⟨t, hx⟩

/-- RESET always completes (47_commands.md R201). -/
theorem exec_reset_ne_fault (s : State) (r : Fault) : exec .reset s ≠ .fault r := by
  rw [resetEmptiesTheRing s]
  nofun

/-- INIT keeps the invariant from its stream's start on, and stops for want of a source region alone. -/
theorem initCommand_sat (m off k : Word) {s : State} (hparams : ParamsLegal s.cfg) (hmem : MemoryOk s) :
    (initCommand m off k s).Sat (fun _ t => t.Inv ∧ t.cfg = s.cfg) (SourceStop s.cfg) :=
  (startStream_sat m off hparams hmem).bind fun _ u hu => loop_sat (fun _ _ => skipRead_sat) k.toNat () u hu

/-- READ keeps the invariant, and stops for want of a source region alone. -/
theorem readCommand_sat {s : State} (hs : s.Inv) : (readCommand s).Sat (fun _ t => t.Inv) (SourceStop s.cfg) :=
  (readByte_sat hs).bind fun _ u ⟨hu, _⟩ => hu.withPortAndObserved u.port _

/-- Settles O27: each command's law under the invariant leaves the stuck fetch as its one stop. -/
theorem legalCoreNeverFaults : Obligations.LegalCoreNeverFaults := by
  intro i s r hs h
  cases i with
  | reset => exact absurd h (exec_reset_ne_fault s r)
  | init m off k =>
    obtain ⟨_, hempty, -⟩ := (initCommand_sat m off k hs.params hs.memory).of_outcome_fault h
    exact hempty
  | read =>
    obtain ⟨_, hempty, -⟩ := (readCommand_sat hs).of_outcome_fault h
    exact hempty

/-- Settles O16: the stream of a valid mode starts with a fetch, and no skip read comes before it. -/
theorem initWithoutSourceIsStuck : Obligations.InitWithoutSourceIsStuck := by
  intro s m off k hsmall hU
  have hstart := startStream_of_valid (off := off) (s := s) (modeOfOperand_ne_invalid hsmall)
  rw [prime_stuck (by exact hU)] at hstart
  exact Res.outcome_eq_fault.mpr ⟨_, Res.bind_eq_stop.mpr (.inl hstart)⟩

/-! ### Any state

Outside the invariant an operation may stop for any reason. Where the reason is the stuck fetch, the source region is
empty: the fetch alone gives it, and no operation before the fetch changes the parameters. -/

/-- Under the parameters `cfg`, `f` keeps them and is stuck only where their usable size is 0. -/
def StuckOnlyOnEmpty (cfg : Config) {α : Type} (f : State → Res α) : Prop :=
  ∀ s, s.cfg = cfg →
    (f s).Sat (fun _ t => t.cfg = cfg) (fun r _ => r = .sourceEmpty → usableSize cfg = 0)

section
variable {cfg : Config} {α β : Type}

theorem StuckOnlyOnEmpty.bind {f : State → Res α} {g : α → State → Res β} (hf : StuckOnlyOnEmpty cfg f)
    (hg : ∀ a, StuckOnlyOnEmpty cfg (g a)) : StuckOnlyOnEmpty cfg fun s => (f s).bind g :=
  fun s hs => (hf s hs).bind hg

theorem StuckOnlyOnEmpty.loop {body : α → State → Res α} (hbody : ∀ a, StuckOnlyOnEmpty cfg (body a)) (n : Nat)
    (a : α) : StuckOnlyOnEmpty cfg (loop body n a) :=
  fun s hs => loop_sat (P := fun _ t => t.cfg = cfg) hbody n a s hs

theorem StuckOnlyOnEmpty.ite {c : State → Prop} [DecidablePred c] {f g : State → Res α}
    (hf : StuckOnlyOnEmpty cfg f) (hg : StuckOnlyOnEmpty cfg g) :
    StuckOnlyOnEmpty cfg fun s => if c s then f s else g s := by
  intro s hs
  dsimp only
  split
  · exact hf s hs
  · exact hg s hs

/-- An operation that always completes is not stuck. -/
theorem StuckOnlyOnEmpty.of_done {value : State → α} {update : State → State}
    (hcfg : ∀ s, (update s).cfg = s.cfg) : StuckOnlyOnEmpty cfg fun s => .done (value s) (update s) :=
  fun s hs => (hcfg s).trans hs

/-- A raised fault is not the stuck fetch. -/
theorem raise_stuckOnlyOnEmpty {r : Fault} (hr : r ≠ .sourceEmpty) :
    StuckOnlyOnEmpty cfg (raise r : State → Res α) :=
  fun _ _ hempty => absurd hempty hr

end

section
variable (cfg : Config)

/-! #### Symbols -/

theorem fetch_stuckOnlyOnEmpty : StuckOnlyOnEmpty cfg fetch := by
  rintro s rfl
  by_cases hU : usableSize s.cfg = 0
  · rw [fetch_stuck hU]
    exact fun _ => hU
  · rw [fetch_done hU]
    rfl

theorem renormStep_stuckOnlyOnEmpty : StuckOnlyOnEmpty cfg renormStep :=
  .ite (c := fun s => (shiftRegisters s).inputBitsRemaining = 0#4)
    (fun s hs => (fetch_stuckOnlyOnEmpty cfg (shiftRegisters s) hs).bind fun _ _ ht => ht)
    (.of_done (update := shiftRegisters) fun _ => rfl)

theorem renormLoop_stuckOnlyOnEmpty (fuel shift : Nat) : StuckOnlyOnEmpty cfg (renormLoop fuel shift) := by
  induction fuel generalizing shift with
  | zero => exact .of_done fun _ => rfl
  | succ fuel ih =>
    exact .ite (c := fun s => s.span.toNat < 0x7f) (.bind (renormStep_stuckOnlyOnEmpty cfg) fun _ => ih _)
      (.of_done fun _ => rfl)

theorem lookupContext_stuckOnlyOnEmpty (con : Nat) : StuckOnlyOnEmpty cfg (lookupContext con) := by
  intro s hs
  unfold lookupContext
  split
  · split
    · exact hs
    · exact raise_stuckOnlyOnEmpty (by decide) s hs
  · exact raise_stuckOnlyOnEmpty (by decide) s hs

theorem decodeSymbol_stuckOnlyOnEmpty (con : Nat) : StuckOnlyOnEmpty cfg (decodeSymbol con) := by
  refine .bind (lookupContext_stuckOnlyOnEmpty cfg con) fun ce s hs => ?_
  have hsplit : (intervalSplit ce.2.probability s).2.cfg = cfg := by rw [intervalSplit_frame, hs]
  exact (renormLoop_stuckOnlyOnEmpty cfg 7 0 _ hsplit).bind fun _ _ ht => ht

/-! #### Bits and pixels -/

theorem mode0Bit_stuckOnlyOnEmpty (bitIdx : Nat) : StuckOnlyOnEmpty cfg (mode0Bit bitIdx) :=
  fun s hs => (decodeSymbol_stuckOnlyOnEmpty cfg (mode0Context bitIdx s) s hs).bind fun _ _ ht => ht

theorem moveToFront_stuckOnlyOnEmpty {n : Nat} (order : Vector (BitVec 4) n) (v : BitVec 4) :
    StuckOnlyOnEmpty cfg (moveToFront order v) := by
  intro s hs
  unfold moveToFront
  split
  · exact hs
  · exact raise_stuckOnlyOnEmpty (by decide) s hs

theorem realOrder_stuckOnlyOnEmpty {n : Nat} (order : Vector (BitVec 4) n) (r : RefPixels) :
    StuckOnlyOnEmpty cfg (realOrder order r) :=
  .bind (moveToFront_stuckOnlyOnEmpty cfg order r.c) fun o1 => .bind (moveToFront_stuckOnlyOnEmpty cfg o1 r.b) fun o2 =>
    moveToFront_stuckOnlyOnEmpty cfg o2 r.a

theorem mode1Symbol_stuckOnlyOnEmpty (con : Nat) : StuckOnlyOnEmpty cfg (mode1Symbol con) :=
  .bind (decodeSymbol_stuckOnlyOnEmpty cfg con) fun _ => .of_done fun _ => rfl

theorem mode2Symbol_stuckOnlyOnEmpty (rc con : Nat) : StuckOnlyOnEmpty cfg (mode2Symbol rc con) := by
  unfold mode2Symbol
  split
  · exact .bind (decodeSymbol_stuckOnlyOnEmpty cfg con) fun _ => .of_done fun _ => rfl
  · exact raise_stuckOnlyOnEmpty (by decide)

theorem mode1Pixel_stuckOnlyOnEmpty (a : Unit) : StuckOnlyOnEmpty cfg (mode1Pixel a) := by
  intro s hs
  refine (moveToFront_stuckOnlyOnEmpty cfg _ _ s hs).bind fun order s0 hs0 => ?_
  refine (realOrder_stuckOnlyOnEmpty cfg order _ _ (by exact hs0)).bind fun ranking s2 hs2 => ?_
  exact (StuckOnlyOnEmpty.loop (mode1Symbol_stuckOnlyOnEmpty cfg) 2 _ s2 hs2).bind fun _ _ ht => ht

theorem mode2Pixel_stuckOnlyOnEmpty (a : Unit) : StuckOnlyOnEmpty cfg (mode2Pixel a) := by
  intro s hs
  refine (moveToFront_stuckOnlyOnEmpty cfg _ _ s hs).bind fun order s0 hs0 => ?_
  refine (realOrder_stuckOnlyOnEmpty cfg order _ _ (by exact hs0)).bind fun ranking s2 hs2 => ?_
  exact (StuckOnlyOnEmpty.loop (mode2Symbol_stuckOnlyOnEmpty cfg _) 4 0 s2 hs2).bind fun _ _ ht => ht

/-! #### The ring and the side buffer -/

theorem ringWrite_stuckOnlyOnEmpty (b : Byte) : StuckOnlyOnEmpty cfg (ringWrite b) :=
  .ite (c := fun s => s.length = s.cfg.ringCapacity) (raise_stuckOnlyOnEmpty (by decide)) (.of_done fun _ => rfl)

theorem ringWriteAll_stuckOnlyOnEmpty (bs : List Byte) : StuckOnlyOnEmpty cfg (ringWriteAll bs) := by
  induction bs with
  | nil => exact .of_done fun _ => rfl
  | cons b bs ih => exact .bind (ringWrite_stuckOnlyOnEmpty cfg b) fun _ => ih

theorem ringRead_stuckOnlyOnEmpty : StuckOnlyOnEmpty cfg ringRead :=
  .ite (c := fun s => s.length = 0) (raise_stuckOnlyOnEmpty (by decide)) (.of_done fun _ => rfl)

theorem sideAppend_stuckOnlyOnEmpty (hi lo : Byte) : StuckOnlyOnEmpty cfg (sideAppend hi lo) :=
  .ite (c := fun s => s.sideIndex.toNat + 1 < 16) (.of_done fun _ => rfl) (raise_stuckOnlyOnEmpty (by decide))

theorem sideFlush_stuckOnlyOnEmpty : StuckOnlyOnEmpty cfg sideFlush :=
  .ite (c := fun s => s.sideIndex = 16#5)
    (fun s hs => (ringWriteAll_stuckOnlyOnEmpty cfg s.sideBuffer.toList s hs).bind fun _ _ ht => ht)
    (.of_done fun _ => rfl)

/-! #### Units and commands -/

theorem mode0Unit_stuckOnlyOnEmpty : StuckOnlyOnEmpty cfg mode0Unit :=
  .bind (.loop (mode0Bit_stuckOnlyOnEmpty cfg) 8 0) fun _ s => ringWrite_stuckOnlyOnEmpty cfg _ s

theorem mode1Unit_stuckOnlyOnEmpty : StuckOnlyOnEmpty cfg mode1Unit :=
  .bind (.loop (mode1Pixel_stuckOnlyOnEmpty cfg) 8 ()) fun _ s => ringWriteAll_stuckOnlyOnEmpty cfg _ s

theorem mode2Unit_stuckOnlyOnEmpty : StuckOnlyOnEmpty cfg mode2Unit :=
  .bind (.loop (mode2Pixel_stuckOnlyOnEmpty cfg) 8 ()) fun _ s =>
    StuckOnlyOnEmpty.bind (ringWriteAll_stuckOnlyOnEmpty cfg _)
      (fun _ => .bind (sideAppend_stuckOnlyOnEmpty cfg _ _) fun _ => sideFlush_stuckOnlyOnEmpty cfg) s

theorem modeUnit_stuckOnlyOnEmpty : StuckOnlyOnEmpty cfg modeUnit := by
  intro s hs
  unfold modeUnit
  cases s.mode with
  | mode0 => exact mode0Unit_stuckOnlyOnEmpty cfg s hs
  | mode1 => exact mode1Unit_stuckOnlyOnEmpty cfg s hs
  | mode2 => exact mode2Unit_stuckOnlyOnEmpty cfg s hs
  | invalid => exact hs

theorem refillLoop_stuckOnlyOnEmpty (fuel : Nat) : StuckOnlyOnEmpty cfg (refillLoop fuel) := by
  induction fuel with
  | zero => exact .of_done fun _ => rfl
  | succ fuel ih =>
    exact .ite (c := fun s => s.length < s.cfg.refillThreshold) (.bind (modeUnit_stuckOnlyOnEmpty cfg) fun _ => ih)
      (.of_done fun _ => rfl)

theorem refillPass_stuckOnlyOnEmpty : StuckOnlyOnEmpty cfg refillPass :=
  fun s => refillLoop_stuckOnlyOnEmpty cfg s.cfg.refillThreshold s

theorem readByte_stuckOnlyOnEmpty : StuckOnlyOnEmpty cfg readByte := by
  intro s hs
  by_cases hm : s.mode = .invalid
  · rw [readByte, hm]
    exact hs
  · rw [readByte_of_valid hm]
    exact StuckOnlyOnEmpty.ite (c := fun s => s.length = 0)
      (.bind (refillPass_stuckOnlyOnEmpty cfg) fun _ => ringRead_stuckOnlyOnEmpty cfg)
      (ringRead_stuckOnlyOnEmpty cfg) s hs

theorem readCommand_stuckOnlyOnEmpty : StuckOnlyOnEmpty cfg readCommand :=
  .bind (readByte_stuckOnlyOnEmpty cfg) fun _ => .of_done fun _ => rfl

theorem skipRead_stuckOnlyOnEmpty (a : Unit) : StuckOnlyOnEmpty cfg (skipRead a) :=
  .bind (readByte_stuckOnlyOnEmpty cfg) fun _ => .of_done fun _ => rfl

theorem prime_stuckOnlyOnEmpty : StuckOnlyOnEmpty cfg prime := fun _ hs =>
  (fetch_stuckOnlyOnEmpty cfg _ (by exact hs)).bind fun _ _ hs1 =>
    (fetch_stuckOnlyOnEmpty cfg _ (by exact hs1)).bind fun _ _ ht => ht

theorem startStream_stuckOnlyOnEmpty (m off : Word) : StuckOnlyOnEmpty cfg (startStream m off) := by
  intro s hs
  by_cases hm : modeOfOperand m = .invalid
  · rw [startStream_of_invalid hm]
    exact hs
  · rw [startStream_of_valid hm]
    exact prime_stuckOnlyOnEmpty cfg _ hs

theorem initCommand_stuckOnlyOnEmpty (m off k : Word) : StuckOnlyOnEmpty cfg (initCommand m off k) :=
  .bind (startStream_stuckOnlyOnEmpty cfg m off) fun _ => .loop (skipRead_stuckOnlyOnEmpty cfg) k.toNat ()

end

/-- A command answers the stuck fetch only where its parameters' usable size is 0. -/
theorem StuckOnlyOnEmpty.usableSize_eq_zero {f : State → Res Unit} {s : State} (hf : StuckOnlyOnEmpty s.cfg f)
    (h : (f s).outcome = .fault .sourceEmpty) : usableSize s.cfg = 0 := by
  obtain ⟨_, hempty⟩ := (hf s rfl).of_outcome_fault h
  exact hempty rfl

/-- Settles O17: RESET makes no fetch, and INIT and READ are stuck only in a fetch from an empty region. -/
theorem stuckOnlyWithoutSource : Obligations.StuckOnlyWithoutSource := by
  intro i s h
  cases i with
  | reset => exact absurd h (exec_reset_ne_fault s _)
  | init m off k => exact (initCommand_stuckOnlyOnEmpty s.cfg m off k).usableSize_eq_zero h
  | read => exact (readCommand_stuckOnlyOnEmpty s.cfg).usableSize_eq_zero h

end Sys2Proof.Machine
end
